-- ==== Sys2Proof/Word.lean ====
section
/-! DEFINITION. The machine's word types (00_scope.md R5): 8-bit data, 16-bit CPU addresses. -/

namespace Sys2Proof

/-- The data width: A, X, Y, S, P and every memory cell (R5). -/
abbrev Byte := BitVec 8

/-- The program counter and CPU address width (R5). -/
abbrev Word := BitVec 16

end Sys2Proof
end

