-- ==== Sys2Proof/Config.lean ====
section
/-! DEFINITION. What the spec leaves open (00_scope.md R6): the parameters a machine carries unchanged, and the free input. -/

namespace Sys2Proof

/-- The two open parameters of the frame schedule (R6). A machine carries them in its state and no step changes them, so a
statement about every state holds for every value of them; State.reset has the defaults the spec offers (log 4, 5). -/
structure Params where
  /-- FRAME_CYCLES, the cycle budget of one frame (R307). -/
  frameCycles : Nat
  /-- CYC, the cycles a step reports per opcode byte (R93). -/
  cyc : Vector Nat 256
  deriving DecidableEq, Repr

/-- `input(f)` of R308: the byte the input collaborator delivers for frame f, one free draw per frame (log 3). -/
opaque Config.input : Nat → Byte

end Sys2Proof
end

