-- ==== Sys2Proof/Syntax.lean ====
section
/-! DEFINITION. The instructions: one constructor per mnemonic of spec/opcode_table.json, its addressing form (the rest
of a table row) as its argument (log 8). -/

namespace Sys2Proof

/-- The thirteen addressing modes (30_encoding.md R92). -/
inductive Mode where
  | imp | acc | imm | zp | zpx | zpy | abs | abx | aby | ind | izx | izy | rel
  deriving DecidableEq, Repr

/-- The operand forms that name a memory cell (R99 to R106), each with the operand bytes of its encoding. -/
inductive Mem where
  | zp (nn : Byte)    -- zero-page, R99
  | zpx (nn : Byte)   -- zero-page-X, R100
  | zpy (nn : Byte)   -- zero-page-Y, R101
  | abs (a : Word)    -- absolute, R102
  | abx (a : Word)    -- absolute-X, R103
  | aby (a : Word)    -- absolute-Y, R104
  | izx (nn : Byte)   -- pre-indexed-indirect, R105
  | izy (nn : Byte)   -- post-indexed-indirect, R106
  deriving DecidableEq, Repr

/-- An operand that is read: an immediate byte (R98) or a memory cell. -/
inductive Src where
  | imm (v : Byte)
  | mem (m : Mem)
  deriving DecidableEq, Repr

/-- An operand that is read and written back: the accumulator (R97) or a memory cell. -/
inductive Rmw where
  | acc
  | mem (m : Mem)
  deriving DecidableEq, Repr

/-- The two forms of JMP (43_control_flow.md R170, R171). -/
inductive Jump where
  | abs (target : Word)
  | ind (ptr : Word)
  deriving DecidableEq, Repr

/-- The instruction set (R94). `undef` stands for the 105 undefined opcode bytes (R109), the byte its argument. -/
inductive Instr where
  -- loads, stores and transfers, 40_load_store_transfer.md
  | lda (o : Src) | ldx (o : Src) | ldy (o : Src)
  | sta (m : Mem) | stx (m : Mem) | sty (m : Mem)
  | tax | tay | txa | tya | tsx | txs
  -- arithmetic, logic, compare, increment and decrement, 41_arithmetic_logic_compare.md
  | adc (o : Src) | sbc (o : Src) | and (o : Src) | ora (o : Src) | eor (o : Src)
  | cmp (o : Src) | cpx (o : Src) | cpy (o : Src) | bit (m : Mem)
  | inc (m : Mem) | dec (m : Mem)
  | inx | iny | dex | dey
  -- shifts and rotates, 42_shift_rotate.md
  | asl (o : Rmw) | lsr (o : Rmw) | rol (o : Rmw) | ror (o : Rmw)
  -- jumps, calls and branches, 43_control_flow.md
  | jmp (j : Jump) | jsr (target : Word) | rts
  | bpl (off : Byte) | bmi (off : Byte) | bvc (off : Byte) | bvs (off : Byte)
  | bcc (off : Byte) | bcs (off : Byte) | bne (off : Byte) | beq (off : Byte)
  -- stack, flags, system, 44_stack_flags_system.md
  | pha | pla | php | plp
  | clc | sec | cli | sei | clv | cld | sed
  | nop | brk | rti
  | undef (opcode : Byte)
  deriving DecidableEq, Repr

/-- How many bytes an instruction of a mode has (R92). -/
def Mode.length : Mode → Nat
  | .imp | .acc => 1
  | .imm | .zp | .zpx | .zpy | .izx | .izy | .rel => 2
  | .abs | .abx | .aby | .ind => 3

def Mem.mode : Mem → Mode
  | .zp _ => .zp
  | .zpx _ => .zpx
  | .zpy _ => .zpy
  | .abs _ => .abs
  | .abx _ => .abx
  | .aby _ => .aby
  | .izx _ => .izx
  | .izy _ => .izy

def Src.mode : Src → Mode
  | .imm _ => .imm
  | .mem m => m.mode

def Rmw.mode : Rmw → Mode
  | .acc => .acc
  | .mem m => m.mode

def Jump.mode : Jump → Mode
  | .abs _ => .abs
  | .ind _ => .ind

/-- The addressing mode of an instruction: the "mode" column of spec/opcode_table.json. -/
def Instr.mode : Instr → Mode
  | .lda o | .ldx o | .ldy o => o.mode
  | .sta m | .stx m | .sty m => m.mode
  | .tax | .tay | .txa | .tya | .tsx | .txs => .imp
  | .adc o | .sbc o | .and o | .ora o | .eor o => o.mode
  | .cmp o | .cpx o | .cpy o => o.mode
  | .bit m | .inc m | .dec m => m.mode
  | .inx | .iny | .dex | .dey => .imp
  | .asl o | .lsr o | .rol o | .ror o => o.mode
  | .jmp j => j.mode
  | .jsr _ => .abs
  | .rts => .imp
  | .bpl _ | .bmi _ | .bvc _ | .bvs _ | .bcc _ | .bcs _ | .bne _ | .beq _ => .rel
  | .pha | .pla | .php | .plp => .imp
  | .clc | .sec | .cli | .sei | .clv | .cld | .sed => .imp
  | .nop | .brk | .rti => .imp
  | .undef _ => .imp

/-- The bytes an instruction occupies (R92). -/
def Instr.length (i : Instr) : Nat := i.mode.length

end Sys2Proof
end

