-- ==== Sys2Proof/WellFormed.lean ====
section
/-! DEFINITION. Which instructions have an encoding: the addressing modes each mnemonic has (30_encoding.md R94, the
table of its section 3.1) and the bytes that are undefined opcodes (R109). -/

namespace Sys2Proof

/-- The 105 undefined opcode bytes, in the order R109 lists them. -/
def undefinedOpcodes : List Byte :=
  [0x02, 0x03, 0x04, 0x07, 0x0B, 0x0C, 0x0F, 0x12, 0x13, 0x14, 0x17, 0x1A, 0x1B, 0x1C, 0x1F] ++
  [0x22, 0x23, 0x27, 0x2B, 0x2F, 0x32, 0x33, 0x34, 0x37, 0x3A, 0x3B, 0x3C, 0x3F] ++
  [0x42, 0x43, 0x44, 0x47, 0x4B, 0x4F, 0x52, 0x53, 0x54, 0x57, 0x5A, 0x5B, 0x5C, 0x5F] ++
  [0x62, 0x63, 0x64, 0x67, 0x6B, 0x6F, 0x72, 0x73, 0x74, 0x77, 0x7A, 0x7B, 0x7C, 0x7F] ++
  [0x80, 0x82, 0x83, 0x87, 0x89, 0x8B, 0x8F, 0x92, 0x93, 0x97, 0x9B, 0x9C, 0x9E, 0x9F] ++
  [0xA3, 0xA7, 0xAB, 0xAF, 0xB2, 0xB3, 0xB7, 0xBB, 0xBF] ++
  [0xC2, 0xC3, 0xC7, 0xCB, 0xCF, 0xD2, 0xD3, 0xD4, 0xD7, 0xDA, 0xDB, 0xDC, 0xDF] ++
  [0xE2, 0xE3, 0xE7, 0xEB, 0xEF, 0xF2, 0xF3, 0xF4, 0xF7, 0xFA, 0xFB, 0xFC, 0xFF]

/-- The row of R94's section 3.1 for an instruction's mnemonic: the modes it has an opcode in. -/
def Instr.allowedModes : Instr → List Mode
  | .lda _ => [.imm, .zp, .zpx, .abs, .abx, .aby, .izx, .izy]
  | .ldx _ => [.imm, .zp, .zpy, .abs, .aby]
  | .ldy _ => [.imm, .zp, .zpx, .abs, .abx]
  | .sta _ => [.zp, .zpx, .abs, .abx, .aby, .izx, .izy]
  | .stx _ => [.zp, .zpy, .abs]
  | .sty _ => [.zp, .zpx, .abs]
  | .adc _ | .sbc _ | .and _ | .ora _ | .eor _ | .cmp _ => [.imm, .zp, .zpx, .abs, .abx, .aby, .izx, .izy]
  | .cpx _ | .cpy _ => [.imm, .zp, .abs]
  | .bit _ => [.zp, .abs]
  | .inc _ | .dec _ => [.zp, .zpx, .abs, .abx]
  | .asl _ | .lsr _ | .rol _ | .ror _ => [.acc, .zp, .zpx, .abs, .abx]
  | .jmp _ => [.abs, .ind]
  | .jsr _ => [.abs]
  | .bpl _ | .bmi _ | .bvc _ | .bvs _ | .bcc _ | .bcs _ | .bne _ | .beq _ => [.rel]
  | .tax | .tay | .txa | .tya | .tsx | .txs => [.imp]
  | .inx | .iny | .dex | .dey => [.imp]
  | .rts | .pha | .pla | .php | .plp => [.imp]
  | .clc | .sec | .cli | .sei | .clv | .cld | .sed => [.imp]
  | .nop | .brk | .rti => [.imp]
  | .undef _ => [.imp]

/-- An `undef` carries one of the bytes R109 lists; the check holds of every other instruction. -/
def Instr.undefinedByteOk : Instr → Bool
  | .undef op => undefinedOpcodes.contains op
  | _ => true

/-- An instruction is well formed when it is some row of the opcode table. -/
def Instr.wellFormed (i : Instr) : Bool := i.allowedModes.contains i.mode && i.undefinedByteOk

end Sys2Proof
end

