-- ==== Sys2Proof/Decode.lean ====
section
/-! DEFINITION. The decoder, written from the opcode matrix (30_encoding.md R94, sections 3.2 and 3.3), and the encoder,
written from the table by mnemonic (section 3.1). The two transcriptions agree: that is a statement, not a definition. -/

namespace Sys2Proof

/-- A 16-bit quantity from its bytes, the low byte at the lower address (20_memory.md R56). -/
def wordOf (lo hi : Byte) : Word := hi ++ lo

/-- Bits 7:0 of a word. -/
def lowByte (w : Word) : Byte := w.setWidth 8

/-- Bits 15:8 of a word. -/
def highByte (w : Word) : Byte := w.extractLsb' 8 8

/-- One documented opcode: its byte, and the instruction it makes of the two bytes after it (those it does not use are
ignored). -/
abbrev Row := Byte × (Byte → Byte → Instr)

/-- Row 0x of the opcode matrix. -/
def opcodes0 : List Row := [
  (0x00, fun _ _ => .brk),
  (0x01, fun l _ => .ora (.mem (.izx l))),
  (0x05, fun l _ => .ora (.mem (.zp l))),
  (0x06, fun l _ => .asl (.mem (.zp l))),
  (0x08, fun _ _ => .php),
  (0x09, fun l _ => .ora (.imm l)),
  (0x0A, fun _ _ => .asl .acc),
  (0x0D, fun l h => .ora (.mem (.abs (wordOf l h)))),
  (0x0E, fun l h => .asl (.mem (.abs (wordOf l h))))]

/-- Row 1x of the opcode matrix. -/
def opcodes1 : List Row := [
  (0x10, fun l _ => .bpl l),
  (0x11, fun l _ => .ora (.mem (.izy l))),
  (0x15, fun l _ => .ora (.mem (.zpx l))),
  (0x16, fun l _ => .asl (.mem (.zpx l))),
  (0x18, fun _ _ => .clc),
  (0x19, fun l h => .ora (.mem (.aby (wordOf l h)))),
  (0x1D, fun l h => .ora (.mem (.abx (wordOf l h)))),
  (0x1E, fun l h => .asl (.mem (.abx (wordOf l h))))]

/-- Row 2x of the opcode matrix. -/
def opcodes2 : List Row := [
  (0x20, fun l h => .jsr (wordOf l h)),
  (0x21, fun l _ => .and (.mem (.izx l))),
  (0x24, fun l _ => .bit (.zp l)),
  (0x25, fun l _ => .and (.mem (.zp l))),
  (0x26, fun l _ => .rol (.mem (.zp l))),
  (0x28, fun _ _ => .plp),
  (0x29, fun l _ => .and (.imm l)),
  (0x2A, fun _ _ => .rol .acc),
  (0x2C, fun l h => .bit (.abs (wordOf l h))),
  (0x2D, fun l h => .and (.mem (.abs (wordOf l h)))),
  (0x2E, fun l h => .rol (.mem (.abs (wordOf l h))))]

/-- Row 3x of the opcode matrix. -/
def opcodes3 : List Row := [
  (0x30, fun l _ => .bmi l),
  (0x31, fun l _ => .and (.mem (.izy l))),
  (0x35, fun l _ => .and (.mem (.zpx l))),
  (0x36, fun l _ => .rol (.mem (.zpx l))),
  (0x38, fun _ _ => .sec),
  (0x39, fun l h => .and (.mem (.aby (wordOf l h)))),
  (0x3D, fun l h => .and (.mem (.abx (wordOf l h)))),
  (0x3E, fun l h => .rol (.mem (.abx (wordOf l h))))]

/-- Row 4x of the opcode matrix. -/
def opcodes4 : List Row := [
  (0x40, fun _ _ => .rti),
  (0x41, fun l _ => .eor (.mem (.izx l))),
  (0x45, fun l _ => .eor (.mem (.zp l))),
  (0x46, fun l _ => .lsr (.mem (.zp l))),
  (0x48, fun _ _ => .pha),
  (0x49, fun l _ => .eor (.imm l)),
  (0x4A, fun _ _ => .lsr .acc),
  (0x4C, fun l h => .jmp (.abs (wordOf l h))),
  (0x4D, fun l h => .eor (.mem (.abs (wordOf l h)))),
  (0x4E, fun l h => .lsr (.mem (.abs (wordOf l h))))]

/-- Row 5x of the opcode matrix. -/
def opcodes5 : List Row := [
  (0x50, fun l _ => .bvc l),
  (0x51, fun l _ => .eor (.mem (.izy l))),
  (0x55, fun l _ => .eor (.mem (.zpx l))),
  (0x56, fun l _ => .lsr (.mem (.zpx l))),
  (0x58, fun _ _ => .cli),
  (0x59, fun l h => .eor (.mem (.aby (wordOf l h)))),
  (0x5D, fun l h => .eor (.mem (.abx (wordOf l h)))),
  (0x5E, fun l h => .lsr (.mem (.abx (wordOf l h))))]

/-- Row 6x of the opcode matrix. -/
def opcodes6 : List Row := [
  (0x60, fun _ _ => .rts),
  (0x61, fun l _ => .adc (.mem (.izx l))),
  (0x65, fun l _ => .adc (.mem (.zp l))),
  (0x66, fun l _ => .ror (.mem (.zp l))),
  (0x68, fun _ _ => .pla),
  (0x69, fun l _ => .adc (.imm l)),
  (0x6A, fun _ _ => .ror .acc),
  (0x6C, fun l h => .jmp (.ind (wordOf l h))),
  (0x6D, fun l h => .adc (.mem (.abs (wordOf l h)))),
  (0x6E, fun l h => .ror (.mem (.abs (wordOf l h))))]

/-- Row 7x of the opcode matrix. -/
def opcodes7 : List Row := [
  (0x70, fun l _ => .bvs l),
  (0x71, fun l _ => .adc (.mem (.izy l))),
  (0x75, fun l _ => .adc (.mem (.zpx l))),
  (0x76, fun l _ => .ror (.mem (.zpx l))),
  (0x78, fun _ _ => .sei),
  (0x79, fun l h => .adc (.mem (.aby (wordOf l h)))),
  (0x7D, fun l h => .adc (.mem (.abx (wordOf l h)))),
  (0x7E, fun l h => .ror (.mem (.abx (wordOf l h))))]

/-- Row 8x of the opcode matrix. -/
def opcodes8 : List Row := [
  (0x81, fun l _ => .sta (.izx l)),
  (0x84, fun l _ => .sty (.zp l)),
  (0x85, fun l _ => .sta (.zp l)),
  (0x86, fun l _ => .stx (.zp l)),
  (0x88, fun _ _ => .dey),
  (0x8A, fun _ _ => .txa),
  (0x8C, fun l h => .sty (.abs (wordOf l h))),
  (0x8D, fun l h => .sta (.abs (wordOf l h))),
  (0x8E, fun l h => .stx (.abs (wordOf l h)))]

/-- Row 9x of the opcode matrix. -/
def opcodes9 : List Row := [
  (0x90, fun l _ => .bcc l),
  (0x91, fun l _ => .sta (.izy l)),
  (0x94, fun l _ => .sty (.zpx l)),
  (0x95, fun l _ => .sta (.zpx l)),
  (0x96, fun l _ => .stx (.zpy l)),
  (0x98, fun _ _ => .tya),
  (0x99, fun l h => .sta (.aby (wordOf l h))),
  (0x9A, fun _ _ => .txs),
  (0x9D, fun l h => .sta (.abx (wordOf l h)))]

/-- Row Ax of the opcode matrix. -/
def opcodesA : List Row := [
  (0xA0, fun l _ => .ldy (.imm l)),
  (0xA1, fun l _ => .lda (.mem (.izx l))),
  (0xA2, fun l _ => .ldx (.imm l)),
  (0xA4, fun l _ => .ldy (.mem (.zp l))),
  (0xA5, fun l _ => .lda (.mem (.zp l))),
  (0xA6, fun l _ => .ldx (.mem (.zp l))),
  (0xA8, fun _ _ => .tay),
  (0xA9, fun l _ => .lda (.imm l)),
  (0xAA, fun _ _ => .tax),
  (0xAC, fun l h => .ldy (.mem (.abs (wordOf l h)))),
  (0xAD, fun l h => .lda (.mem (.abs (wordOf l h)))),
  (0xAE, fun l h => .ldx (.mem (.abs (wordOf l h))))]

/-- Row Bx of the opcode matrix. -/
def opcodesB : List Row := [
  (0xB0, fun l _ => .bcs l),
  (0xB1, fun l _ => .lda (.mem (.izy l))),
  (0xB4, fun l _ => .ldy (.mem (.zpx l))),
  (0xB5, fun l _ => .lda (.mem (.zpx l))),
  (0xB6, fun l _ => .ldx (.mem (.zpy l))),
  (0xB8, fun _ _ => .clv),
  (0xB9, fun l h => .lda (.mem (.aby (wordOf l h)))),
  (0xBA, fun _ _ => .tsx),
  (0xBC, fun l h => .ldy (.mem (.abx (wordOf l h)))),
  (0xBD, fun l h => .lda (.mem (.abx (wordOf l h)))),
  (0xBE, fun l h => .ldx (.mem (.aby (wordOf l h))))]

/-- Row Cx of the opcode matrix. -/
def opcodesC : List Row := [
  (0xC0, fun l _ => .cpy (.imm l)),
  (0xC1, fun l _ => .cmp (.mem (.izx l))),
  (0xC4, fun l _ => .cpy (.mem (.zp l))),
  (0xC5, fun l _ => .cmp (.mem (.zp l))),
  (0xC6, fun l _ => .dec (.zp l)),
  (0xC8, fun _ _ => .iny),
  (0xC9, fun l _ => .cmp (.imm l)),
  (0xCA, fun _ _ => .dex),
  (0xCC, fun l h => .cpy (.mem (.abs (wordOf l h)))),
  (0xCD, fun l h => .cmp (.mem (.abs (wordOf l h)))),
  (0xCE, fun l h => .dec (.abs (wordOf l h)))]

/-- Row Dx of the opcode matrix. -/
def opcodesD : List Row := [
  (0xD0, fun l _ => .bne l),
  (0xD1, fun l _ => .cmp (.mem (.izy l))),
  (0xD5, fun l _ => .cmp (.mem (.zpx l))),
  (0xD6, fun l _ => .dec (.zpx l)),
  (0xD8, fun _ _ => .cld),
  (0xD9, fun l h => .cmp (.mem (.aby (wordOf l h)))),
  (0xDD, fun l h => .cmp (.mem (.abx (wordOf l h)))),
  (0xDE, fun l h => .dec (.abx (wordOf l h)))]

/-- Row Ex of the opcode matrix. -/
def opcodesE : List Row := [
  (0xE0, fun l _ => .cpx (.imm l)),
  (0xE1, fun l _ => .sbc (.mem (.izx l))),
  (0xE4, fun l _ => .cpx (.mem (.zp l))),
  (0xE5, fun l _ => .sbc (.mem (.zp l))),
  (0xE6, fun l _ => .inc (.zp l)),
  (0xE8, fun _ _ => .inx),
  (0xE9, fun l _ => .sbc (.imm l)),
  (0xEA, fun _ _ => .nop),
  (0xEC, fun l h => .cpx (.mem (.abs (wordOf l h)))),
  (0xED, fun l h => .sbc (.mem (.abs (wordOf l h)))),
  (0xEE, fun l h => .inc (.abs (wordOf l h)))]

/-- Row Fx of the opcode matrix. -/
def opcodesF : List Row := [
  (0xF0, fun l _ => .beq l),
  (0xF1, fun l _ => .sbc (.mem (.izy l))),
  (0xF5, fun l _ => .sbc (.mem (.zpx l))),
  (0xF6, fun l _ => .inc (.zpx l)),
  (0xF8, fun _ _ => .sed),
  (0xF9, fun l h => .sbc (.mem (.aby (wordOf l h)))),
  (0xFD, fun l h => .sbc (.mem (.abx (wordOf l h)))),
  (0xFE, fun l h => .inc (.abx (wordOf l h)))]

/-- The 151 documented opcodes (R94). -/
def opcodeTable : List Row :=
  opcodes0 ++ opcodes1 ++ opcodes2 ++ opcodes3 ++ opcodes4 ++ opcodes5 ++ opcodes6 ++ opcodes7 ++
  opcodes8 ++ opcodes9 ++ opcodesA ++ opcodesB ++ opcodesC ++ opcodesD ++ opcodesE ++ opcodesF

/-- Decode(opcode) of R94, applied to the two bytes that may follow: total, the bytes outside the table being undefined
opcodes (R109). -/
def decodeOp (op l h : Byte) : Instr :=
  match opcodeTable.lookup op with
  | some build => build l h
  | none => .undef op

/-- The length the opcode byte alone tells (R91, R92, R110). -/
def opLength (op : Byte) : Nat := (decodeOp op 0 0).length

/-- Why a list of bytes holds no instruction. No byte sequence is illegal (R109): only a missing byte is. -/
inductive DecodeError where
  | noOpcode    -- the list is empty
  | truncated   -- the opcode's operand bytes are not all there
  deriving DecidableEq, Repr

/-- What decoding a list of bytes answers: the instruction and the bytes after it, or why there is none. -/
inductive Decoded where
  | ok (i : Instr) (rest : List Byte)
  | reject (why : DecodeError)
  deriving DecidableEq, Repr

/-- The first instruction of a list of bytes (R91). -/
def decode : List Byte → Decoded
  | [] => .reject .noOpcode
  | op :: rest =>
    if rest.length + 1 < opLength op then .reject .truncated
    else .ok (decodeOp op (rest.getD 0 0) (rest.getD 1 0)) (rest.drop (opLength op - 1))

/-- A dash of the table of section 3.1 is written 0 (no operand form has the byte 0x00, which is BRK). -/
def codeOr (c : Byte) : Option Byte := if c = 0 then none else some c

/-- The columns zp, zpx, zpy, abs, abx, aby, izx, izy of section 3.1. -/
def Mem.code (zp zpx zpy abs abx aby izx izy : Byte) : Mem → Option Byte
  | .zp _ => codeOr zp
  | .zpx _ => codeOr zpx
  | .zpy _ => codeOr zpy
  | .abs _ => codeOr abs
  | .abx _ => codeOr abx
  | .aby _ => codeOr aby
  | .izx _ => codeOr izx
  | .izy _ => codeOr izy

/-- The column imm, then the memory columns. -/
def Src.code (imm zp zpx zpy abs abx aby izx izy : Byte) : Src → Option Byte
  | .imm _ => codeOr imm
  | .mem m => m.code zp zpx zpy abs abx aby izx izy

/-- The column acc, then the memory columns. -/
def Rmw.code (acc zp zpx zpy abs abx aby izx izy : Byte) : Rmw → Option Byte
  | .acc => codeOr acc
  | .mem m => m.code zp zpx zpy abs abx aby izx izy

/-- The opcode byte of an instruction (R94, section 3.1, columns imm or acc, zp, zpx, zpy, abs, abx, aby, izx, izy); none
where the mnemonic has no such form. -/
def Instr.opcode : Instr → Option Byte
  | .lda o => o.code 0xA9 0xA5 0xB5 0 0xAD 0xBD 0xB9 0xA1 0xB1
  | .ldx o => o.code 0xA2 0xA6 0 0xB6 0xAE 0 0xBE 0 0
  | .ldy o => o.code 0xA0 0xA4 0xB4 0 0xAC 0xBC 0 0 0
  | .adc o => o.code 0x69 0x65 0x75 0 0x6D 0x7D 0x79 0x61 0x71
  | .sbc o => o.code 0xE9 0xE5 0xF5 0 0xED 0xFD 0xF9 0xE1 0xF1
  | .and o => o.code 0x29 0x25 0x35 0 0x2D 0x3D 0x39 0x21 0x31
  | .ora o => o.code 0x09 0x05 0x15 0 0x0D 0x1D 0x19 0x01 0x11
  | .eor o => o.code 0x49 0x45 0x55 0 0x4D 0x5D 0x59 0x41 0x51
  | .cmp o => o.code 0xC9 0xC5 0xD5 0 0xCD 0xDD 0xD9 0xC1 0xD1
  | .cpx o => o.code 0xE0 0xE4 0 0 0xEC 0 0 0 0
  | .cpy o => o.code 0xC0 0xC4 0 0 0xCC 0 0 0 0
  | .sta m => m.code 0x85 0x95 0 0x8D 0x9D 0x99 0x81 0x91
  | .stx m => m.code 0x86 0 0x96 0x8E 0 0 0 0
  | .sty m => m.code 0x84 0x94 0 0x8C 0 0 0 0
  | .bit m => m.code 0x24 0 0 0x2C 0 0 0 0
  | .inc m => m.code 0xE6 0xF6 0 0xEE 0xFE 0 0 0
  | .dec m => m.code 0xC6 0xD6 0 0xCE 0xDE 0 0 0
  | .asl o => o.code 0x0A 0x06 0x16 0 0x0E 0x1E 0 0 0
  | .lsr o => o.code 0x4A 0x46 0x56 0 0x4E 0x5E 0 0 0
  | .rol o => o.code 0x2A 0x26 0x36 0 0x2E 0x3E 0 0 0
  | .ror o => o.code 0x6A 0x66 0x76 0 0x6E 0x7E 0 0 0
  | .jmp (.abs _) => some 0x4C
  | .jmp (.ind _) => some 0x6C
  | .jsr _ => some 0x20
  | .bpl _ => some 0x10
  | .bmi _ => some 0x30
  | .bvc _ => some 0x50
  | .bvs _ => some 0x70
  | .bcc _ => some 0x90
  | .bcs _ => some 0xB0
  | .bne _ => some 0xD0
  | .beq _ => some 0xF0
  | .tax => some 0xAA
  | .tay => some 0xA8
  | .txa => some 0x8A
  | .tya => some 0x98
  | .tsx => some 0xBA
  | .txs => some 0x9A
  | .inx => some 0xE8
  | .iny => some 0xC8
  | .dex => some 0xCA
  | .dey => some 0x88
  | .rts => some 0x60
  | .pha => some 0x48
  | .pla => some 0x68
  | .php => some 0x08
  | .plp => some 0x28
  | .clc => some 0x18
  | .sec => some 0x38
  | .cli => some 0x58
  | .sei => some 0x78
  | .clv => some 0xB8
  | .cld => some 0xD8
  | .sed => some 0xF8
  | .nop => some 0xEA
  | .brk => some 0x00
  | .rti => some 0x40
  | .undef op => if undefinedOpcodes.contains op then some op else none

/-- The operand bytes of a memory form, low byte first (R56, R91). -/
def Mem.operandBytes : Mem → List Byte
  | .zp nn | .zpx nn | .zpy nn | .izx nn | .izy nn => [nn]
  | .abs a | .abx a | .aby a => [lowByte a, highByte a]

def Src.operandBytes : Src → List Byte
  | .imm v => [v]
  | .mem m => m.operandBytes

def Rmw.operandBytes : Rmw → List Byte
  | .acc => []
  | .mem m => m.operandBytes

def Jump.operandBytes : Jump → List Byte
  | .abs a | .ind a => [lowByte a, highByte a]

/-- The bytes after the opcode (R91). -/
def Instr.operandBytes : Instr → List Byte
  | .lda o | .ldx o | .ldy o => o.operandBytes
  | .sta m | .stx m | .sty m => m.operandBytes
  | .adc o | .sbc o | .and o | .ora o | .eor o => o.operandBytes
  | .cmp o | .cpx o | .cpy o => o.operandBytes
  | .bit m | .inc m | .dec m => m.operandBytes
  | .asl o | .lsr o | .rol o | .ror o => o.operandBytes
  | .jmp j => j.operandBytes
  | .jsr a => [lowByte a, highByte a]
  | .bpl off | .bmi off | .bvc off | .bvs off | .bcc off | .bcs off | .bne off | .beq off => [off]
  | .tax | .tay | .txa | .tya | .tsx | .txs | .inx | .iny | .dex | .dey | .rts => []
  | .pha | .pla | .php | .plp | .clc | .sec | .cli | .sei | .clv | .cld | .sed => []
  | .nop | .brk | .rti | .undef _ => []

/-- The bytes of a well-formed instruction; none for an instruction that is no row of the table. -/
def encode (i : Instr) : Option (List Byte) := i.opcode.map (· :: i.operandBytes)

/-- The instruction the decoder reads from an instruction of `nbits` bits `w`, the first byte in bits 7:0, the second in
bits 15:8, the third in bits 23:16, every bit from `nbits` up 0. -/
def decodeTableWord (nbits w : Nat) : Option Instr :=
  let v := w % 2 ^ nbits
  match decode [BitVec.ofNat 8 v, BitVec.ofNat 8 (v / 0x100), BitVec.ofNat 8 (v / 0x10000)] with
  | .ok i _ => some i
  | .reject _ => none

end Sys2Proof
end

