-- ==== Sys2Proof/Machine/Cycles.lean ====
section
/-! DEFINITION. The cycle counts a step reports (30_encoding.md R93). -/

namespace Sys2Proof.Machine

/-- The base cycle table of R93, opcode bytes 0x00 to 0xFF, sixteen a line. -/
def baseCycles : List Nat :=
  [7, 6, 2, 2, 2, 3, 5, 2, 3, 2, 2, 2, 2, 4, 6, 2] ++
  [2, 5, 2, 2, 2, 4, 6, 2, 2, 4, 2, 2, 2, 4, 7, 2] ++
  [6, 6, 2, 2, 3, 3, 5, 2, 4, 2, 2, 2, 4, 4, 6, 2] ++
  [2, 5, 2, 2, 2, 4, 6, 2, 2, 4, 2, 2, 2, 4, 7, 2] ++
  [6, 6, 2, 2, 2, 3, 5, 2, 3, 2, 2, 2, 3, 4, 6, 2] ++
  [2, 5, 2, 2, 2, 4, 6, 2, 2, 4, 2, 2, 2, 4, 7, 2] ++
  [6, 6, 2, 2, 2, 3, 5, 2, 4, 2, 2, 2, 5, 4, 6, 2] ++
  [2, 5, 2, 2, 2, 4, 6, 2, 2, 4, 2, 2, 2, 4, 7, 2] ++
  [2, 6, 2, 2, 3, 3, 3, 2, 2, 2, 2, 2, 4, 4, 4, 2] ++
  [2, 6, 2, 2, 4, 4, 4, 2, 2, 5, 2, 2, 2, 5, 2, 2] ++
  [2, 6, 2, 2, 3, 3, 3, 2, 2, 2, 2, 2, 4, 4, 4, 2] ++
  [2, 5, 2, 2, 4, 4, 4, 2, 2, 4, 2, 2, 4, 4, 4, 2] ++
  [2, 6, 2, 2, 3, 3, 5, 2, 2, 2, 2, 2, 4, 4, 6, 2] ++
  [2, 5, 2, 2, 2, 4, 6, 2, 2, 4, 2, 2, 2, 4, 7, 2] ++
  [2, 6, 2, 2, 3, 3, 5, 2, 2, 2, 2, 2, 4, 4, 6, 2] ++
  [2, 5, 2, 2, 2, 4, 6, 2, 2, 4, 2, 2, 2, 4, 7, 2]

theorem baseCycles_length : baseCycles.length = 256 := by
  rw [baseCycles]
  simp only [List.length_append, List.length_cons, List.length_nil]

/-- The default parameters: FRAME_CYCLES 29780 (R307, D16) and the base table (R93, D4). -/
def defaultParams : Params := ⟨29780, ⟨baseCycles.toArray, baseCycles_length⟩⟩

/-- What an NMI service reports (R276). -/
def nmiCycles : Nat := 7

/-- What an undefined opcode reports, whatever CYC says (R93, R204). -/
def undefinedCycles : Nat := 2

/-- What a step that executes the opcode `op` reports (R93): nothing is added for a crossed page, a taken branch or an OAM
DMA. -/
def cyclesOf (prm : Params) (op : Byte) : Nat :=
  if undefinedOpcodes.contains op then undefinedCycles else prm.cyc[op.toNat]

end Sys2Proof.Machine
end

