-- ==== Sys2Proof/Machine/Memory.lean ====
section
/-! DEFINITION. A memory of cells of w bits as plain data: the cells that do not read 0, in rising order of address.
A memory of bytes is a list of Host.Cell. -/

namespace Sys2Proof.Machine

/-- A memory of `w`-bit cells (10_state.md R20: 8 bits, or 6 for the palette and the frame buffer). -/
abbrev Memory (w : Nat) := List (Nat × BitVec w)

/-- What a cell that is not listed reads as: 0. The reset contents of oam, nt, pal and fb (R38); a choice for the contents
the spec leaves open, ram, prg and chr (log 1, 2). -/
def Memory.unlisted (w : Nat) : BitVec w := 0

/-- The canonical form of a memory of `n` cells: addresses strictly rising and below `n`, no cell listed at the value an
unlisted one reads as. Equal memories are equal lists. -/
abbrev Memory.wf {w : Nat} (n : Nat) (m : Memory w) : Prop :=
  m.Pairwise (fun c d => c.1 < d.1) ∧ ∀ c ∈ m, c.1 < n ∧ c.2 ≠ Memory.unlisted w

/-- The value of the cell at `a`. -/
def Memory.read {w : Nat} : Memory w → Nat → BitVec w
  | [], _ => Memory.unlisted w
  | (k, v) :: m, a => if k = a then v else Memory.read m a

/-- Store `v` in the cell at `a`, keeping the canonical form. -/
def Memory.write {w : Nat} : Memory w → Nat → BitVec w → Memory w
  | [], a, v => if v = Memory.unlisted w then [] else [(a, v)]
  | (k, u) :: m, a, v =>
    if a < k then
      if v = Memory.unlisted w then (k, u) :: m else (a, v) :: (k, u) :: m
    else if a = k then
      if v = Memory.unlisted w then m else (a, v) :: m
    else (k, u) :: Memory.write m a v

/-- The memory whose cell at each address below `n` is `f` of the address, and no other. -/
@[irreducible] def Memory.tabulate {w : Nat} (n : Nat) (f : Nat → BitVec w) : Memory w :=
  (List.range n).filterMap fun a => if f a = Memory.unlisted w then none else some (a, f a)

/-- The memory that holds an image from address 0 up: the first `n` bytes of a list. -/
def Memory.ofImage (n : Nat) (image : List Byte) : Memory 8 :=
  Memory.tabulate n fun a => image.getD a 0

end Sys2Proof.Machine
end

