-- ==== Sys2Proof/Machine/State.lean ====
section
/-! DEFINITION. The state of the machine (10_state.md R20), the place in the frame schedule (70_reset_and_hazards.md R307)
and the state after reset (R38). -/

namespace Sys2Proof.Machine

/-- The CPU engine's registers (R21 to R24, R29). -/
structure Cpu where
  /-- A, the accumulator. -/
  a : Byte
  /-- X, an index register. -/
  x : Byte
  /-- Y, an index register. -/
  y : Byte
  /-- S, the stack pointer. -/
  sp : Byte
  /-- P, the status register; the places of its flags are in Flags.lean. -/
  p : Byte
  /-- PC, the program counter. -/
  pc : Word
  /-- nmi_pending (R29). -/
  nmiPending : Bool
  deriving DecidableEq, Repr

/-- What sits on the CPU bus beside the picture unit (R32 to R34). -/
structure Bus where
  /-- Work RAM, 2048 bytes. -/
  ram : Memory 8
  /-- PRG, the program ROM image, 32768 bytes; no step changes it. -/
  prg : Memory 8
  /-- ctl_strobe. -/
  ctlStrobe : Bool
  /-- ctl_shift. -/
  ctlShift : Byte
  /-- ctl_snapshot. -/
  ctlSnapshot : Byte
  deriving DecidableEq, Repr

/-- The picture unit: its registers (R30), memories (R31) and the frame buffer (R35). -/
structure Ppu where
  ctrl : Byte
  mask : Byte
  status : Byte
  oamaddr : Byte
  /-- The active VRAM address. -/
  v : BitVec 15
  /-- The temp VRAM address. -/
  t : BitVec 15
  /-- Fine X scroll. -/
  x : BitVec 3
  /-- The write toggle: false before the first write of a pair, true before the second. -/
  w : Bool
  /-- The data port's read buffer. -/
  rdbuf : Byte
  /-- 256 bytes, 64 sprites of Y, tile, attribute, X. -/
  oam : Memory 8
  /-- Nametable RAM, 2048 bytes. -/
  nt : Memory 8
  /-- Palette RAM, 32 cells of 6 bits. -/
  pal : Memory 6
  /-- Pattern memory, 8192 bytes. -/
  chr : Memory 8
  /-- The frame buffer: the pixel of row y, column x is the cell y * 256 + x. -/
  fb : Memory 6
  deriving DecidableEq, Repr

/-- The three transitions of R11: which of them the frame schedule performs next (log 6). -/
inductive Phase where
  | input    -- the first line of Frame(f): the input snapshot is delivered (R308)
  | cpu      -- inside the budget: one CPU step (R90)
  | render   -- the budget is spent: the frame is rendered (R240)
  deriving DecidableEq, Repr

/-- The frame driver: where it stands in the schedule of R305 and R307, and the open parameters (R6). -/
structure Driver where
  phase : Phase
  /-- f, the number of the current frame. -/
  frame : Nat
  /-- acc, the cycles the CPU steps of this frame have reported. -/
  acc : Nat
  params : Params
  deriving DecidableEq, Repr

/-- The whole machine. -/
structure State where
  cpu : Cpu
  bus : Bus
  ppu : Ppu
  drv : Driver
  deriving DecidableEq, Repr

/-- The ways a step can stop with a fault: none (60_exceptions.md R270, 00_scope.md R11: "There is no fault outcome, no
refusal and no stuck state anywhere in the machine"). Safe: the type has no value, so no meaning can stop so. -/
inductive Fault where
  deriving DecidableEq, Repr

/-- The ways a step can be refused. -/
inductive Refusal where
  /-- Raised by an arm of exec for an instruction the model gives no meaning, under its mnemonic; no arm does. Safe. -/
  | notModelled (mnemonic : String)
  deriving DecidableEq, Repr

/-- What a meaning, an instruction or a step answers. -/
abbrev Out := Host.Outcome State Fault Refusal

def State.setA (v : Byte) (s : State) : State := { s with cpu.a := v }
def State.setX (v : Byte) (s : State) : State := { s with cpu.x := v }
def State.setY (v : Byte) (s : State) : State := { s with cpu.y := v }
def State.setSp (v : Byte) (s : State) : State := { s with cpu.sp := v }
def State.setP (v : Byte) (s : State) : State := { s with cpu.p := v }
def State.setPc (v : Word) (s : State) : State := { s with cpu.pc := v }

/-- The picture unit after its reset, the pattern memory given (R302). -/
def Ppu.cleared (chr : Memory 8) : Ppu :=
  { ctrl := 0, mask := 0, status := 0, oamaddr := 0, v := 0, t := 0, x := 0, w := false, rdbuf := 0,
    oam := [], nt := [], pal := [], chr := chr, fb := [] }

/-- The machine after the boot sequence (R38, R303, R305), with no program, pattern or RAM image placed (log 1, 2): PC is the
word at the reset vector of that empty image. -/
def State.reset : State :=
  { cpu := { a := 0, x := 0, y := 0, sp := 0xFD, p := 0x24, pc := 0x0000, nmiPending := false }
    bus := { ram := [], prg := [], ctlStrobe := false, ctlShift := 0, ctlSnapshot := 0 }
    ppu := Ppu.cleared []
    drv := { phase := .input, frame := 0, acc := 0, params := defaultParams } }

end Sys2Proof.Machine
end

