-- ==== Sys2Proof/Machine/Flags.lean ====
section
/-! DEFINITION. The status register's flags and every flag computation (10_state.md R24 to R26; 41_arithmetic_logic_compare.md
R140, R141, R148, R156; 42_shift_rotate.md R160 to R163). -/

namespace Sys2Proof.Machine

/-- The flags of P (R24). -/
inductive Flag where
  | C | Z | I | D | B | U | V | N
  deriving DecidableEq, Repr

/-- The place of a flag in P (R24). -/
def Flag.pos : Flag → Nat
  | .C => 0
  | .Z => 1
  | .I => 2
  | .D => 3
  | .B => 4
  | .U => 5
  | .V => 6
  | .N => 7

/-- The byte with only the flag's bit set. -/
def Flag.bitMask (f : Flag) : Byte := BitVec.twoPow 8 f.pos

/-- The flag's bit of a status byte. -/
def getFlag (f : Flag) (p : Byte) : Bool := p.getLsbD f.pos

/-- A status byte with one flag written and every other bit kept. -/
def setFlag (f : Flag) (b : Bool) (p : Byte) : Byte :=
  if b then p ||| f.bitMask else p &&& ~~~f.bitMask

/-- setZN(v) of R25: Z when `v` is 0, N its bit 7, no other flag. -/
def setZN (v p : Byte) : Byte := setFlag .N v.msb (setFlag .Z (v == 0) p)

/-- The 9-bit sum of R140: `A + M + C`. -/
def sum9 (a m : Byte) (c : Bool) : BitVec 9 :=
  a.setWidth 9 + m.setWidth 9 + (BitVec.ofBool c).setWidth 9

/-- The 8-bit result of R140. -/
def addResult (a m : Byte) (c : Bool) : Byte := (sum9 a m c).setWidth 8

/-- V of R140: the addends agree in sign and the result does not. -/
def addOverflow (a m : Byte) (c : Bool) : Bool := (~~~(a ^^^ m) &&& (a ^^^ addResult a m c)).msb

/-- P after R140: C is bit 8 of the sum, V the signed overflow, Z and N from the result. -/
def addFlags (a m p : Byte) : Byte :=
  let c := getFlag .C p
  setZN (addResult a m c) (setFlag .V (addOverflow a m c) (setFlag .C (sum9 a m c).msb p))

/-- P after the compare law R156 of the register value `r` with `m`. -/
def cmpFlags (r m p : Byte) : Byte := setZN (r - m) (setFlag .C (m.ule r) p)

/-- P after BIT (R148). -/
def bitFlags (a m p : Byte) : Byte :=
  setFlag .V (m.getLsbD 6) (setFlag .N (m.getLsbD 7) (setFlag .Z ((a &&& m) == 0) p))

/-- P after a shift or rotate whose result is `r` and whose bit shifted out is `c` (R160 to R163). -/
def shiftFlags (r : Byte) (c : Bool) (p : Byte) : Byte := setZN r (setFlag .C c p)

/-- The result and the new P of a shift of `m` (R160). -/
def aslOp (m p : Byte) : Byte × Byte :=
  let r := m <<< 1
  (r, shiftFlags r (m.getLsbD 7) p)

/-- R161. -/
def lsrOp (m p : Byte) : Byte × Byte :=
  let r := m >>> 1
  (r, shiftFlags r (m.getLsbD 0) p)

/-- R162: the old carry enters bit 0. -/
def rolOp (m p : Byte) : Byte × Byte :=
  let r := (m <<< 1) ||| (BitVec.ofBool (getFlag .C p)).setWidth 8
  (r, shiftFlags r (m.getLsbD 7) p)

/-- R163: the old carry enters bit 7. -/
def rorOp (m p : Byte) : Byte × Byte :=
  let r := (m >>> 1) ||| ((BitVec.ofBool (getFlag .C p)).setWidth 8 <<< 7)
  (r, shiftFlags r (m.getLsbD 0) p)

end Sys2Proof.Machine
end

