-- ==== Sys2Proof/Machine/PpuRegs.lean ====
section
/-! DEFINITION. The picture unit's address space (20_memory.md R65 to R67) and its control and status register window
(45_ppu_register_window.md R210 to R223). -/

namespace Sys2Proof.Machine

/-- VramRead (R66); the address is reduced to 14 bits first (R65). -/
def vramRead (p : Ppu) (addr : Nat) : Byte :=
  let a := addr % 0x4000
  if a ≤ 0x1FFF then p.chr.read a
  else if a ≤ 0x2FFF then p.nt.read (a % 0x0800)
  else if a ≤ 0x3EFF then 0
  else (p.pal.read (a % 0x20)).setWidth 8

/-- VramWrite (R67). A palette cell keeps the low six bits. -/
def vramWrite (p : Ppu) (addr : Nat) (d : Byte) : Ppu :=
  let a := addr % 0x4000
  if a ≤ 0x1FFF then { p with chr := p.chr.write a d }
  else if a ≤ 0x2FFF then { p with nt := p.nt.write (a % 0x0800) d }
  else if a ≤ 0x3EFF then p
  else { p with pal := p.pal.write (a % 0x20) (d.setWidth 6) }

/-- The address increment of a data-port access (R223), by the INC bit of ctrl (R30). -/
def Ppu.advance (p : Ppu) : Ppu := { p with v := p.v + if p.ctrl.getLsbD 2 then 32 else 1 }

/-- Read of register 2, status (R215): the value before the clear. -/
def readStatus (p : Ppu) : Byte × Ppu := (p.status, { p with status := p.status &&& 0x7F, w := false })

/-- Read of register 4, OAM data (R218): no increment. -/
def readOamData (p : Ppu) : Byte × Ppu := (p.oam.read p.oamaddr.toNat, p)

/-- Read of register 7, VRAM data (R221): buffered below palette space, immediate in it. -/
def readData (p : Ppu) : Byte × Ppu :=
  let a := p.v.toNat % 0x4000
  if 0x3F00 ≤ a then (vramRead p a, Ppu.advance { p with rdbuf := vramRead p (a - 0x1000) })
  else (p.rdbuf, Ppu.advance { p with rdbuf := vramRead p a })

/-- PpuRegRead(n) of R210; the write-only registers read 0 and change nothing (R214). -/
def ppuRegRead (n : Nat) (p : Ppu) : Byte × Ppu :=
  if n = 2 then readStatus p
  else if n = 4 then readOamData p
  else if n = 7 then readData p
  else (0, p)

/-- Write of register 0, control (R212). -/
def writeCtrl (d : Byte) (p : Ppu) : Ppu :=
  { p with ctrl := d, t := (p.t &&& 0x73FF) ||| ((d &&& 3).setWidth 15 <<< 10) }

/-- Write of register 4, OAM data (R218): the OAM address advances, modulo 256. -/
def writeOamData (d : Byte) (p : Ppu) : Ppu :=
  { p with oam := p.oam.write p.oamaddr.toNat d, oamaddr := p.oamaddr + 1 }

/-- Write of register 5, scroll (R219): fine and coarse X, then fine and coarse Y. -/
def writeScroll (d : Byte) (p : Ppu) : Ppu :=
  if p.w then
    { p with
      t := (p.t &&& 0x0C1F) ||| ((d &&& 7).setWidth 15 <<< 12) ||| ((d >>> 3).setWidth 15 <<< 5)
      w := false }
  else { p with t := (p.t &&& 0x7FE0) ||| (d >>> 3).setWidth 15, x := d.setWidth 3, w := true }

/-- Write of register 6, VRAM address (R220): the high byte, then the low byte and the commit into v. -/
def writeAddr (d : Byte) (p : Ppu) : Ppu :=
  if p.w then
    let t := (p.t &&& 0x7F00) ||| d.setWidth 15
    { p with t := t, v := t, w := false }
  else { p with t := (p.t &&& 0x00FF) ||| ((d &&& 0x3F).setWidth 15 <<< 8), w := true }

/-- Write of register 7, VRAM data (R222): stored at once, the read buffer kept. -/
def writeData (d : Byte) (p : Ppu) : Ppu := (vramWrite p p.v.toNat d).advance

/-- PpuRegWrite(n, d) of R210; register 1 stores the mask (R213), 2 ignores the write (R216), 3 sets the OAM address (R217). -/
def ppuRegWrite (n : Nat) (d : Byte) (p : Ppu) : Ppu :=
  if n = 0 then writeCtrl d p
  else if n = 1 then { p with mask := d }
  else if n = 2 then p
  else if n = 3 then { p with oamaddr := d }
  else if n = 4 then writeOamData d p
  else if n = 5 then writeScroll d p
  else if n = 6 then writeAddr d p
  else writeData d p

end Sys2Proof.Machine
end

