-- ==== Sys2Proof/Machine/Ops.lean ====
section
/-! DEFINITION. The named operations over memory and registers: the CPU bus (20_memory.md R50 to R63), the stack (10_state.md
R27, R28), the 16-bit reads (00_scope.md R10), taking a trap (R202, R276) and returning from one (R203). A read answers its
value and the state its side effects leave. -/

namespace Sys2Proof.Machine

/-- ControllerWrite (R62): bit 0 is the strobe; while it is set the shift register follows the snapshot. -/
def controllerWrite (d : Byte) (b : Bus) : Bus :=
  let strobe := d.getLsbD 0
  { b with ctlStrobe := strobe, ctlShift := if strobe then b.ctlSnapshot else b.ctlShift }

/-- ControllerRead (R63): bit 0 of the shift register, or'd with 0x40; reloaded first while strobed, shifted after otherwise. -/
def controllerRead (b : Bus) : Byte × Bus :=
  let shift := if b.ctlStrobe then b.ctlSnapshot else b.ctlShift
  ((shift &&& 0x01) ||| 0x40, { b with ctlShift := if b.ctlStrobe then shift else shift >>> 1 })

/-- MemRead (R50, R52 to R54, R58). -/
def memRead (addr : Word) (s : State) : Byte × State :=
  let a := addr.toNat
  if a ≤ 0x1FFF then (s.bus.ram.read (a % 0x0800), s)
  else if a ≤ 0x3FFF then
    let r := ppuRegRead (a % 8) s.ppu
    (r.1, { s with ppu := r.2 })
  else if a = 0x4016 then
    let r := controllerRead s.bus
    (r.1, { s with bus := r.2 })
  else if 0x8000 ≤ a then (s.bus.prg.read (a - 0x8000), s)
  else (0, s)

/-- One byte of the OAM DMA (R55): byte `i` of page `d`, read through the bus, into OAM at `oamaddr + i` modulo 256. -/
def oamDmaByte (d : Byte) (s : State) (i : Nat) : State :=
  let r := memRead (wordOf (BitVec.ofNat 8 i) d) s
  { r.2 with ppu.oam := r.2.ppu.oam.write ((r.2.ppu.oamaddr.toNat + i) % 0x100) r.1 }

/-- OamDma (R55): the 256 bytes in ascending order; the OAM address is kept. -/
def oamDma (d : Byte) (s : State) : State := (List.range 256).foldl (oamDmaByte d) s

/-- MemWrite (R51): ROM (R52) and the unmapped addresses (R58) ignore it. -/
def memWrite (addr : Word) (d : Byte) (s : State) : State :=
  let a := addr.toNat
  if a ≤ 0x1FFF then { s with bus.ram := s.bus.ram.write (a % 0x0800) d }
  else if a ≤ 0x3FFF then { s with ppu := ppuRegWrite (a % 8) d s.ppu }
  else if a = 0x4014 then oamDma d s
  else if a = 0x4016 then { s with bus := controllerWrite d s.bus }
  else s

/-- Read16 (R10): the low byte first, then the byte at the next address. -/
def read16 (a : Word) (s : State) : Word × State :=
  let lo := memRead a s
  let hi := memRead (a + 1) lo.2
  (wordOf lo.1 hi.1, hi.2)

/-- Read16zp (R10): the second address wraps inside page zero. -/
def read16zp (z : Byte) (s : State) : Word × State :=
  let lo := memRead (wordOf z 0) s
  let hi := memRead (wordOf (z + 1) 0) lo.2
  (wordOf lo.1 hi.1, hi.2)

/-- The two reads of an indirect jump (R107): the second address wraps inside the pointer's page. -/
def read16page (ptr : Word) (s : State) : Word × State :=
  let lo := memRead ptr s
  let hi := memRead (wordOf (lowByte ptr + 1) (highByte ptr)) lo.2
  (wordOf lo.1 hi.1, hi.2)

/-- The address of the stack slot S names (R22). -/
def stackSlot (sp : Byte) : Word := wordOf sp 0x01

/-- push (R27): write, then decrement S. -/
def push (v : Byte) (s : State) : State :=
  let t := memWrite (stackSlot s.cpu.sp) v s
  t.setSp (t.cpu.sp - 1)

/-- pull (R28): increment S, then read. -/
def pull (s : State) : Byte × State :=
  let t := s.setSp (s.cpu.sp + 1)
  memRead (stackSlot t.cpu.sp) t

/-- Two pushes, the high byte first (R172, R202, R276). -/
def pushWord (w : Word) (s : State) : State := push (lowByte w) (push (highByte w) s)

/-- Two pulls, the low byte first (R173, R203). -/
def pullWord (s : State) : Word × State :=
  let lo := pull s
  let hi := pull lo.2
  (wordOf lo.1 hi.1, hi.2)

/-- Taking a trap, common to BRK (R202, R275) and the NMI service (R276): the return address and the status byte are pushed,
I is set, and PC is loaded from the vector. -/
def takeTrap (ret : Word) (status : Byte) (vector : Word) (s : State) : State :=
  let t := push status (pushWord ret s)
  let h := read16 vector (t.setP (setFlag .I true t.cpu.p))
  h.2.setPc h.1

/-- Returning from a trap (R203, R278): P with Unused forced to 1, then PC, not incremented. -/
def returnFromTrap (s : State) : State :=
  let st := pull s
  let ret := pullWord (st.2.setP (st.1 ||| 0x20))
  ret.2.setPc ret.1

/-- NmiService (R276): the pending flag is cleared and P is pushed as it stands. -/
def nmiService (s : State) : State :=
  takeTrap s.cpu.pc s.cpu.p 0xFFFA { s with cpu.nmiPending := false }

end Sys2Proof.Machine
end

