-- ==== Sys2Proof/Machine/Operands.lean ====
section
/-! DEFINITION. The operand forms (30_encoding.md R96 to R108): the effective address of each, and the operand read from it.
The operand bytes themselves have been fetched already (Fetch.lean); what is read here are pointers and data, in the order
of R113. -/

namespace Sys2Proof.Machine

/-- The effective address of a memory form, and the state its pointer reads leave (R99 to R106). -/
def effAddr (m : Mem) (s : State) : Word × State :=
  match m with
  | .zp nn => (wordOf nn 0, s)
  | .zpx nn => (wordOf (nn + s.cpu.x) 0, s)
  | .zpy nn => (wordOf (nn + s.cpu.y) 0, s)
  | .abs a => (a, s)
  | .abx a => (a + wordOf s.cpu.x 0, s)
  | .aby a => (a + wordOf s.cpu.y 0, s)
  | .izx nn => read16zp (nn + s.cpu.x) s
  | .izy nn =>
    let base := read16zp nn s
    (base.1 + wordOf s.cpu.y 0, base.2)

/-- MemRead of a memory form's effective address. -/
def readMem (m : Mem) (s : State) : Byte × State :=
  let e := effAddr m s
  memRead e.1 e.2

/-- The operand of a load, an arithmetic or logical instruction or a compare: the immediate byte (R98) or the memory cell. -/
def readSrc (o : Src) (s : State) : Byte × State :=
  match o with
  | .imm v => (v, s)
  | .mem m => readMem m s

/-- MemWrite of `v` to a memory form's effective address; the target is not read (R113). -/
def storeMem (m : Mem) (v : Byte) (s : State) : State :=
  let e := effAddr m s
  memWrite e.1 v e.2

/-- One read, then one write of the same cell (20_memory.md R59, R164); `f` takes the cell and P to the result and the
new P. -/
def modifyMem (m : Mem) (f : Byte → Byte → Byte × Byte) (s : State) : State :=
  let e := effAddr m s
  let c := memRead e.1 e.2
  let r := f c.1 c.2.cpu.p
  memWrite e.1 r.1 (c.2.setP r.2)

/-- A shift or rotate of the accumulator (R97) or of a memory cell (R164). -/
def modifyRmw (o : Rmw) (f : Byte → Byte → Byte × Byte) (s : State) : State :=
  match o with
  | .acc =>
    let r := f s.cpu.a s.cpu.p
    (s.setA r.1).setP r.2
  | .mem m => modifyMem m f s

/-- Where a JMP goes, and the state its pointer reads leave (R102, R107). -/
def jumpTarget (j : Jump) (s : State) : Word × State :=
  match j with
  | .abs target => (target, s)
  | .ind ptr => read16page ptr s

/-- A conditional branch (R108, R174): PC holds the address after the operand byte. -/
def branchIf (cond : Bool) (off : Byte) (s : State) : State :=
  if cond then s.setPc (s.cpu.pc + off.signExtend 16) else s

/-- Write P's Z and N from `v` (R25). -/
def State.withZN (v : Byte) (s : State) : State := s.setP (setZN v s.cpu.p)

/-- Write one flag. -/
def State.withFlag (f : Flag) (b : Bool) (s : State) : State := s.setP (setFlag f b s.cpu.p)

end Sys2Proof.Machine
end

