-- ==== Sys2Proof/Machine/Arith.lean ====
section
/-! DEFINITION. Arithmetic, logic, compare, bit test, increment and decrement (41_arithmetic_logic_compare.md R140 to R156).
A meaning runs after the fetch: PC is already past the instruction. -/

namespace Sys2Proof.Machine

/-- ADC (R140): binary whatever D holds (R155). -/
def execAdc (o : Src) (s : State) : Out :=
  let r := readSrc o s
  let c := r.2.cpu
  .next ((r.2.setA (addResult c.a r.1 (getFlag .C c.p))).setP (addFlags c.a r.1 c.p))

/-- SBC (R141): ADC of the one's complement of the operand. -/
def execSbc (o : Src) (s : State) : Out :=
  let r := readSrc o s
  let c := r.2.cpu
  let m := r.1 ^^^ 0xFF
  .next ((r.2.setA (addResult c.a m (getFlag .C c.p))).setP (addFlags c.a m c.p))

/-- AND (R142). -/
def execAnd (o : Src) (s : State) : Out :=
  let r := readSrc o s
  let v := r.2.cpu.a &&& r.1
  .next ((r.2.setA v).withZN v)

/-- ORA (R143). -/
def execOra (o : Src) (s : State) : Out :=
  let r := readSrc o s
  let v := r.2.cpu.a ||| r.1
  .next ((r.2.setA v).withZN v)

/-- EOR (R144). -/
def execEor (o : Src) (s : State) : Out :=
  let r := readSrc o s
  let v := r.2.cpu.a ^^^ r.1
  .next ((r.2.setA v).withZN v)

/-- CMP (R145, R156). -/
def execCmp (o : Src) (s : State) : Out :=
  let r := readSrc o s
  .next (r.2.setP (cmpFlags r.2.cpu.a r.1 r.2.cpu.p))

/-- CPX (R146, R156). -/
def execCpx (o : Src) (s : State) : Out :=
  let r := readSrc o s
  .next (r.2.setP (cmpFlags r.2.cpu.x r.1 r.2.cpu.p))

/-- CPY (R147, R156). -/
def execCpy (o : Src) (s : State) : Out :=
  let r := readSrc o s
  .next (r.2.setP (cmpFlags r.2.cpu.y r.1 r.2.cpu.p))

/-- BIT (R148): N and V from the memory operand, Z from the AND; A is kept. -/
def execBit (m : Mem) (s : State) : Out :=
  let r := readMem m s
  .next (r.2.setP (bitFlags r.2.cpu.a r.1 r.2.cpu.p))

/-- INC (R149). -/
def execInc (m : Mem) (s : State) : Out := .next (modifyMem m (fun v p => (v + 1, setZN (v + 1) p)) s)

/-- DEC (R150). -/
def execDec (m : Mem) (s : State) : Out := .next (modifyMem m (fun v p => (v - 1, setZN (v - 1) p)) s)

/-- INX (R151). -/
def execInx (s : State) : Out := .next ((s.setX (s.cpu.x + 1)).withZN (s.cpu.x + 1))

/-- INY (R152). -/
def execIny (s : State) : Out := .next ((s.setY (s.cpu.y + 1)).withZN (s.cpu.y + 1))

/-- DEX (R153). -/
def execDex (s : State) : Out := .next ((s.setX (s.cpu.x - 1)).withZN (s.cpu.x - 1))

/-- DEY (R154). -/
def execDey (s : State) : Out := .next ((s.setY (s.cpu.y - 1)).withZN (s.cpu.y - 1))

end Sys2Proof.Machine
end

