-- ==== Sys2Proof/Machine/Control.lean ====
section
/-! DEFINITION. Jumps, subroutine call and return, conditional branches (43_control_flow.md R170 to R182). A meaning runs
after the fetch: PC is already past the instruction, `pc0 + length`. -/

namespace Sys2Proof.Machine

/-- JMP, absolute (R170) and indirect with the page-boundary bug (R171). -/
def execJmp (j : Jump) (s : State) : Out :=
  let t := jumpTarget j s
  .next (t.2.setPc t.1)

/-- JSR (R172): the pushed address is `pc0 + 2`, the last byte of the JSR, which is PC - 1 after the fetch. -/
def execJsr (target : Word) (s : State) : Out := .next ((pushWord (s.cpu.pc - 1) s).setPc target)

/-- RTS (R173): pops PC, then increments it. -/
def execRts (s : State) : Out :=
  let r := pullWord s
  .next (r.2.setPc (r.1 + 1))

/-- BPL (R175). -/
def execBpl (off : Byte) (s : State) : Out := .next (branchIf (!getFlag .N s.cpu.p) off s)

/-- BMI (R176). -/
def execBmi (off : Byte) (s : State) : Out := .next (branchIf (getFlag .N s.cpu.p) off s)

/-- BVC (R177). -/
def execBvc (off : Byte) (s : State) : Out := .next (branchIf (!getFlag .V s.cpu.p) off s)

/-- BVS (R178). -/
def execBvs (off : Byte) (s : State) : Out := .next (branchIf (getFlag .V s.cpu.p) off s)

/-- BCC (R179). -/
def execBcc (off : Byte) (s : State) : Out := .next (branchIf (!getFlag .C s.cpu.p) off s)

/-- BCS (R180). -/
def execBcs (off : Byte) (s : State) : Out := .next (branchIf (getFlag .C s.cpu.p) off s)

/-- BNE (R181). -/
def execBne (off : Byte) (s : State) : Out := .next (branchIf (!getFlag .Z s.cpu.p) off s)

/-- BEQ (R182). -/
def execBeq (off : Byte) (s : State) : Out := .next (branchIf (getFlag .Z s.cpu.p) off s)

end Sys2Proof.Machine
end

