-- ==== Sys2Proof/Machine/LoadStore.lean ====
section
/-! DEFINITION. Loads, stores and register transfers (40_load_store_transfer.md R120 to R131). A meaning runs after the
fetch: PC is already past the instruction. -/

namespace Sys2Proof.Machine

/-- LDA (R120). -/
def execLda (o : Src) (s : State) : Out :=
  let r := readSrc o s
  .next ((r.2.setA r.1).withZN r.1)

/-- LDX (R121). -/
def execLdx (o : Src) (s : State) : Out :=
  let r := readSrc o s
  .next ((r.2.setX r.1).withZN r.1)

/-- LDY (R122). -/
def execLdy (o : Src) (s : State) : Out :=
  let r := readSrc o s
  .next ((r.2.setY r.1).withZN r.1)

/-- STA (R123): no flag. -/
def execSta (m : Mem) (s : State) : Out := .next (storeMem m s.cpu.a s)

/-- STX (R124). -/
def execStx (m : Mem) (s : State) : Out := .next (storeMem m s.cpu.x s)

/-- STY (R125). -/
def execSty (m : Mem) (s : State) : Out := .next (storeMem m s.cpu.y s)

/-- TAX (R126). -/
def execTax (s : State) : Out := .next ((s.setX s.cpu.a).withZN s.cpu.a)

/-- TAY (R127). -/
def execTay (s : State) : Out := .next ((s.setY s.cpu.a).withZN s.cpu.a)

/-- TXA (R128). -/
def execTxa (s : State) : Out := .next ((s.setA s.cpu.x).withZN s.cpu.x)

/-- TYA (R129). -/
def execTya (s : State) : Out := .next ((s.setA s.cpu.y).withZN s.cpu.y)

/-- TSX (R130). -/
def execTsx (s : State) : Out := .next ((s.setX s.cpu.sp).withZN s.cpu.sp)

/-- TXS (R131): the one transfer that writes no flag. -/
def execTxs (s : State) : Out := .next (s.setSp s.cpu.x)

end Sys2Proof.Machine
end

