-- ==== Sys2Proof/Machine/Shift.lean ====
section
/-! DEFINITION. Shifts and rotates, by one bit, of the accumulator or a memory cell (42_shift_rotate.md R160 to R164). A
meaning runs after the fetch: PC is already past the instruction. -/

namespace Sys2Proof.Machine

/-- ASL (R160). -/
def execAsl (o : Rmw) (s : State) : Out := .next (modifyRmw o aslOp s)

/-- LSR (R161). -/
def execLsr (o : Rmw) (s : State) : Out := .next (modifyRmw o lsrOp s)

/-- ROL (R162). -/
def execRol (o : Rmw) (s : State) : Out := .next (modifyRmw o rolOp s)

/-- ROR (R163). -/
def execRor (o : Rmw) (s : State) : Out := .next (modifyRmw o rorOp s)

end Sys2Proof.Machine
end

