-- ==== Sys2Proof/Machine/System.lean ====
section
/-! DEFINITION. Stack, flag, no-operation and system instructions, and the undefined opcodes (44_stack_flags_system.md R190
to R204). A meaning runs after the fetch: PC is already past the instruction, `pc0 + 1`. -/

namespace Sys2Proof.Machine

/-- PHA (R190). -/
def execPha (s : State) : Out := .next (push s.cpu.a s)

/-- PLA (R191). -/
def execPla (s : State) : Out :=
  let r := pull s
  .next ((r.2.setA r.1).withZN r.1)

/-- PHP (R192): Break and Unused are set in the pushed byte only. -/
def execPhp (s : State) : Out := .next (push (s.cpu.p ||| 0x30) s)

/-- PLP (R193): Unused is forced to 1. -/
def execPlp (s : State) : Out :=
  let r := pull s
  .next (r.2.setP (r.1 ||| 0x20))

/-- CLC (R194). -/
def execClc (s : State) : Out := .next (s.withFlag .C false)

/-- SEC (R195). -/
def execSec (s : State) : Out := .next (s.withFlag .C true)

/-- CLI (R196). -/
def execCli (s : State) : Out := .next (s.withFlag .I false)

/-- SEI (R197). -/
def execSei (s : State) : Out := .next (s.withFlag .I true)

/-- CLV (R198). -/
def execClv (s : State) : Out := .next (s.withFlag .V false)

/-- CLD (R199). -/
def execCld (s : State) : Out := .next (s.withFlag .D false)

/-- SED (R200). -/
def execSed (s : State) : Out := .next (s.withFlag .D true)

/-- NOP (R201). -/
def execNop (s : State) : Out := .next s

/-- BRK (R202, R275): the saved address is `pc0 + 2`, which is PC + 1 after the fetch; Break and Unused are set in the pushed
byte only. -/
def execBrk (s : State) : Out := .next (takeTrap (s.cpu.pc + 1) (s.cpu.p ||| 0x30) 0xFFFE s)

/-- RTI (R203). -/
def execRti (s : State) : Out := .next (returnFromTrap s)

/-- An undefined opcode (R204): nothing beyond the fetch of its one byte. -/
def execUndef (_opcode : Byte) (s : State) : Out := .next s

end Sys2Proof.Machine
end

