-- ==== Sys2Proof/Machine/Fetch.lean ====
section
/-! DEFINITION. Fetching an instruction's bytes through the bus (30_encoding.md R90, R91, R113; 20_memory.md R71), and placing
an instruction where it will be fetched. -/

namespace Sys2Proof.Machine

/-- The byte at PC, and PC advanced past it (R90, R23). -/
def fetchByte (s : State) : Byte × State :=
  let r := memRead s.cpu.pc s
  (r.1, r.2.setPc (r.2.cpu.pc + 1))

/-- A fetched instruction: its opcode byte, what it decodes to, and the state after its bytes were read. -/
structure Fetched where
  op : Byte
  instr : Instr
  state : State
  deriving DecidableEq, Repr

/-- The opcode, then the operand bytes its length calls for, in ascending order (R113). -/
def fetchInstr (s : State) : Fetched :=
  let o := fetchByte s
  match opLength o.1 with
  | 3 =>
    let l := fetchByte o.2
    let h := fetchByte l.2
    { op := o.1, instr := decodeOp o.1 l.1 h.1, state := h.2 }
  | 2 =>
    let l := fetchByte o.2
    { op := o.1, instr := decodeOp o.1 l.1 0, state := l.2 }
  | _ => { op := o.1, instr := decodeOp o.1 0 0, state := o.2 }

/-- The addresses whose byte is a memory cell, RAM or ROM (R61). -/
def isCell (a : Word) : Bool := a.toNat ≤ 0x1FFF || 0x8000 ≤ a.toNat

/-- Place a byte in the RAM or ROM cell at an address, as a loader does; nothing elsewhere. -/
def placeByte (a : Word) (b : Byte) (s : State) : State :=
  if a.toNat ≤ 0x1FFF then { s with bus.ram := s.bus.ram.write (a.toNat % 0x0800) b }
  else if 0x8000 ≤ a.toNat then { s with bus.prg := s.bus.prg.write (a.toNat - 0x8000) b }
  else s

/-- Where an instruction can be placed for the next fetch: PC, if the three bytes from it are memory cells; else the start
of the ROM (log 10). -/
def placeAt (s : State) : Word :=
  let pc := s.cpu.pc
  if isCell pc && isCell (pc + 1) && isCell (pc + 2) then pc else 0x8000

/-- Place the three bytes of `v` (bits 7:0 first) for the next fetch, and let a CPU step with no NMI come next (log 10). -/
def placeInstr (v : Nat) (s : State) : State :=
  let pc := placeAt s
  let t := placeByte (pc + 2) (BitVec.ofNat 8 (v / 0x10000))
    (placeByte (pc + 1) (BitVec.ofNat 8 (v / 0x100)) (placeByte pc (BitVec.ofNat 8 v) s))
  { t with cpu.pc := pc, cpu.nmiPending := false, drv.phase := .cpu }

end Sys2Proof.Machine
end

