-- ==== Sys2Proof/Machine/Render.lean ====
section
/-! DEFINITION. The tile and sprite rasterizer (46_ppu_rasterizer.md R240 to R252). Screen coordinates are natural numbers,
px the column and py the row (R241). -/

namespace Sys2Proof.Machine

/-- Bits `lo` to `lo + len - 1` of a 15-bit address, as a number. -/
def bits15 (t : BitVec 15) (lo len : Nat) : Nat := (t.extractLsb' lo len).toNat

/-- The scroll origin's column (R242): nametable bit, coarse X, fine X. -/
def scrollX (p : Ppu) : Nat := bits15 p.t 10 1 * 256 + bits15 p.t 0 5 * 8 + p.x.toNat

/-- The scroll origin's row (R242): coarse Y, fine Y. -/
def scrollY (p : Ppu) : Nat := bits15 p.t 5 5 * 8 + bits15 p.t 12 3

/-- A 2-bit colour index from the two bit planes of a pattern row (R244, R250). -/
def colourIndex (lo hi : Byte) (b : Nat) : Nat := (hi.getLsbD b).toNat * 2 + (lo.getLsbD b).toNat

/-- The tile a world coordinate falls in (R243): its nametable's base address, its column and row there. -/
structure TilePos where
  nb : Nat
  cx : Nat
  ty : Nat
  deriving DecidableEq, Repr

/-- R243, of a world coordinate. -/
def tilePos (wx wy : Nat) : TilePos :=
  let tx := wx / 8
  { nb := 0x2000 + tx / 32 * 0x400, cx := tx % 32, ty := wy / 8 }

/-- The background's colour index at a world coordinate (R243, R244). -/
def backgroundIndex (p : Ppu) (wx wy : Nat) : Nat :=
  let pos := tilePos wx wy
  let tile := (vramRead p (pos.nb + pos.ty * 32 + pos.cx)).toNat
  let pt := if p.ctrl.getLsbD 4 then 0x1000 else 0x0000
  let row := pt + tile * 16 + wy % 8
  colourIndex (vramRead p row) (vramRead p (row + 8)) (7 - wx % 8)

/-- The palette the attribute table selects at a world coordinate (R245). -/
def attributeSelector (p : Ppu) (wx wy : Nat) : Nat :=
  let pos := tilePos wx wy
  let at' := vramRead p (pos.nb + 0x3C0 + pos.ty / 4 * 8 + pos.cx / 4)
  let sh := pos.ty / 2 % 2 * 4 + pos.cx / 2 % 2 * 2
  at'.toNat / 2 ^ sh % 4

/-- BackgroundPixel (R243 to R246). -/
def backgroundPixel (p : Ppu) (px py : Nat) : BitVec 6 :=
  let wx := (px + scrollX p) % 512
  let wy := (py + scrollY p) % 240
  let ci := backgroundIndex p wx wy
  if ci = 0 then p.pal.read 0 else p.pal.read (attributeSelector p wx wy * 4 + ci)

/-- The height of every sprite (R248): ctrl bit 5. -/
def spriteHeight (p : Ppu) : Nat := if p.ctrl.getLsbD 5 then 16 else 8

/-- The address of plane 0 of pattern row `r` of a sprite with tile byte `tile` (R249). -/
def spriteRowAddr (p : Ppu) (tile : Byte) (r : Nat) : Nat :=
  if p.ctrl.getLsbD 5 then
    (if tile.getLsbD 0 then 0x1000 else 0x0000) + ((tile &&& 0xFE).toNat + r / 8) * 16 + r % 8
  else (if p.ctrl.getLsbD 3 then 0x1000 else 0x0000) + tile.toNat * 16 + r % 8

/-- What sprite `i` draws at a pixel (R248 to R250): none where it does not reach or is transparent. -/
def spritePixel (p : Ppu) (i px py : Nat) : Option (BitVec 6) :=
  let sy := (p.oam.read (4 * i)).toNat
  let tile := p.oam.read (4 * i + 1)
  let at' := p.oam.read (4 * i + 2)
  let sx := (p.oam.read (4 * i + 3)).toNat
  let h := spriteHeight p
  if sy + 1 ≤ py ∧ py < sy + 1 + h ∧ sx ≤ px ∧ px < sx + 8 then
    let row := py - (sy + 1)
    let col := px - sx
    let r := if at'.getLsbD 7 then h - 1 - row else row
    let b := if at'.getLsbD 6 then col else 7 - col
    let addr := spriteRowAddr p tile r
    let ci := colourIndex (vramRead p addr) (vramRead p (addr + 8)) b
    if ci = 0 then none else some (p.pal.read (16 + at'.toNat % 4 * 4 + ci))
  else none

/-- One pixel of the composite (R240, R247): the background, then the sprites from 63 down to 0 over it (log 9). -/
def framePixel (p : Ppu) (px py : Nat) : BitVec 6 :=
  (List.range 64).foldr (fun i under => (spritePixel p i px py).getD under) (backgroundPixel p px py)

/-- The frame buffer's cell of a pixel. -/
def pixelCell (px py : Nat) : Nat := py * 256 + px

/-- Every one of the 256 by 240 pixels (R240). -/
def composite (p : Ppu) : Memory 6 := Memory.tabulate 61440 fun k => framePixel p (k % 256) (k / 256)

/-- RenderFrame (R240): the frame buffer, the vblank bit (R251), and the NMI if ctrl bit 7 enables it (R252). -/
def renderFrame (s : State) : State :=
  { s with
    ppu := { s.ppu with fb := composite s.ppu, status := s.ppu.status ||| 0x80 }
    cpu.nmiPending := s.cpu.nmiPending || s.ppu.ctrl.getLsbD 7 }

end Sys2Proof.Machine
end

