-- ==== Sys2Proof/Machine/Schedule.lean ====
section
/-! DEFINITION. The three transitions of the machine (00_scope.md R11) and the frame schedule that sequences them
(70_reset_and_hazards.md R305, R307, R308). -/

namespace Sys2Proof.Machine

/-- The test at the head of the schedule's loop (R307): CPU steps while the budget lasts, then the render. -/
def budgetPhase (prm : Params) (acc : Nat) : Phase := if acc < prm.frameCycles then .cpu else .render

/-- The head of Frame(f) (R307): the snapshot is delivered (R308), the shift register and strobe untouched, and the count
starts at 0. -/
def deliverInput (s : State) : State :=
  { s with
    bus.ctlSnapshot := Config.input s.drv.frame
    drv.acc := 0
    drv.phase := budgetPhase s.drv.params 0 }

/-- `acc <- acc + Step()` (R307), for a step that reported `n`, and the loop's next test. -/
def account (n : Nat) (s : State) : State :=
  { s with
    drv.acc := s.drv.acc + n
    drv.phase := budgetPhase s.drv.params (s.drv.acc + n) }

/-- One CPU step (R90): the NMI service if one is pending, else one instruction; and its cycles, counted. -/
def cpuStep (s : State) : Out :=
  if s.cpu.nmiPending then .next (account nmiCycles (nmiService s))
  else
    let f := fetchInstr s
    match exec f.instr f.state with
    | .next t => .next (account (cyclesOf s.drv.params f.op) t)
    | .fault r => .fault r
    | .refused r => .refused r

/-- The end of Frame(f) (R307): the render, and the next frame. The hand-off of fb changes nothing (R309). -/
def finishFrame (s : State) : State :=
  let t := renderFrame s
  { t with drv.frame := t.drv.frame + 1, drv.phase := .input }

end Sys2Proof.Machine
end

