-- ==== Sys2Proof/Machine/Step.lean ====
section
/-! DEFINITION. One step of the machine: the transition the frame schedule performs next (00_scope.md R11,
70_reset_and_hazards.md R307). -/

namespace Sys2Proof.Machine

/-- One transition of R11: an input delivery, a CPU step or a frame render. -/
def step (s : State) : Host.Outcome State Fault Refusal :=
  match s.drv.phase with
  | .input => .next (deliverInput s)
  | .cpu => cpuStep s
  | .render => .next (finishFrame s)

/-- The state whose next step fetches and runs the instruction of `nbits` bits `w`, numbered as decodeTableWord numbers them
(log 10). -/
def State.withFetchWord (s : State) (nbits w : Nat) : State := placeInstr (w % 2 ^ nbits) s

end Sys2Proof.Machine
end

