-- ==== Sys2Proof/Machine/Boot.lean ====
section
/-! DEFINITION. What the host does to the machine outside its steps: the two resets (70_reset_and_hazards.md R300 to R302), the
boot sequence (R303, R305) and the ROM container it loads from (R306). They are functions, not steps (log 12). -/

namespace Sys2Proof.Machine

/-- CpuReset (R300): the vector is read through the bus; RAM, the controller and the picture unit are not touched. -/
def cpuReset (s : State) : State :=
  let v := read16 0xFFFC s
  { v.2 with cpu := { a := 0, x := 0, y := 0, sp := 0xFD, p := 0x24, pc := v.1, nmiPending := false } }

/-- PpuReset (R302): everything but the pattern memory. -/
def ppuReset (s : State) : State := { s with ppu := Ppu.cleared s.ppu.chr }

/-- Boot(PRG, CHR_INIT, INIT_RAM) up to its loop (R305), the parameters of R6 given; a machine that has been running before
does not matter, since every field is set. -/
def boot (prg chr ram : List Byte) (prm : Params) : State :=
  let loaded : State :=
    { State.reset with
      bus := { ram := Memory.ofImage 0x0800 ram, prg := Memory.ofImage 0x8000 prg,
               ctlStrobe := false, ctlShift := 0, ctlSnapshot := 0 }
      ppu := Ppu.cleared (Memory.ofImage 0x2000 chr)
      drv := { phase := .input, frame := 0, acc := 0, params := prm } }
  cpuReset (ppuReset loaded)

/-- Why a ROM container does not load (R306). -/
inductive LoadError where
  | badMagic             -- bytes 0 to 3
  | unsupportedSize      -- byte 4 is not 2, or byte 5 not 1
  | unsupportedMapper    -- the mapper number is not 0
  | shortRead            -- the header, PRG or CHR bytes are not all there
  deriving DecidableEq, Repr

/-- What loading a ROM container gives the core. -/
inductive Loaded where
  | images (prg chr : List Byte)
  | failed (why : LoadError)
  deriving DecidableEq, Repr

/-- The ROM container of R306, checked in the order the rule names its failures (log 11). -/
def loadRom (file : List Byte) : Loaded :=
  if file.length < 16 then .failed .shortRead
  else if file.take 4 ≠ [0x4E, 0x45, 0x53, 0x1A] then .failed .badMagic
  else if file.getD 4 0 ≠ 2 ∨ file.getD 5 0 ≠ 1 then .failed .unsupportedSize
  else if file.getD 6 0 >>> 4 ≠ 0 ∨ file.getD 7 0 >>> 4 ≠ 0 then .failed .unsupportedMapper
  else
    let body := file.drop (if (file.getD 6 0).getLsbD 2 then 528 else 16)
    if body.length < 0x8000 + 0x2000 then .failed .shortRead
    else .images (body.take 0x8000) ((body.drop 0x8000).take 0x2000)

end Sys2Proof.Machine
end

