-- ==== Sys2Proof/Safety.lean ====
section
/-! DEFINITION. The terms claims about a run use: the invariants of the machine, the schedule's invariant, and what is
reachable from boot. -/

namespace Sys2Proof

open Machine

/-- The picture unit's memories are in their canonical form, inside their sizes (10_state.md R31, R35). -/
structure PpuMemoriesOk (p : Ppu) : Prop where
  oam : p.oam.wf 0x100
  nt : p.nt.wf 0x0800
  pal : p.pal.wf 0x20
  chr : p.chr.wf 0x2000
  fb : p.fb.wf 61440

/-- Every memory is in its canonical form, inside its size (10_state.md R20, R31 to R35). -/
structure MemoriesOk (s : State) : Prop where
  ram : s.bus.ram.wf 0x0800
  prg : s.bus.prg.wf 0x8000
  ppu : PpuMemoriesOk s.ppu

/-- The Unused flag is 1 (10_state.md R26). -/
def UnusedSet (s : State) : Prop := getFlag .U s.cpu.p = true

/-- Bits 6:0 of the status register are 0 (10_state.md R30). -/
def StatusLowClear (s : State) : Prop := s.ppu.status &&& 0x7F = 0

/-- The invariant of the machine. -/
structure MachineInv (s : State) : Prop where
  memories : MemoriesOk s
  unused : UnusedSet s
  statusLow : StatusLowClear s

/-- What the loop test of R307 has established: a CPU step comes next only inside the budget, a render only when it is
spent. -/
def ScheduleInv (s : State) : Prop :=
  (s.drv.phase = .cpu → s.drv.acc < s.drv.params.frameCycles) ∧
  (s.drv.phase = .render → s.drv.params.frameCycles ≤ s.drv.acc)

/-- What any CYC must satisfy (R316): every entry is at least 1. -/
def CyclesPositive (prm : Params) : Prop := ∀ op : Byte, 1 ≤ prm.cyc[op.toNat]

/-- A state some number of steps after the boot of some images and parameters (R305). -/
def Reachable (s : State) : Prop :=
  ∃ (prg chr ram : List Byte) (prm : Params) (k : Nat), Host.Core.run core k (boot prg chr ram prm) = .next s

/-- A state from which the machine goes on. -/
def Safe (s : State) : Prop := ∃ t, step s = .next t

end Sys2Proof
end

