-- ==== Sys2Proof/Certificates/Slice0/Obligations.lean ====
section
/-! DEFINITION. The statements about this model, for the provers. An instruction's meaning runs after its fetch: in a
statement about `exec i s`, `s.cpu.pc` is already `pc0 + length` (10_state.md R23). -/

namespace Sys2Proof.Claim

open Machine

/-! ## Terms the statements use -/

/-- One row of the opcode map: the byte `op` begins an instruction of `len` bytes that reports `cyc` cycles by default and
is `build` of the bytes after it. -/
def Encodes (op : Byte) (len cyc : Nat) (build : Byte → Byte → Instr) : Prop :=
  opLength op = len ∧ cyclesOf defaultParams op = cyc ∧ ∀ l h, decodeOp op l h = build l h

/-- Every row of an instruction with the eight operand forms of ADC, in the columns' order of R94. -/
def EncodesAlu (imm zp zpx abs abx aby izx izy : Byte) (mk : Src → Instr) : Prop :=
  Encodes imm 2 2 (fun l _ => mk (.imm l)) ∧ Encodes zp 2 3 (fun l _ => mk (.mem (.zp l))) ∧
  Encodes zpx 2 4 (fun l _ => mk (.mem (.zpx l))) ∧ Encodes abs 3 4 (fun l h => mk (.mem (.abs (wordOf l h)))) ∧
  Encodes abx 3 4 (fun l h => mk (.mem (.abx (wordOf l h)))) ∧
  Encodes aby 3 4 (fun l h => mk (.mem (.aby (wordOf l h)))) ∧
  Encodes izx 2 6 (fun l _ => mk (.mem (.izx l))) ∧ Encodes izy 2 5 (fun l _ => mk (.mem (.izy l)))

/-- Every row of CPX and of CPY. -/
def EncodesIndexCompare (imm zp abs : Byte) (mk : Src → Instr) : Prop :=
  Encodes imm 2 2 (fun l _ => mk (.imm l)) ∧ Encodes zp 2 3 (fun l _ => mk (.mem (.zp l))) ∧
  Encodes abs 3 4 (fun l h => mk (.mem (.abs (wordOf l h))))

/-- The four memory rows of a read-modify-write instruction. -/
def EncodesModify (zp zpx abs abx : Byte) (mk : Mem → Instr) : Prop :=
  Encodes zp 2 5 (fun l _ => mk (.zp l)) ∧ Encodes zpx 2 6 (fun l _ => mk (.zpx l)) ∧
  Encodes abs 3 6 (fun l h => mk (.abs (wordOf l h))) ∧ Encodes abx 3 7 (fun l h => mk (.abx (wordOf l h)))

/-- Z and N of the status byte `q` are those of the result `v` (R25). -/
def ZNOf (v q : Byte) : Prop :=
  (getFlag .Z q = true ↔ v.toNat = 0) ∧ (getFlag .N q = true ↔ 128 ≤ v.toNat)

/-- Every flag outside `fs` is the same in `q` as in `p`. -/
def KeepsFlagsBut (fs : List Flag) (p q : Byte) : Prop := ∀ f, f ∉ fs → getFlag f q = getFlag f p

/-- The carry as a number. -/
def carry (p : Byte) : Nat := (getFlag .C p).toNat

/-- The RAM cell the stack pointer value `sp` names (R22). -/
def stackCell (sp : Byte) : Nat := 0x0100 + sp.toNat

/-- RAM after the bytes of the word `w` are pushed from `sp` down, the high byte first. -/
def ramWithWord (ram : Memory 8) (sp : Byte) (w : Word) : Memory 8 :=
  (ram.write (stackCell sp) (highByte w)).write (stackCell (sp - 1)) (lowByte w)

/-- The word two pulls from `sp` up give, the low byte first. -/
def stackWord (ram : Memory 8) (sp : Byte) : Nat :=
  (ram.read (stackCell (sp + 1))).toNat + 256 * (ram.read (stackCell (sp + 2))).toNat

/-- The little-endian word of the ROM bytes `i` and `i + 1` (R56). -/
def romWord (s : State) (i : Nat) : Word := wordOf (s.bus.prg.read i) (s.bus.prg.read (i + 1))

/-- Two addresses of one RAM cell: equal after the mirrors are reduced (R53). -/
def SameRamCell (a b : Word) : Prop := a.toNat ≤ 0x1FFF ∧ b.toNat ≤ 0x1FFF ∧ a.toNat % 0x0800 = b.toNat % 0x0800

/-- A bus address of window register `n` (R54). -/
def IsWindow (n : Nat) (a : Word) : Prop := 0x2000 ≤ a.toNat ∧ a.toNat ≤ 0x3FFF ∧ a.toNat % 8 = n

/-- The state a read-modify-write of the address `ea` leaves: what the read leaves, with P written, then the write of
`r`. -/
def modified (ea : Word) (r q : Byte) (s : State) : State :=
  memWrite ea r { (memRead ea s).2 with cpu := { s.cpu with p := q } }

/-- One of the eight branches: taken, to the address after the operand byte plus the signed offset, exactly when the flag
`f` holds `b`; nothing but PC changes. -/
def BranchRule (op : Byte) (mk : Byte → Instr) (f : Flag) (b : Bool) : Prop :=
  Encodes op 2 2 (fun l _ => mk l) ∧
  ∀ off s, ∃ target : Word,
    (target.toNat : Int) = ((s.cpu.pc.toNat : Int) + off.toInt) % 65536 ∧
    exec (mk off) s = .next (if getFlag f s.cpu.p = b then { s with cpu := { s.cpu with pc := target } } else s)

/-- A flag instruction: the flag `f` becomes `b`, no other flag and nothing else changes. -/
def FlagRule (op : Byte) (i : Instr) (f : Flag) (b : Bool) : Prop :=
  Encodes op 1 2 (fun _ _ => i) ∧
  ∀ s, ∃ q, getFlag f q = b ∧ KeepsFlagsBut [f] s.cpu.p q ∧ exec i s = .next { s with cpu := { s.cpu with p := q } }

/-- The compare law for the register value `r`: only P changes. -/
def CompareRule (i : Instr) (o : Src) (r : Byte) (s : State) : Prop :=
  ∃ d q, d.toNat = (r.toNat + 256 - (readSrc o s).1.toNat) % 256 ∧ ZNOf d q ∧
    (getFlag .C q = true ↔ (readSrc o s).1.toNat ≤ r.toNat) ∧ KeepsFlagsBut [.C, .Z, .N] s.cpu.p q ∧
    exec i s = .next { (readSrc o s).2 with cpu := { s.cpu with p := q } }

/-- A shift or rotate whose result and carry out are related to the operand and the old carry by `rule`, in its accumulator
form and its memory forms. -/
def ShiftRule (mk : Rmw → Instr) (rule : (m c r c' : Nat) → Prop) : Prop :=
  (∀ s, ∃ r q, rule s.cpu.a.toNat (carry s.cpu.p) r.toNat (carry q) ∧ ZNOf r q ∧
    KeepsFlagsBut [.C, .Z, .N] s.cpu.p q ∧ exec (mk .acc) s = .next { s with cpu := { s.cpu with a := r, p := q } }) ∧
  (∀ m s, ∃ r q, rule (memRead (effAddr m s).1 s).1.toNat (carry s.cpu.p) r.toNat (carry q) ∧ ZNOf r q ∧
    KeepsFlagsBut [.C, .Z, .N] s.cpu.p q ∧ exec (mk (.mem m)) s = .next (modified (effAddr m s).1 r q s))

/-- Every row of a shift or rotate. -/
def EncodesShift (acc zp zpx abs abx : Byte) (mk : Rmw → Instr) : Prop :=
  Encodes acc 1 2 (fun _ _ => mk .acc) ∧ EncodesModify zp zpx abs abx (fun m => mk (.mem m))

/-! ## What each instruction may write (the tables of 10_state.md R21, R22, R23, R26) -/

/-- A register, or a flag of P. -/
inductive Dest where
  | a | x | y | s | pc
  | flag (f : Flag)
  deriving DecidableEq, Repr

/-- What an instruction may write and touch beside what its fetch does. -/
structure Footprint where
  /-- The registers and flags it may write. -/
  writes : List Dest
  /-- The memory operand it stores to. -/
  stores : Option Mem := none
  /-- How many bytes it pushes. -/
  pushes : Nat := 0
  /-- Whether it reads a data cell, or a jump's pointer, on the bus. -/
  reads : Bool := false
  deriving DecidableEq, Repr

/-- The flags of R25. -/
def znFlags : List Dest := [.flag .Z, .flag .N]

def allFlags : List Dest :=
  [.flag .C, .flag .Z, .flag .I, .flag .D, .flag .B, .flag .U, .flag .V, .flag .N]

def readsCell : Src → Bool
  | .imm _ => false
  | .mem _ => true

def readsPointer : Jump → Bool
  | .abs _ => false
  | .ind _ => true

def footprint : Instr → Footprint
  | .lda o | .and o | .ora o | .eor o => { writes := .a :: znFlags, reads := readsCell o }
  | .ldx o => { writes := .x :: znFlags, reads := readsCell o }
  | .ldy o => { writes := .y :: znFlags, reads := readsCell o }
  | .adc o | .sbc o => { writes := .a :: .flag .C :: .flag .V :: znFlags, reads := readsCell o }
  | .cmp o | .cpx o | .cpy o => { writes := .flag .C :: znFlags, reads := readsCell o }
  | .bit _ => { writes := .flag .V :: znFlags, reads := true }
  | .sta m | .stx m | .sty m => { writes := [], stores := some m }
  | .inc m | .dec m => { writes := znFlags, stores := some m, reads := true }
  | .asl (.mem m) | .lsr (.mem m) | .rol (.mem m) | .ror (.mem m) =>
    { writes := .flag .C :: znFlags, stores := some m, reads := true }
  | .asl .acc | .lsr .acc | .rol .acc | .ror .acc => { writes := .a :: .flag .C :: znFlags }
  | .txa | .tya => { writes := .a :: znFlags }
  | .tax | .tsx | .inx | .dex => { writes := .x :: znFlags }
  | .tay | .iny | .dey => { writes := .y :: znFlags }
  | .txs => { writes := [.s] }
  | .jmp j => { writes := [.pc], reads := readsPointer j }
  | .bpl _ | .bmi _ | .bvc _ | .bvs _ | .bcc _ | .bcs _ | .bne _ | .beq _ => { writes := [.pc] }
  | .jsr _ => { writes := [.s, .pc], pushes := 2 }
  | .rts => { writes := [.s, .pc] }
  | .pha | .php => { writes := [.s], pushes := 1 }
  | .pla => { writes := .a :: .s :: znFlags }
  | .plp => { writes := .s :: allFlags }
  | .clc | .sec => { writes := [.flag .C] }
  | .cli | .sei => { writes := [.flag .I] }
  | .clv => { writes := [.flag .V] }
  | .cld | .sed => { writes := [.flag .D] }
  | .nop | .undef _ => { writes := [] }
  | .brk => { writes := [.s, .pc, .flag .I], pushes := 3 }
  | .rti => { writes := .s :: .pc :: allFlags }

/-! ## The painter's loops (46_ppu_rasterizer.md R240 to R250), as the rules write them -/

/-- A screen under the painter's loops: `fb[py][px]`. -/
abbrev Screen := Nat → Nat → BitVec 6

/-- One pixel overwritten. -/
def Screen.put (fb : Screen) (py px : Nat) (c : BitVec 6) : Screen :=
  fun y x => if y = py ∧ x = px then c else fb y x

/-- Bit `b` of a byte, as a number. -/
def bit (v : Byte) (b : Nat) : Nat := (v.toNat >>> b) % 2

/-- The scroll origin (R242). -/
def scrollOrigin (p : Ppu) : Nat × Nat :=
  let t := p.t.toNat
  ((((t >>> 10) % 2) <<< 8) + ((t % 32) <<< 3) + p.x.toNat, (((t >>> 5) % 32) <<< 3) + ((t >>> 12) % 8))

/-- The background pixel (R243 to R246). -/
def background (p : Ppu) : Screen := fun py px =>
  let wx := (px + (scrollOrigin p).1) % 512
  let wy := (py + (scrollOrigin p).2) % 240
  let tx := wx >>> 3
  let ty := wy >>> 3
  let nb := 0x2000 + (tx >>> 5) * 0x400
  let cx := tx % 32
  let tile := (vramRead p (nb + ty * 32 + cx)).toNat
  let pt := if bit p.ctrl 4 = 1 then 0x1000 else 0x0000
  let lo := vramRead p (pt + tile * 16 + wy % 8)
  let hi := vramRead p (pt + tile * 16 + wy % 8 + 8)
  let ci := (bit hi (7 - wx % 8) <<< 1) + bit lo (7 - wx % 8)
  let sh := ((ty &&& 2) <<< 1) + (cx &&& 2)
  let sel := ((vramRead p (nb + 0x3C0 + (ty >>> 2) * 8 + (cx >>> 2))).toNat >>> sh) % 4
  if ci = 0 then p.pal.read 0 else p.pal.read (sel * 4 + ci)

/-- One column of one row of sprite `i` (R248 to R250). -/
def drawColumn (p : Ppu) (i row : Nat) (fb : Screen) (col : Nat) : Screen :=
  let tile := (p.oam.read (4 * i + 1)).toNat
  let attr := p.oam.read (4 * i + 2)
  let h := if bit p.ctrl 5 = 1 then 16 else 8
  let py := (p.oam.read (4 * i)).toNat + 1 + row
  let px := (p.oam.read (4 * i + 3)).toNat + col
  if 240 ≤ py ∨ 256 ≤ px then fb
  else
    let r := if bit attr 7 = 1 then h - 1 - row else row
    let b := if bit attr 6 = 1 then col else 7 - col
    let pt := if (if h = 8 then bit p.ctrl 3 else tile % 2) = 1 then 0x1000 else 0x0000
    let tn := if h = 8 then tile else tile / 2 * 2 + (r >>> 3)
    let lo := vramRead p (pt + tn * 16 + r % 8)
    let hi := vramRead p (pt + tn * 16 + r % 8 + 8)
    let ci := (bit hi b <<< 1) + bit lo b
    if ci = 0 then fb else fb.put py px (p.pal.read (16 + attr.toNat % 4 * 4 + ci))

/-- DrawSprite (R247 to R250). -/
def drawSprite (p : Ppu) (fb : Screen) (i : Nat) : Screen :=
  let h := if bit p.ctrl 5 = 1 then 16 else 8
  (List.range h).foldl (fun fb row => (List.range 8).foldl (drawColumn p i row) fb) fb

/-- The whole composite: the background, then the sprites from 63 down to 0 (R240, R247). -/
def painted (p : Ppu) : Screen := (List.range 64).reverse.foldl (drawSprite p) (background p)

/-- A state with the mask register replaced. -/
def withMask (m : Byte) (s : State) : State := { s with ppu := { s.ppu with mask := m } }

/-- The state after `k` reads of the controller port. -/
def afterPortReads : Nat → State → State
  | 0, s => s
  | k + 1, s => afterPortReads k (memRead 0x4016 s).2

end Sys2Proof.Claim

open Sys2Proof Sys2Proof.Machine Sys2Proof.Claim

/-! ## Encoding -/

/-- The bytes of a well-formed instruction are as many as its length and decode to it, whatever bytes follow (30_encoding.md
R91, R92, R94). -/
def Obligations.DecodeOfEncode : Prop :=
  ∀ i : Instr, i.wellFormed = true →
    ∃ bs, encode i = some bs ∧ bs.length = i.length ∧ ∀ rest, decode (bs ++ rest) = .ok i rest

/-- Whatever decodes is well formed and its bytes are the encoding of it, so no two encodings overlap and no byte is
dropped; any three bytes begin with an instruction (30_encoding.md R91, R94, R109, R110). -/
def Obligations.EncodeOfDecode : Prop :=
  (∀ bytes i rest, decode bytes = .ok i rest →
    i.wellFormed = true ∧ ∃ bs, encode i = some bs ∧ bytes = bs ++ rest) ∧
  ∀ a b c rest, ∃ i rest', decode (a :: b :: c :: rest) = .ok i rest'

/-- Words written out from the opcode map, at least one of each family, decode as the map and the worked examples of the
spec say. -/
def Obligations.DocumentedWordsDecode : Prop :=
  decode [0xA9, 0x80] = .ok (.lda (.imm 0x80)) [] ∧
  decode [0x9D, 0x00, 0x02] = .ok (.sta (.abx 0x0200)) [] ∧
  decode [0xB6, 0x10] = .ok (.ldx (.mem (.zpy 0x10))) [] ∧
  decode [0xBA] = .ok .tsx [] ∧
  decode [0x69, 0x50] = .ok (.adc (.imm 0x50)) [] ∧
  decode [0x24, 0x10] = .ok (.bit (.zp 0x10)) [] ∧
  decode [0xDE, 0x34, 0x12] = .ok (.dec (.abx 0x1234)) [] ∧
  decode [0x0A] = .ok (.asl .acc) [] ∧
  decode [0x66, 0x10] = .ok (.ror (.mem (.zp 0x10))) [] ∧
  decode [0x6C, 0xFF, 0x02] = .ok (.jmp (.ind 0x02FF)) [] ∧
  decode [0x20, 0x00, 0x90] = .ok (.jsr 0x9000) [] ∧
  decode [0xF0, 0xFE] = .ok (.beq 0xFE) [] ∧
  decode [0x91, 0x20] = .ok (.sta (.izy 0x20)) [] ∧
  decode [0x08] = .ok .php [] ∧ decode [0xB8] = .ok .clv [] ∧
  decode [0x00, 0xEA] = .ok .brk [0xEA] ∧ decode [0xFF, 0x40] = .ok (.undef 0xFF) [0x40]

/-- The 105 undefined bytes, and no others, decode to one-byte no-ops that report 2 cycles whatever the cycle table holds
(30_encoding.md R109, R93; 44_stack_flags_system.md R204, whose one-byte length is decision D3). -/
def Obligations.UndefinedOpcodesAreNops : Prop :=
  undefinedOpcodes.length = 105 ∧ undefinedOpcodes.Nodup ∧
  (∀ op ∈ undefinedOpcodes, opLength op = 1 ∧ (∀ l h, decodeOp op l h = .undef op) ∧ ∀ prm, cyclesOf prm op = 2) ∧
  (∀ op, op ∉ undefinedOpcodes → ∀ l h x, decodeOp op l h ≠ .undef x) ∧
  ∀ op s, exec (.undef op) s = .next s

/-! ## The step -/

/-- A CPU step with no NMI pending whose bytes at PC, in RAM or ROM cells, are those of a well-formed instruction is that
instruction's meaning, PC moved past its bytes modulo 2^16, and its cycles counted (30_encoding.md R90; 10_state.md R23;
70_reset_and_hazards.md R307; that a step is one transition and a meaning runs after its fetch is log 6 and 7). -/
def Obligations.StepRunsTheDecodedInstruction : Prop :=
  ∀ (s t : State) (i : Instr) (bs : List Byte),
    s.drv.phase = .cpu → s.cpu.nmiPending = false → i.wellFormed = true → encode i = some bs →
    (∀ k < bs.length, isCell (s.cpu.pc + BitVec.ofNat 16 k) = true ∧
      (memRead (s.cpu.pc + BitVec.ofNat 16 k) s).1 = bs.getD k 0) →
    exec i { s with cpu := { s.cpu with pc := s.cpu.pc + BitVec.ofNat 16 i.length } } = .next t →
    step s = .next { t with drv :=
      { t.drv with
        acc := t.drv.acc + cyclesOf s.drv.params (bs.getD 0 0)
        phase := if t.drv.acc + cyclesOf s.drv.params (bs.getD 0 0) < t.drv.params.frameCycles then .cpu else .render } }

/-- Wherever PC points, the opcode byte is read through the bus first, then the operand bytes its length calls for, in
ascending order, each with the side effects of its address; no further byte is read (30_encoding.md R90, R113;
20_memory.md R71). -/
def Obligations.FetchReadsBytesInOrder : Prop :=
  ∀ s : State,
    let o := memRead s.cpu.pc s
    let l := memRead (s.cpu.pc + 1) o.2
    let h := memRead (s.cpu.pc + 2) l.2
    let at' (k : Word) (u : State) : State := { u with cpu := { s.cpu with pc := s.cpu.pc + k } }
    (opLength o.1 = 1 → fetchInstr s = ⟨o.1, decodeOp o.1 0 0, at' 1 o.2⟩) ∧
    (opLength o.1 = 2 → fetchInstr s = ⟨o.1, decodeOp o.1 l.1 0, at' 2 l.2⟩) ∧
    (opLength o.1 = 3 → fetchInstr s = ⟨o.1, decodeOp o.1 l.1 h.1, at' 3 h.2⟩) ∧
    (opLength o.1 = 1 ∨ opLength o.1 = 2 ∨ opLength o.1 = 3) ∧
    (s.drv.phase = .cpu → s.cpu.nmiPending = false → ∀ t, exec (fetchInstr s).instr (fetchInstr s).state = .next t →
      step s = .next (account (cyclesOf s.drv.params o.1) t))

/-- A CPU step with an NMI pending is the service and nothing else: no opcode is read, PC then P as it stands are pushed, I
is set, PC comes from the ROM word at 0xFFFA, the pending bit is cleared, and 7 cycles are counted (60_exceptions.md R276,
R274; 30_encoding.md R90; that the step ends there is decision D42). -/
def Obligations.NmiServiceStep : Prop :=
  ∀ s : State, s.drv.phase = .cpu → s.cpu.nmiPending = true →
    ∃ q, getFlag .I q = true ∧ KeepsFlagsBut [.I] s.cpu.p q ∧
      step s = .next
        { s with
          bus := { s.bus with
            ram := (ramWithWord s.bus.ram s.cpu.sp s.cpu.pc).write (stackCell (s.cpu.sp - 2)) s.cpu.p }
          cpu := { s.cpu with sp := s.cpu.sp - 3, p := q, pc := romWord s 0x7FFA, nmiPending := false }
          drv := { s.drv with
            acc := s.drv.acc + 7
            phase := if s.drv.acc + 7 < s.drv.params.frameCycles then .cpu else .render } }

/-- Every instruction, in every form and state, and every step from every state answers a next state: no fault, no refusal,
no stuck state (00_scope.md R11; 60_exceptions.md R270). -/
def Obligations.EveryStepGoesOn : Prop :=
  (∀ i s, ∃ t, exec i s = .next t) ∧ ∀ s, Safe s

/-- Every step keeps the invariant of the machine: the memories stay canonical and inside their sizes, the Unused flag
stays 1, and bits 6:0 of the picture unit's status stay 0 (10_state.md R20, R26, R30, R31 to R35). -/
def Obligations.StepKeepsMachineInvariant : Prop :=
  ∀ s t : State, MachineInv s → step s = .next t → MachineInv t

/-- The state after reset, and the state after the boot of any images and parameters, meet the invariants every step keeps
(10_state.md R38; 70_reset_and_hazards.md R303, R305; the images and parameters of State.reset are log 1, 2, 4, 5). -/
def Obligations.BootMeetsInvariants : Prop :=
  (MachineInv State.reset ∧ ScheduleInv State.reset) ∧
  ∀ prg chr ram prm, MachineInv (boot prg chr ram prm) ∧ ScheduleInv (boot prg chr ram prm)

/-! ## The frame schedule -/

/-- From a state that meets the schedule's invariant, a step gives one that meets it, and a CPU step comes only inside the
budget (70_reset_and_hazards.md R307; the loop form is decision D16). -/
def Obligations.StepKeepsScheduleInvariant : Prop :=
  ∀ s t : State, ScheduleInv s → step s = .next t →
    ScheduleInv t ∧ (s.drv.phase = .cpu → s.drv.acc < s.drv.params.frameCycles) ∧
    (t.drv.phase = .render → s.drv.phase ≠ .render)

/-- The head of a frame delivers the input snapshot and starts the count, changing neither the shift register nor the
strobe; a CPU step adds 7 for an NMI service, 2 for an undefined opcode and the entry of the machine's own cycle table for
a documented one, and the loop's test chooses what comes next (70_reset_and_hazards.md R307, R308; 30_encoding.md R93; the
loop form is decision D16, the bare table entry decision D4). The snapshot is a free value (log 3). -/
def Obligations.FrameScheduleCounts : Prop :=
  (∀ s : State, s.drv.phase = .input →
    step s = .next
      { s with
        bus := { s.bus with ctlSnapshot := Config.input s.drv.frame }
        drv := { s.drv with acc := 0, phase := if 0 < s.drv.params.frameCycles then .cpu else .render } }) ∧
  (∀ s t : State, s.drv.phase = .cpu → step s = .next t →
    let op := (memRead s.cpu.pc s).1
    t.drv.frame = s.drv.frame ∧ t.bus.ctlSnapshot = s.bus.ctlSnapshot ∧
    t.drv.acc = s.drv.acc +
      (if s.cpu.nmiPending = true then 7
        else if op ∈ undefinedOpcodes then 2 else s.drv.params.cyc[op.toNat]) ∧
    t.drv.phase = if t.drv.acc < s.drv.params.frameCycles then .cpu else .render)

/-- A render writes the frame buffer, sets the vblank bit, sets the NMI-pending bit exactly when it was set or control bit 7
is 1, and begins the next frame; nothing else changes (46_ppu_rasterizer.md R240, R251, R252; 70_reset_and_hazards.md
R307; the control bit's number is decision D18). -/
def Obligations.RenderSetsVblankAndNmi : Prop :=
  ∀ s : State, s.drv.phase = .render →
    ∃ fb : Memory 6, fb.wf 61440 ∧
      step s = .next
        { s with
          ppu := { s.ppu with fb := fb, status := s.ppu.status ||| 0x80 }
          cpu := { s.cpu with nmiPending := s.cpu.nmiPending || s.ppu.ctrl.getLsbD 7 }
          drv := { s.drv with frame := s.drv.frame + 1, phase := .input } }

/-- After a render with the NMI enabled and a budget above 0, the input delivery keeps the CPU as it is and the first CPU
step of the next frame is the NMI service, which reports 7 cycles (70_reset_and_hazards.md R307; 46_ppu_rasterizer.md
R252). -/
def Obligations.RenderedNmiIsServicedFirst : Prop :=
  ∀ s : State, s.drv.phase = .render → s.ppu.ctrl.getLsbD 7 = true → 0 < s.drv.params.frameCycles →
    ∃ u v w : State,
      step s = .next u ∧ u.drv.phase = .input ∧ step u = .next v ∧ v.drv.phase = .cpu ∧ v.cpu = u.cpu ∧
      step v = .next w ∧ w.drv.acc = 7 ∧ w.cpu.nmiPending = false ∧ w.cpu.sp = s.cpu.sp - 3 ∧
      w.cpu.pc = romWord s 0x7FFA ∧
      w.bus.ram = (ramWithWord s.bus.ram s.cpu.sp s.cpu.pc).write (stackCell (s.cpu.sp - 2)) s.cpu.p

/-- When every opcode reports at least one cycle, the CPU steps of a frame end, after at most as many steps as cycles are
left, and the render comes next (70_reset_and_hazards.md R307, R316). -/
def Obligations.FrameBudgetEnds : Prop :=
  ∀ s : State, s.drv.phase = .cpu → s.drv.acc < s.drv.params.frameCycles → CyclesPositive s.drv.params →
    ∃ k t, k ≤ s.drv.params.frameCycles - s.drv.acc ∧ Host.Core.run core k s = .next t ∧
      t.drv.phase = .render ∧ t.drv.frame = s.drv.frame ∧ t.drv.params.frameCycles ≤ t.drv.acc

/-- With a cycle table whose entries lie in 2 to 7, a frame runs at least ceil(FRAME_CYCLES / 7) and at most
ceil(FRAME_CYCLES / 2) CPU steps, one after another, and then renders (70_reset_and_hazards.md R307; decision D16). -/
def Obligations.StepsPerFrameAreBounded : Prop :=
  ∀ s : State, s.drv.phase = .input → (∀ op : Byte, 2 ≤ s.drv.params.cyc[op.toNat] ∧ s.drv.params.cyc[op.toNat] ≤ 7) →
    ∃ k t, Host.Core.run core (k + 1) s = .next t ∧ t.drv.phase = .render ∧ t.drv.frame = s.drv.frame ∧
      (∀ j < k, ∃ u : State, Host.Core.run core (j + 1) s = .next u ∧ u.drv.phase = .cpu) ∧
      (s.drv.params.frameCycles + 6) / 7 ≤ k ∧ k ≤ (s.drv.params.frameCycles + 1) / 2

/-- No step changes the program ROM or the machine's parameters (00_scope.md R6; 10_state.md R20, R33; 20_memory.md
R52). -/
def Obligations.ProgramAndParametersAreFixed : Prop :=
  ∀ s t : State, step s = .next t → t.bus.prg = s.bus.prg ∧ t.drv.params = s.drv.params

/-- Outside a render no step changes the frame buffer or sets the vblank or NMI-pending bit, and no CPU step leaves an NMI
pending (10_state.md R29, R30, R35; 60_exceptions.md R272, R274). -/
def Obligations.OnlyTheRenderRaises : Prop :=
  ∀ s t : State, s.drv.phase ≠ .render → step s = .next t →
    t.ppu.fb = s.ppu.fb ∧ (t.ppu.status = s.ppu.status ∨ t.ppu.status = s.ppu.status &&& 0x7F) ∧
    (t.cpu.nmiPending = true → s.cpu.nmiPending = true) ∧ (s.drv.phase = .cpu → t.cpu.nmiPending = false)

/-- Nothing the machine does depends on the mask register: two states that differ only in it step to states that differ at
most in it (10_state.md R30; 45_ppu_register_window.md R213; decision D26). -/
def Obligations.MaskHasNoEffect : Prop :=
  ∀ (s t : State) (m : Byte), step s = .next t → ∃ m', step (withMask m s) = .next (withMask m' t)

/-! ## The bus -/

/-- An address up to 0x1FFF reaches the RAM cell `a mod 2048`, a read with no side effect; after a write the four addresses
of the cell read the byte written and every other RAM address reads as before; before any write they read the initial
image (20_memory.md R53). -/
def Obligations.RamIsMirrored : Prop :=
  (∀ (a : Word) (s : State), a.toNat ≤ 0x1FFF → memRead a s = (s.bus.ram.read (a.toNat % 0x0800), s)) ∧
  (∀ (a b : Word) (d : Byte) (s : State), s.bus.ram.wf 0x0800 → a.toNat ≤ 0x1FFF → b.toNat ≤ 0x1FFF →
    (memRead b (memWrite a d s)).1 =
      if b.toNat % 0x0800 = a.toNat % 0x0800 then d else (memRead b s).1) ∧
  (∀ (prg chr ram : List Byte) (prm : Params) (a : Word), ram.length = 0x0800 → a.toNat ≤ 0x1FFF →
    (memRead a (boot prg chr ram prm)).1 = ram.getD (a.toNat % 0x0800) 0)

/-- ROM reads as the image loaded, an unmapped address reads 0, both without a side effect, and both ignore writes
(20_memory.md R52, R58; decisions D40, D32). -/
def Obligations.RomAndUnmappedIgnoreWrites : Prop :=
  (∀ (a : Word) (s : State), 0x8000 ≤ a.toNat → memRead a s = (s.bus.prg.read (a.toNat - 0x8000), s)) ∧
  (∀ (prg chr ram : List Byte) (prm : Params) (a : Word), prg.length = 0x8000 → 0x8000 ≤ a.toNat →
    (memRead a (boot prg chr ram prm)).1 = prg.getD (a.toNat - 0x8000) 0) ∧
  (∀ (a : Word) (s : State), 0x4000 ≤ a.toNat → a.toNat ≤ 0x7FFF → a.toNat ≠ 0x4016 → memRead a s = (0, s)) ∧
  (∀ (a : Word) (d : Byte) (s : State), 0x4000 ≤ a.toNat → a.toNat ≠ 0x4014 → a.toNat ≠ 0x4016 → memWrite a d s = s)

/-- Every address of the window acts as the register of its low three bits (20_memory.md R54). -/
def Obligations.WindowIsMirrored : Prop :=
  ∀ (a b : Word) (d : Byte) (s : State), 0x2000 ≤ a.toNat → a.toNat ≤ 0x3FFF → b.toNat = 0x2000 + a.toNat % 8 →
    memRead a s = memRead b s ∧ memWrite a d s = memWrite b d s

/-- A bus read changes nothing, except that the status register's clears its vblank bit and the toggle, the data port's
changes the read buffer and v, and the controller port's changes the shift register (20_memory.md R50, R60). -/
def Obligations.ReadsHaveNamedSideEffects : Prop :=
  ∀ (a : Word) (s : State),
    (IsWindow 2 a → (memRead a s).2 =
      { s with ppu := { s.ppu with status := s.ppu.status &&& 0x7F, w := false } }) ∧
    (IsWindow 7 a → ∃ b v, (memRead a s).2 = { s with ppu := { s.ppu with rdbuf := b, v := v } }) ∧
    (a.toNat = 0x4016 → ∃ c, (memRead a s).2 = { s with bus := { s.bus with ctlShift := c } }) ∧
    (¬ IsWindow 2 a → ¬ IsWindow 7 a → a.toNat ≠ 0x4016 →
      (memRead a s).2 = s ∧ memRead a (memRead a s).2 = memRead a s)

/-- In every state: with the strobe set a read of the port gives bit 0 of the current snapshot, or'd with 0x40, and loads the
shift register from it; with it clear a read gives bit 0 of the shift register and shifts it right by one. A write with bit
0 set sets the strobe and loads the shift register; one with bit 0 clear clears the strobe and keeps the shift register. So
after a write of each the next eight reads give the bits of the latched snapshot from bit 0 up and every later read gives
0x40 (20_memory.md R62, R63; 70_reset_and_hazards.md R315; decision D31). -/
def Obligations.ControllerShiftsSnapshot : Prop :=
  (∀ s : State, s.bus.ctlStrobe = true → memRead 0x4016 s =
    (0x40 + (s.bus.ctlSnapshot &&& 1), { s with bus := { s.bus with ctlShift := s.bus.ctlSnapshot } })) ∧
  (∀ s : State, s.bus.ctlStrobe = false → ∃ c : Byte, c.toNat = s.bus.ctlShift.toNat / 2 ∧ memRead 0x4016 s =
    (0x40 + (s.bus.ctlShift &&& 1), { s with bus := { s.bus with ctlShift := c } })) ∧
  (∀ (d : Byte) (s : State), d.getLsbD 0 = true → memWrite 0x4016 d s =
    { s with bus := { s.bus with ctlStrobe := true, ctlShift := s.bus.ctlSnapshot } }) ∧
  (∀ (d : Byte) (s : State), d.getLsbD 0 = false → memWrite 0x4016 d s =
    { s with bus := { s.bus with ctlStrobe := false } }) ∧
  ∀ (s : State) (on off : Byte) (k : Nat), on.getLsbD 0 = true → off.getLsbD 0 = false →
    let strobed := memWrite 0x4016 on s
    let latched := memWrite 0x4016 off strobed
    (memRead 0x4016 (afterPortReads k strobed)).1 = 0x40 + (s.bus.ctlSnapshot &&& 1) ∧
    (memRead 0x4016 (afterPortReads k latched)).1 =
      0x40 + (if k < 8 then (s.bus.ctlSnapshot >>> k) &&& 1 else 0) ∧
    latched = { s with bus := { s.bus with ctlStrobe := false, ctlShift := s.bus.ctlSnapshot } }

/-- A write to 0x4014 reads the 256 bytes of the page through the bus in ascending order, storing byte i at OAM address
`oamaddr + i` mod 256 as it goes, and keeps the OAM address; from a page of RAM or ROM it changes OAM only, to that page's
bytes (20_memory.md R55; decision D30). -/
def Obligations.OamDmaCopiesThePage : Prop :=
  (∀ (d : Byte) (s : State), ∃ run : Nat → State,
    run 0 = s ∧ memWrite 0x4014 d s = run 256 ∧
    ∀ i < 256,
      let r := memRead (wordOf (BitVec.ofNat 8 i) d) (run i)
      run (i + 1) =
        { r.2 with ppu := { r.2.ppu with oam := r.2.ppu.oam.write ((s.ppu.oamaddr.toNat + i) % 256) r.1 } }) ∧
  (∀ (d : Byte) (s : State), MemoriesOk s → d.toNat ≤ 0x1F ∨ 0x80 ≤ d.toNat → ∃ oam : Memory 8,
    memWrite 0x4014 d s = { s with ppu := { s.ppu with oam := oam } } ∧
    ∀ i < 256, oam.read ((s.ppu.oamaddr.toNat + i) % 256) = (memRead (wordOf (BitVec.ofNat 8 i) d) s).1)

/-! ## The register window and the VRAM map -/

/-- A status read gives the register before it clears the vblank bit and the toggle, so a second read gives bit 7 clear; a
status write is ignored; a read of any write-only register gives 0 and changes nothing (45_ppu_register_window.md R214,
R215, R216; decision D20). -/
def Obligations.StatusAndWriteOnlyReads : Prop :=
  (∀ (a : Word) (s : State), IsWindow 2 a →
    memRead a s = (s.ppu.status, { s with ppu := { s.ppu with status := s.ppu.status &&& 0x7F, w := false } }) ∧
    (memRead a (memRead a s).2).1 = s.ppu.status &&& 0x7F ∧ ∀ d, memWrite a d s = s) ∧
  (∀ (a : Word) (s : State) (n : Nat), IsWindow n a → n = 0 ∨ n = 1 ∨ n = 3 ∨ n = 5 ∨ n = 6 → memRead a s = (0, s))

/-- The OAM data register reads the byte at the OAM address and leaves the address; a write stores all eight bits there
and advances the address modulo 256; no other OAM byte and nothing else changes (45_ppu_register_window.md R218). -/
def Obligations.OamDataPort : Prop :=
  ∀ (a : Word) (d : Byte) (s : State), IsWindow 4 a → s.ppu.oam.wf 0x100 →
    memRead a s = (s.ppu.oam.read s.ppu.oamaddr.toNat, s) ∧
    ∃ (oam : Memory 8) (next : Byte),
      memWrite a d s = { s with ppu := { s.ppu with oam := oam, oamaddr := next } } ∧
      next.toNat = (s.ppu.oamaddr.toNat + 1) % 256 ∧
      ∀ k, oam.read k = if k = s.ppu.oamaddr.toNat then d else s.ppu.oam.read k

/-- A control write stores all eight bits and copies bits 1:0 into bits 11:10 of t; a mask write and an OAM address write
store the byte; none changes anything else, the toggle and a pending NMI included (45_ppu_register_window.md R212, R213,
R217; decision D21). -/
def Obligations.ControlMaskAndOamAddressWrites : Prop :=
  ∀ (a : Word) (d : Byte) (s : State),
    (IsWindow 0 a → ∃ t : BitVec 15,
      (∀ k < 15, t.getLsbD k = if k = 10 then d.getLsbD 0 else if k = 11 then d.getLsbD 1 else s.ppu.t.getLsbD k) ∧
      memWrite a d s = { s with ppu := { s.ppu with ctrl := d, t := t } }) ∧
    (IsWindow 1 a → memWrite a d s = withMask d s) ∧
    (IsWindow 3 a → memWrite a d s = { s with ppu := { s.ppu with oamaddr := d } })

/-- The scroll and address registers share one toggle. A first scroll write sets coarse and fine X, a second fine and
coarse Y; a first address write sets bits 13:8 of t and clears bit 14, a second sets bits 7:0 and copies t into v; every
other bit of t, and everything else, is kept (45_ppu_register_window.md R219, R220; decision D21). -/
def Obligations.ScrollAndAddressWrites : Prop :=
  ∀ (a : Word) (d : Byte) (s : State),
    (IsWindow 5 a → s.ppu.w = false → ∃ (t : BitVec 15) (x : BitVec 3),
      (∀ k < 15, t.getLsbD k = if k < 5 then d.getLsbD (k + 3) else s.ppu.t.getLsbD k) ∧ x.toNat = d.toNat % 8 ∧
      memWrite a d s = { s with ppu := { s.ppu with t := t, x := x, w := true } }) ∧
    (IsWindow 5 a → s.ppu.w = true → ∃ t : BitVec 15,
      (∀ k < 15, t.getLsbD k =
        if 12 ≤ k then d.getLsbD (k - 12) else if 5 ≤ k ∧ k < 10 then d.getLsbD (k - 2) else s.ppu.t.getLsbD k) ∧
      memWrite a d s = { s with ppu := { s.ppu with t := t, w := false } }) ∧
    (IsWindow 6 a → s.ppu.w = false → ∃ t : BitVec 15,
      (∀ k < 15, t.getLsbD k =
        if k = 14 then false else if 8 ≤ k then d.getLsbD (k - 8) else s.ppu.t.getLsbD k) ∧
      memWrite a d s = { s with ppu := { s.ppu with t := t, w := true } }) ∧
    (IsWindow 6 a → s.ppu.w = true → ∃ t : BitVec 15,
      (∀ k < 15, t.getLsbD k = if k < 8 then d.getLsbD k else s.ppu.t.getLsbD k) ∧
      memWrite a d s = { s with ppu := { s.ppu with t := t, v := t, w := false } })

/-- A data read gives the read buffer and refills it from v below palette space, and gives the palette entry at once,
refilling the buffer from 0x1000 lower, in palette space; a data write stores at v and keeps the buffer; both then add 1,
or 32 with control bit 2 set, to v modulo 2^15 (45_ppu_register_window.md R221, R222, R223; decisions D18, D22). -/
def Obligations.DataPortBuffersReads : Prop :=
  ∀ (a : Word) (d : Byte) (s : State), IsWindow 7 a → ∃ v : BitVec 15,
    v.toNat = (s.ppu.v.toNat + if s.ppu.ctrl.getLsbD 2 = true then 32 else 1) % 0x8000 ∧
    (s.ppu.v.toNat % 0x4000 < 0x3F00 →
      memRead a s =
        (s.ppu.rdbuf, { s with ppu := { s.ppu with rdbuf := vramRead s.ppu s.ppu.v.toNat, v := v } })) ∧
    (0x3F00 ≤ s.ppu.v.toNat % 0x4000 →
      memRead a s =
        ((s.ppu.pal.read (s.ppu.v.toNat % 32)).setWidth 8,
          { s with ppu := { s.ppu with rdbuf := s.ppu.nt.read ((s.ppu.v.toNat % 0x4000 - 0x1000) % 0x0800), v := v } })) ∧
    memWrite a d s = { s with ppu := { vramWrite s.ppu s.ppu.v.toNat d with v := v } }

/-- The sequence of section 6, for every address and byte: after a status read, an address pair and a data write, the
address pair again and a read give the stale buffer, and the next read the byte written (or, in palette space, the first
read gives its low six bits); from the unmapped hole the buffer is loaded with 0 (45_ppu_register_window.md R215, R220, R221, R222). -/
def Obligations.DataPortReadsBack : Prop :=
  ∀ (s : State) (hi lo d : Byte), MemoriesOk s →
    let point (u : State) : State := memWrite 0x2006 lo (memWrite 0x2006 hi u)
    let stored := memWrite 0x2007 d (point (memRead 0x2002 s).2)
    let first := memRead 0x2007 (point stored)
    let second := memRead 0x2007 first.2
    let a := hi.toNat % 0x40 * 0x100 + lo.toNat
    (a ≤ 0x2FFF → first.1 = s.ppu.rdbuf ∧ second.1 = d) ∧
    (0x3000 ≤ a → a < 0x3F00 → first.1 = s.ppu.rdbuf ∧ first.2.ppu.rdbuf = 0) ∧
    (0x3F00 ≤ a → first.1 = d &&& 0x3F)

/-- The VRAM map: a write below 0x2000 reaches the pattern byte of its address, one below 0x3000 the nametable byte of its
low eleven bits, one below 0x3F00 nothing, and one above the six low bits of the palette cell of its low five bits; a read
through any address of that cell gives what was written and every other address reads as before (20_memory.md R65, R66,
R67; decisions D23, D24). -/
def Obligations.VramReadAfterWrite : Prop :=
  ∀ (p : Ppu) (a b : Nat) (d : Byte), PpuMemoriesOk p →
    let a' := a % 0x4000
    let b' := b % 0x4000
    (0x3000 ≤ a' → a' < 0x3F00 → vramRead p a = 0 ∧ vramWrite p a d = p) ∧
    (a' < 0x2000 → vramRead (vramWrite p a d) b = if b' = a' then d else vramRead p b) ∧
    (0x2000 ≤ a' → a' < 0x3000 → vramRead (vramWrite p a d) b =
      if 0x2000 ≤ b' ∧ b' < 0x3000 ∧ b' % 0x0800 = a' % 0x0800 then d else vramRead p b) ∧
    (0x3F00 ≤ a' → vramRead (vramWrite p a d) b =
      if 0x3F00 ≤ b' ∧ b' % 32 = a' % 32 then d &&& 0x3F else vramRead p b)

/-! ## The stack, calls and traps -/

/-- A push writes the byte in the RAM cell the stack pointer names, then decrements it modulo 256; the bus write has no
other effect, with the pointer at 0x00 too (10_state.md R27). -/
def Obligations.PushStoresThenDecrements : Prop :=
  ∀ (v : Byte) (s : State), ∃ sp : Byte,
    sp.toNat = (s.cpu.sp.toNat + 255) % 256 ∧
    push v s = { memWrite (stackSlot s.cpu.sp) v s with cpu := { s.cpu with sp := sp } } ∧
    push v s =
      { s with
        bus := { s.bus with ram := s.bus.ram.write (0x0100 + s.cpu.sp.toNat) v }
        cpu := { s.cpu with sp := sp } }

/-- BRK pushes the address two past its opcode, high byte first, then P with Break and Unused set in the copy, sets I, and
loads PC from the ROM word at 0xFFFE (44_stack_flags_system.md R202; 60_exceptions.md R275; decisions D8, D9). -/
def Obligations.BrkEntersTheHandler : Prop :=
  Encodes 0x00 1 7 (fun _ _ => .brk) ∧
  ∀ s : State, ∃ (ret : Word) (q : Byte),
    ret.toNat = (s.cpu.pc.toNat + 1) % 65536 ∧ getFlag .I q = true ∧ KeepsFlagsBut [.I] s.cpu.p q ∧
    exec .brk s = .next
      { s with
        bus := { s.bus with
          ram := (ramWithWord s.bus.ram s.cpu.sp ret).write (stackCell (s.cpu.sp - 2)) (s.cpu.p ||| 0x30) }
        cpu := { s.cpu with sp := s.cpu.sp - 3, p := q, pc := romWord s 0x7FFE } }

/-- RTI pulls P, Unused forced to 1, then PC, low byte first, not incremented; so from the stack a BRK leaves it returns
past the padding byte with Break and Unused set in P, and from the stack an NMI service leaves it restores P and PC as they
were (44_stack_flags_system.md R203; 60_exceptions.md R276, R278; decision D8). -/
def Obligations.RtiReturnsFromTraps : Prop :=
  Encodes 0x40 1 6 (fun _ _ => .rti) ∧
  (∀ s : State, ∃ (q : Byte) (pc : Word),
    q = s.bus.ram.read (stackCell (s.cpu.sp + 1)) ||| 0x20 ∧ getFlag .U q = true ∧
    pc.toNat = stackWord s.bus.ram (s.cpu.sp + 1) ∧
    exec .rti s = .next { s with cpu := { s.cpu with p := q, pc := pc, sp := s.cpu.sp + 3 } }) ∧
  (∀ s t u w : State, s.bus.ram.wf 0x0800 → exec .brk s = .next t →
    u.bus.ram = t.bus.ram → u.cpu.sp = t.cpu.sp → exec .rti u = .next w →
    w.cpu.pc = s.cpu.pc + 1 ∧ w.cpu.p = s.cpu.p ||| 0x30 ∧ w.cpu.sp = s.cpu.sp) ∧
  (∀ s t u w : State, MachineInv s → s.drv.phase = .cpu → s.cpu.nmiPending = true → step s = .next t →
    u.bus.ram = t.bus.ram → u.cpu.sp = t.cpu.sp → exec .rti u = .next w →
    w.cpu.pc = s.cpu.pc ∧ w.cpu.p = s.cpu.p ∧ w.cpu.sp = s.cpu.sp)

/-- JSR pushes the address of its last byte, high byte first, and jumps; a later RTS that finds that stack returns to the
instruction after the JSR (43_control_flow.md R172, R173; decision D12). -/
def Obligations.JsrSavesTheReturnForRts : Prop :=
  Encodes 0x20 3 6 (fun l h => .jsr (wordOf l h)) ∧
  (∀ (target : Word) (s : State), ∃ ret : Word, ret.toNat = (s.cpu.pc.toNat + 65535) % 65536 ∧
    exec (.jsr target) s = .next
      { s with
        bus := { s.bus with ram := ramWithWord s.bus.ram s.cpu.sp ret }
        cpu := { s.cpu with sp := s.cpu.sp - 2, pc := target } }) ∧
  (∀ (target : Word) (s t u w : State), s.bus.ram.wf 0x0800 → exec (.jsr target) s = .next t →
    u.bus.ram = t.bus.ram → u.cpu.sp = t.cpu.sp → exec .rts u = .next w →
    w.cpu.pc = s.cpu.pc ∧ w.cpu.sp = s.cpu.sp)

/-- RTS pulls PC, low byte first, and increments it modulo 2^16; no flag and nothing else but S changes
(43_control_flow.md R173). -/
def Obligations.RtsPullsAndIncrements : Prop :=
  Encodes 0x60 1 6 (fun _ _ => .rts) ∧
  ∀ s : State, ∃ (pc : Word) (sp : Byte),
    pc.toNat = (stackWord s.bus.ram s.cpu.sp + 1) % 65536 ∧ sp.toNat = (s.cpu.sp.toNat + 2) % 256 ∧
    exec .rts s = .next { s with cpu := { s.cpu with pc := pc, sp := sp } }

/-- JMP goes to its operand, or to the word its pointer names, whose high byte is read at the start of the pointer's page
when the pointer's low byte is 0xFF; no flag, no stack byte and nothing but the side effects of the pointer reads changes
(43_control_flow.md R170, R171; 30_encoding.md R107). -/
def Obligations.JumpsReachTheirTargets : Prop :=
  Encodes 0x4C 3 3 (fun l h => .jmp (.abs (wordOf l h))) ∧ Encodes 0x6C 3 5 (fun l h => .jmp (.ind (wordOf l h))) ∧
  (∀ (l h : Byte), (wordOf l h).toNat = h.toNat * 256 + l.toNat) ∧
  (∀ (target : Word) (s : State), exec (.jmp (.abs target)) s = .next { s with cpu := { s.cpu with pc := target } }) ∧
  (∀ (ptr : Word) (s : State), ∃ (second pc : Word),
    second.toNat = ptr.toNat / 256 * 256 + (ptr.toNat + 1) % 256 ∧
    pc.toNat = (memRead second (memRead ptr s).2).1.toNat * 256 + (memRead ptr s).1.toNat ∧
    exec (.jmp (.ind ptr)) s = .next { (memRead second (memRead ptr s).2).2 with cpu := { s.cpu with pc := pc } })

/-- Each branch tests its flag and, taken, goes to the address after its operand byte plus the signed offset, modulo 2^16;
it reports 2 cycles either way and changes nothing else (43_control_flow.md R174 to R182; 30_encoding.md R108;
decision D4). -/
def Obligations.BranchesTestTheirFlags : Prop :=
  BranchRule 0x10 .bpl .N false ∧ BranchRule 0x30 .bmi .N true ∧ BranchRule 0x50 .bvc .V false ∧
  BranchRule 0x70 .bvs .V true ∧ BranchRule 0x90 .bcc .C false ∧ BranchRule 0xB0 .bcs .C true ∧
  BranchRule 0xD0 .bne .Z false ∧ BranchRule 0xF0 .beq .Z true

/-! ## Instruction results -/

/-- LDA, LDX and LDY, in every row: the register becomes the operand, Z and N are the operand's, the other flags and
registers are kept, and nothing else changes but what reading the operand changes (40_load_store_transfer.md R120 to
R122). -/
def Obligations.LoadsWriteRegisterZN : Prop :=
  (EncodesAlu 0xA9 0xA5 0xB5 0xAD 0xBD 0xB9 0xA1 0xB1 .lda ∧
    Encodes 0xA2 2 2 (fun l _ => .ldx (.imm l)) ∧ Encodes 0xA6 2 3 (fun l _ => .ldx (.mem (.zp l))) ∧
    Encodes 0xB6 2 4 (fun l _ => .ldx (.mem (.zpy l))) ∧ Encodes 0xAE 3 4 (fun l h => .ldx (.mem (.abs (wordOf l h)))) ∧
    Encodes 0xBE 3 4 (fun l h => .ldx (.mem (.aby (wordOf l h)))) ∧
    Encodes 0xA0 2 2 (fun l _ => .ldy (.imm l)) ∧ Encodes 0xA4 2 3 (fun l _ => .ldy (.mem (.zp l))) ∧
    Encodes 0xB4 2 4 (fun l _ => .ldy (.mem (.zpx l))) ∧ Encodes 0xAC 3 4 (fun l h => .ldy (.mem (.abs (wordOf l h)))) ∧
    Encodes 0xBC 3 4 (fun l h => .ldy (.mem (.abx (wordOf l h))))) ∧
  ∀ (o : Src) (s : State), ∃ q, ZNOf (readSrc o s).1 q ∧ KeepsFlagsBut [.Z, .N] s.cpu.p q ∧
    exec (.lda o) s = .next { (readSrc o s).2 with cpu := { s.cpu with a := (readSrc o s).1, p := q } } ∧
    exec (.ldx o) s = .next { (readSrc o s).2 with cpu := { s.cpu with x := (readSrc o s).1, p := q } } ∧
    exec (.ldy o) s = .next { (readSrc o s).2 with cpu := { s.cpu with y := (readSrc o s).1, p := q } }

/-- STA, STX and STY, in every row, write their register to the effective address through the bus, without reading it first;
no register and no flag changes (40_load_store_transfer.md R123 to R125). -/
def Obligations.StoresWriteTheirRegister : Prop :=
  (Encodes 0x85 2 3 (fun l _ => .sta (.zp l)) ∧ Encodes 0x95 2 4 (fun l _ => .sta (.zpx l)) ∧
    Encodes 0x8D 3 4 (fun l h => .sta (.abs (wordOf l h))) ∧ Encodes 0x9D 3 5 (fun l h => .sta (.abx (wordOf l h))) ∧
    Encodes 0x99 3 5 (fun l h => .sta (.aby (wordOf l h))) ∧ Encodes 0x81 2 6 (fun l _ => .sta (.izx l)) ∧
    Encodes 0x91 2 6 (fun l _ => .sta (.izy l)) ∧
    Encodes 0x86 2 3 (fun l _ => .stx (.zp l)) ∧ Encodes 0x96 2 4 (fun l _ => .stx (.zpy l)) ∧
    Encodes 0x8E 3 4 (fun l h => .stx (.abs (wordOf l h))) ∧
    Encodes 0x84 2 3 (fun l _ => .sty (.zp l)) ∧ Encodes 0x94 2 4 (fun l _ => .sty (.zpx l)) ∧
    Encodes 0x8C 3 4 (fun l h => .sty (.abs (wordOf l h)))) ∧
  ∀ (m : Mem) (s : State),
    (exec (.sta m) s = .next (memWrite (effAddr m s).1 s.cpu.a s) ∧
      exec (.stx m) s = .next (memWrite (effAddr m s).1 s.cpu.x s) ∧
      exec (.sty m) s = .next (memWrite (effAddr m s).1 s.cpu.y s)) ∧
    ∀ v, (memWrite (effAddr m s).1 v s).cpu = s.cpu ∧ (memWrite (effAddr m s).1 v s).drv = s.drv

/-- TAX, TAY, TXA, TYA and TSX copy their source register, which is kept, set Z and N from it, and change nothing else
(40_load_store_transfer.md R126 to R130). -/
def Obligations.TransfersCopyAndSetZN : Prop :=
  (Encodes 0xAA 1 2 (fun _ _ => .tax) ∧ Encodes 0xA8 1 2 (fun _ _ => .tay) ∧ Encodes 0x8A 1 2 (fun _ _ => .txa) ∧
    Encodes 0x98 1 2 (fun _ _ => .tya) ∧ Encodes 0xBA 1 2 (fun _ _ => .tsx)) ∧
  ∀ s : State,
    (∃ q, ZNOf s.cpu.a q ∧ KeepsFlagsBut [.Z, .N] s.cpu.p q ∧
      exec .tax s = .next { s with cpu := { s.cpu with x := s.cpu.a, p := q } } ∧
      exec .tay s = .next { s with cpu := { s.cpu with y := s.cpu.a, p := q } }) ∧
    (∃ q, ZNOf s.cpu.x q ∧ KeepsFlagsBut [.Z, .N] s.cpu.p q ∧
      exec .txa s = .next { s with cpu := { s.cpu with a := s.cpu.x, p := q } }) ∧
    (∃ q, ZNOf s.cpu.y q ∧ KeepsFlagsBut [.Z, .N] s.cpu.p q ∧
      exec .tya s = .next { s with cpu := { s.cpu with a := s.cpu.y, p := q } }) ∧
    (∃ q, ZNOf s.cpu.sp q ∧ KeepsFlagsBut [.Z, .N] s.cpu.p q ∧
      exec .tsx s = .next { s with cpu := { s.cpu with x := s.cpu.sp, p := q } })

/-- ADC: A becomes the sum of A, the operand and the carry modulo 256; C is the carry out; V is set exactly when the addends
agree in sign and the result does not, which is when the signed sum lies outside -128 to 127; Z and N are the result's; the
other flags, D with them, are kept and D is not read (41_arithmetic_logic_compare.md R140). -/
def Obligations.AdcAddsWithCarry : Prop :=
  EncodesAlu 0x69 0x65 0x75 0x6D 0x7D 0x79 0x61 0x71 .adc ∧
  ∀ (o : Src) (s : State),
    let m := (readSrc o s).1
    ∃ r q, r.toNat = (s.cpu.a.toNat + m.toNat + carry s.cpu.p) % 256 ∧ ZNOf r q ∧
      (getFlag .C q = true ↔ 256 ≤ s.cpu.a.toNat + m.toNat + carry s.cpu.p) ∧
      getFlag .V q = (~~~(s.cpu.a ^^^ m) &&& (s.cpu.a ^^^ r)).getLsbD 7 ∧
      (getFlag .V q = true ↔
        s.cpu.a.toInt + m.toInt + carry s.cpu.p < -128 ∨ 127 < s.cpu.a.toInt + m.toInt + carry s.cpu.p) ∧
      KeepsFlagsBut [.C, .V, .Z, .N] s.cpu.p q ∧
      exec (.adc o) s = .next { (readSrc o s).2 with cpu := { s.cpu with a := r, p := q } }

/-- SBC: A becomes A minus the operand minus the borrow, modulo 256; C is set when no borrow occurs; V is set exactly when
the signed difference lies outside -128 to 127; Z and N are the result's; it is ADC of the operand's complement; D is not
read (41_arithmetic_logic_compare.md R141). -/
def Obligations.SbcSubtractsWithBorrow : Prop :=
  EncodesAlu 0xE9 0xE5 0xF5 0xED 0xFD 0xF9 0xE1 0xF1 .sbc ∧
  (∀ (v : Byte) (s : State), exec (.sbc (.imm v)) s = exec (.adc (.imm (v ^^^ 0xFF))) s) ∧
  ∀ (o : Src) (s : State),
    let m := (readSrc o s).1
    ∃ r q, (r.toNat : Int) = ((s.cpu.a.toNat : Int) - m.toNat - (1 - carry s.cpu.p)) % 256 ∧ ZNOf r q ∧
      (getFlag .C q = true ↔ (m.toNat : Int) + (1 - carry s.cpu.p) ≤ s.cpu.a.toNat) ∧
      (getFlag .V q = true ↔
        s.cpu.a.toInt - m.toInt - (1 - carry s.cpu.p) < -128 ∨ 127 < s.cpu.a.toInt - m.toInt - (1 - carry s.cpu.p)) ∧
      KeepsFlagsBut [.C, .V, .Z, .N] s.cpu.p q ∧
      exec (.sbc o) s = .next { (readSrc o s).2 with cpu := { s.cpu with a := r, p := q } }

/-- ADC and SBC compute in binary: flipping the Decimal flag flips it in the result and changes nothing else
(41_arithmetic_logic_compare.md R155; decision D7). -/
def Obligations.DecimalFlagIsIgnored : Prop :=
  ∀ (o : Src) (s : State) (b : Bool), ∃ t u : State,
    exec (.adc o) s = .next t ∧ exec (.adc o) (s.withFlag .D b) = .next (t.withFlag .D b) ∧
    exec (.sbc o) s = .next u ∧ exec (.sbc o) (s.withFlag .D b) = .next (u.withFlag .D b)

/-- AND, ORA and EOR, in every row: A becomes the bitwise result, Z and N are the result's, and the other flags and
registers are kept (41_arithmetic_logic_compare.md R142 to R144). -/
def Obligations.LogicCombinesBits : Prop :=
  (EncodesAlu 0x29 0x25 0x35 0x2D 0x3D 0x39 0x21 0x31 .and ∧ EncodesAlu 0x09 0x05 0x15 0x0D 0x1D 0x19 0x01 0x11 .ora ∧
    EncodesAlu 0x49 0x45 0x55 0x4D 0x5D 0x59 0x41 0x51 .eor) ∧
  ∀ (o : Src) (s : State),
    let m := (readSrc o s).1
    (∃ q, ZNOf (s.cpu.a &&& m) q ∧ KeepsFlagsBut [.Z, .N] s.cpu.p q ∧
      exec (.and o) s = .next { (readSrc o s).2 with cpu := { s.cpu with a := s.cpu.a &&& m, p := q } }) ∧
    (∃ q, ZNOf (s.cpu.a ||| m) q ∧ KeepsFlagsBut [.Z, .N] s.cpu.p q ∧
      exec (.ora o) s = .next { (readSrc o s).2 with cpu := { s.cpu with a := s.cpu.a ||| m, p := q } }) ∧
    (∃ q, ZNOf (s.cpu.a ^^^ m) q ∧ KeepsFlagsBut [.Z, .N] s.cpu.p q ∧
      exec (.eor o) s = .next { (readSrc o s).2 with cpu := { s.cpu with a := s.cpu.a ^^^ m, p := q } })

/-- CMP, CPX and CPY: C is set exactly when the register is at least the operand, unsigned; Z and N are those of the 8-bit
difference; the register, V and the rest are kept (41_arithmetic_logic_compare.md R145 to R147, R156). -/
def Obligations.ComparesSetCarryZN : Prop :=
  (EncodesAlu 0xC9 0xC5 0xD5 0xCD 0xDD 0xD9 0xC1 0xD1 .cmp ∧ EncodesIndexCompare 0xE0 0xE4 0xEC .cpx ∧
    EncodesIndexCompare 0xC0 0xC4 0xCC .cpy) ∧
  ∀ (o : Src) (s : State),
    CompareRule (.cmp o) o s.cpu.a s ∧ CompareRule (.cpx o) o s.cpu.x s ∧ CompareRule (.cpy o) o s.cpu.y s

/-- BIT sets Z from the AND and N and V from bits 7 and 6 of the operand, and keeps A; INC and DEC read their cell once,
write it once with one more or one less modulo 256, set Z and N from the result, and keep every register
(41_arithmetic_logic_compare.md R148 to R150; decision D11). -/
def Obligations.BitAndMemoryCounting : Prop :=
  (Encodes 0x24 2 3 (fun l _ => .bit (.zp l)) ∧ Encodes 0x2C 3 4 (fun l h => .bit (.abs (wordOf l h))) ∧
    EncodesModify 0xE6 0xF6 0xEE 0xFE .inc ∧ EncodesModify 0xC6 0xD6 0xCE 0xDE .dec) ∧
  ∀ (m : Mem) (s : State),
    let ea := (effAddr m s).1
    let c := memRead ea s
    (∃ q, (getFlag .Z q = true ↔ s.cpu.a &&& c.1 = 0) ∧ getFlag .N q = c.1.getLsbD 7 ∧
      getFlag .V q = c.1.getLsbD 6 ∧ KeepsFlagsBut [.Z, .N, .V] s.cpu.p q ∧
      exec (.bit m) s = .next { c.2 with cpu := { s.cpu with p := q } }) ∧
    (∃ r q, r.toNat = (c.1.toNat + 1) % 256 ∧ ZNOf r q ∧ KeepsFlagsBut [.Z, .N] s.cpu.p q ∧
      exec (.inc m) s = .next (modified ea r q s)) ∧
    (∃ r q, r.toNat = (c.1.toNat + 255) % 256 ∧ ZNOf r q ∧ KeepsFlagsBut [.Z, .N] s.cpu.p q ∧
      exec (.dec m) s = .next (modified ea r q s))

/-- INX, INY, DEX and DEY count modulo 256 and set Z and N from the result; TXS copies X to S and writes no flag; nothing
else changes (41_arithmetic_logic_compare.md R151 to R154; 40_load_store_transfer.md R131; decision D10). -/
def Obligations.RegisterCountingAndTxs : Prop :=
  (Encodes 0xE8 1 2 (fun _ _ => .inx) ∧ Encodes 0xC8 1 2 (fun _ _ => .iny) ∧ Encodes 0xCA 1 2 (fun _ _ => .dex) ∧
    Encodes 0x88 1 2 (fun _ _ => .dey) ∧ Encodes 0x9A 1 2 (fun _ _ => .txs)) ∧
  ∀ s : State,
    (∃ r q, r.toNat = (s.cpu.x.toNat + 1) % 256 ∧ ZNOf r q ∧ KeepsFlagsBut [.Z, .N] s.cpu.p q ∧
      exec .inx s = .next { s with cpu := { s.cpu with x := r, p := q } }) ∧
    (∃ r q, r.toNat = (s.cpu.y.toNat + 1) % 256 ∧ ZNOf r q ∧ KeepsFlagsBut [.Z, .N] s.cpu.p q ∧
      exec .iny s = .next { s with cpu := { s.cpu with y := r, p := q } }) ∧
    (∃ r q, r.toNat = (s.cpu.x.toNat + 255) % 256 ∧ ZNOf r q ∧ KeepsFlagsBut [.Z, .N] s.cpu.p q ∧
      exec .dex s = .next { s with cpu := { s.cpu with x := r, p := q } }) ∧
    (∃ r q, r.toNat = (s.cpu.y.toNat + 255) % 256 ∧ ZNOf r q ∧ KeepsFlagsBut [.Z, .N] s.cpu.p q ∧
      exec .dey s = .next { s with cpu := { s.cpu with y := r, p := q } }) ∧
    exec .txs s = .next { s with cpu := { s.cpu with sp := s.cpu.x } }

/-- ASL, LSR, ROL and ROR, of A or of a memory cell read once and written once: the result and the carry out as numbers, Z
and N the result's, the other flags and registers kept (42_shift_rotate.md R160 to R163). -/
def Obligations.ShiftsMoveOneBit : Prop :=
  (EncodesShift 0x0A 0x06 0x16 0x0E 0x1E .asl ∧ EncodesShift 0x4A 0x46 0x56 0x4E 0x5E .lsr ∧
    EncodesShift 0x2A 0x26 0x36 0x2E 0x3E .rol ∧ EncodesShift 0x6A 0x66 0x76 0x6E 0x7E .ror) ∧
  ShiftRule .asl (fun m _ r c' => c' = m / 128 ∧ r = 2 * m % 256) ∧
  ShiftRule .lsr (fun m _ r c' => c' = m % 2 ∧ r = m / 2) ∧
  ShiftRule .rol (fun m c r c' => c' = m / 128 ∧ r = (2 * m + c) % 256) ∧
  ShiftRule .ror (fun m c r c' => c' = m % 2 ∧ r = m / 2 + 128 * c)

/-- PHA and PHP push A, and P with bits 4 and 5 set, changing no register but S; PLA pulls A and sets Z and N; PLP pulls all
of P with Unused forced to 1; a pull increments S modulo 256 and reads the cell it then names, so a push and a pull give
the byte back (44_stack_flags_system.md R190 to R193; 10_state.md R28; decision D8). -/
def Obligations.StackInstructions : Prop :=
  (Encodes 0x48 1 3 (fun _ _ => .pha) ∧ Encodes 0x68 1 4 (fun _ _ => .pla) ∧ Encodes 0x08 1 3 (fun _ _ => .php) ∧
    Encodes 0x28 1 4 (fun _ _ => .plp)) ∧
  (∀ s : State,
    pull s = (s.bus.ram.read (stackCell (s.cpu.sp + 1)), { s with cpu := { s.cpu with sp := s.cpu.sp + 1 } }) ∧
    exec .pha s = .next
      { s with
        bus := { s.bus with ram := s.bus.ram.write (stackCell s.cpu.sp) s.cpu.a }
        cpu := { s.cpu with sp := s.cpu.sp - 1 } } ∧
    exec .php s = .next
      { s with
        bus := { s.bus with ram := s.bus.ram.write (stackCell s.cpu.sp) (s.cpu.p ||| 0x30) }
        cpu := { s.cpu with sp := s.cpu.sp - 1 } } ∧
    (∃ q, ZNOf (s.bus.ram.read (stackCell (s.cpu.sp + 1))) q ∧ KeepsFlagsBut [.Z, .N] s.cpu.p q ∧
      exec .pla s = .next
        { s with
          cpu := { s.cpu with a := s.bus.ram.read (stackCell (s.cpu.sp + 1)), p := q, sp := s.cpu.sp + 1 } }) ∧
    exec .plp s = .next
      { s with
        cpu := { s.cpu with p := s.bus.ram.read (stackCell (s.cpu.sp + 1)) ||| 0x20, sp := s.cpu.sp + 1 } }) ∧
  (∀ (v : Byte) (s : State), s.bus.ram.wf 0x0800 →
    (pull (push v s)).1 = v ∧ (pull (push v s)).2.cpu = s.cpu)

/-- The flag instructions write the flag each names and nothing else, CLI, SEI and SED with them; NOP changes nothing after
its fetch (44_stack_flags_system.md R194, R195, R198, R199, R201). -/
def Obligations.FlagInstructionsAndNop : Prop :=
  FlagRule 0x18 .clc .C false ∧ FlagRule 0x38 .sec .C true ∧ FlagRule 0x58 .cli .I false ∧
  FlagRule 0x78 .sei .I true ∧ FlagRule 0xB8 .clv .V false ∧ FlagRule 0xD8 .cld .D false ∧
  FlagRule 0xF8 .sed .D true ∧ Encodes 0xEA 1 2 (fun _ _ => .nop) ∧ ∀ s, exec .nop s = .next s

/-! ## Operand forms and frames -/

/-- The operand forms: the immediate byte itself; the effective address of each memory form as a number, the zero-page sums
and pointers wrapping inside page zero, the 16-bit sums modulo 2^16; finding an address has no side effect, and the operand
is one bus read of it (30_encoding.md R98 to R106; decision D6). -/
def Obligations.OperandFormsGiveTheirAddress : Prop :=
  (∀ (v : Byte) (s : State), readSrc (.imm v) s = (v, s)) ∧
  (∀ (m : Mem) (s : State),
    readSrc (.mem m) s = memRead (effAddr m s).1 s ∧ readMem m s = memRead (effAddr m s).1 s ∧
    (effAddr m s).2 = s) ∧
  (∀ (nn : Byte) (a : Word) (s : State),
    let x := s.cpu.x.toNat
    let y := s.cpu.y.toNat
    let n := nn.toNat
    let zp (k : Nat) : Nat := (s.bus.ram.read (k % 256)).toNat + 256 * (s.bus.ram.read ((k + 1) % 256)).toNat
    let ea (m : Mem) : Nat := (effAddr m s).1.toNat
    ea (.zp nn) = n ∧ ea (.zpx nn) = (n + x) % 256 ∧ ea (.zpy nn) = (n + y) % 256 ∧
    ea (.abs a) = a.toNat ∧ ea (.abx a) = (a.toNat + x) % 65536 ∧ ea (.aby a) = (a.toNat + y) % 65536 ∧
    ea (.izx nn) = zp (n + x) ∧ ea (.izy nn) = (zp n + y) % 65536)

/-- Which instructions may change which registers and flags: after a next state every register and flag the tables of the
spec do not give the instruction is unchanged, and so are the NMI-pending bit, the program ROM and the frame driver
(10_state.md R21, R22, R23, R26, R29). -/
def Obligations.OnlyNamedRegistersChange : Prop :=
  ∀ (i : Instr) (s t : State), exec i s = .next t →
    let written := (footprint i).writes
    (.a ∉ written → t.cpu.a = s.cpu.a) ∧ (.x ∉ written → t.cpu.x = s.cpu.x) ∧
    (.y ∉ written → t.cpu.y = s.cpu.y) ∧ (.s ∉ written → t.cpu.sp = s.cpu.sp) ∧
    (.pc ∉ written → t.cpu.pc = s.cpu.pc) ∧
    (∀ f, .flag f ∉ written → getFlag f t.cpu.p = getFlag f s.cpu.p) ∧
    t.cpu.nmiPending = s.cpu.nmiPending ∧ t.bus.prg = s.bus.prg ∧ t.drv = s.drv

/-- An instruction that stores and pushes nothing leaves every byte of RAM, ROM, OAM, VRAM and the frame buffer as it was,
and the picture unit's write-only registers and the controller's strobe and snapshot; one with no data access at all leaves
the whole picture unit and bus (20_memory.md R59, R60). -/
def Obligations.NonStoringKeepsMemory : Prop :=
  ∀ (i : Instr) (s t : State), (footprint i).stores = none → (footprint i).pushes = 0 → exec i s = .next t →
    (∀ a, isCell a = true → (memRead a t).1 = (memRead a s).1) ∧
    (∀ a, vramRead t.ppu a = vramRead s.ppu a) ∧ (∀ k, t.ppu.oam.read k = s.ppu.oam.read k) ∧
    t.ppu.fb = s.ppu.fb ∧ t.ppu.ctrl = s.ppu.ctrl ∧ t.ppu.mask = s.ppu.mask ∧ t.ppu.oamaddr = s.ppu.oamaddr ∧
    t.ppu.t = s.ppu.t ∧ t.ppu.x = s.ppu.x ∧ t.bus.ctlStrobe = s.bus.ctlStrobe ∧
    t.bus.ctlSnapshot = s.bus.ctlSnapshot ∧ ((footprint i).reads = false → t.ppu = s.ppu ∧ t.bus = s.bus)

/-- An instruction that stores to a memory operand changes no RAM or ROM byte but the cell of its effective address; with
that address in RAM it changes nothing of the picture unit and the controller, and with it in ROM or unmapped nothing at
all of either; one that pushes changes no byte but its stack slots (20_memory.md R51, R52, R53, R58, R59; 10_state.md
R27). -/
def Obligations.StoresChangeOneCell : Prop :=
  (∀ (i : Instr) (m : Mem) (s t : State), (footprint i).stores = some m → exec i s = .next t →
    let ea := (effAddr m s).1
    (∀ a, isCell a = true → ¬ SameRamCell a ea → (memRead a t).1 = (memRead a s).1) ∧
    (ea.toNat ≤ 0x1FFF → t.ppu = s.ppu ∧ t.bus = { s.bus with ram := t.bus.ram }) ∧
    (0x4000 ≤ ea.toNat → ea.toNat ≠ 0x4014 → ea.toNat ≠ 0x4016 → t.ppu = s.ppu ∧ t.bus = s.bus)) ∧
  (∀ (i : Instr) (s t : State), 0 < (footprint i).pushes → exec i s = .next t →
    (∀ a, isCell a = true →
      (∀ k < (footprint i).pushes, ¬ SameRamCell a (stackSlot (s.cpu.sp - BitVec.ofNat 8 k))) →
      (memRead a t).1 = (memRead a s).1) ∧
    t.ppu = s.ppu ∧ t.bus = { s.bus with ram := t.bus.ram })

/-! ## Reset -/

/-- CPU reset sets A, X, Y and S, sets I and U alone in P, clears the pending NMI, loads PC from the ROM word at 0xFFFC and
changes nothing else; picture-unit reset zeroes everything of it but the pattern memory; the boot of any images leaves the
values of the reset table, with nothing yet counted; State.reset is the boot of empty images (70_reset_and_hazards.md R300,
R302, R303, R305; 10_state.md R38; decisions D14, D31, D36, D39; the empty images are log 1 and 2, the parameters log 4
and 5). -/
def Obligations.ResetAndBootValues : Prop :=
  (∀ s : State, cpuReset s =
    { s with cpu := { a := 0, x := 0, y := 0, sp := 0xFD, p := 0x24, pc := romWord s 0x7FFC, nmiPending := false } }) ∧
  (∀ f, getFlag f 0x24 = true ↔ f = .I ∨ f = .U) ∧
  (∀ s : State, ppuReset s =
    { s with ppu :=
      { ctrl := 0, mask := 0, status := 0, oamaddr := 0, v := 0, t := 0, x := 0, w := false, rdbuf := 0,
        oam := [], nt := [], pal := [], chr := s.ppu.chr, fb := [] } }) ∧
  (∀ (prg chr ram : List Byte) (prm : Params), ∃ s : State, boot prg chr ram prm = s ∧
    s.cpu = { a := 0, x := 0, y := 0, sp := 0xFD, p := 0x24, pc := romWord s 0x7FFC, nmiPending := false } ∧
    (∀ k, s.bus.ram.read k = if k < 0x0800 then ram.getD k 0 else 0) ∧
    (∀ k, s.bus.prg.read k = if k < 0x8000 then prg.getD k 0 else 0) ∧
    (∀ k, s.ppu.chr.read k = if k < 0x2000 then chr.getD k 0 else 0) ∧
    s.bus.ctlStrobe = false ∧ s.bus.ctlShift = 0 ∧ s.bus.ctlSnapshot = 0 ∧ s.ppu = (ppuReset s).ppu ∧
    s.drv = { phase := .input, frame := 0, acc := 0, params := prm }) ∧
  State.reset = boot [] [] [] defaultParams

/-! ## The rasterizer -/

/-- The frame buffer a render leaves is, pixel for pixel, what the loops of the spec paint: the background, then the sprites
from 63 down to 0, each row by row and column by column over what is there (46_ppu_rasterizer.md R240 to R250; decisions
D18, D25 to D29, D41, D43). -/
def Obligations.RenderPaintsTheFrame : Prop :=
  ∀ s t : State, s.drv.phase = .render → step s = .next t →
    ∀ py < 240, ∀ px < 256, t.ppu.fb.read (py * 256 + px) = painted s.ppu py px

/-- A pixel no sprite draws is the background's, on row 0 always; where sprites overlap the lowest OAM index wins; a sprite
with Y of 239 or more draws nothing; a background pixel of colour index 0 is the universal entry whatever the attribute
(46_ppu_rasterizer.md R246, R247, R248; decisions D26, D28). -/
def Obligations.LowestSpriteWins : Prop :=
  ∀ (p : Ppu) (px py : Nat),
    ((∀ i < 64, spritePixel p i px py = none) → framePixel p px py = backgroundPixel p px py) ∧
    (∀ i < 64, ∀ c, spritePixel p i px py = some c → (∀ j < i, spritePixel p j px py = none) → framePixel p px py = c) ∧
    framePixel p px 0 = backgroundPixel p px 0 ∧
    (∀ i, 239 ≤ (p.oam.read (4 * i)).toNat → py < 240 → spritePixel p i px py = none) ∧
    (backgroundIndex p ((px + scrollX p) % 512) ((py + scrollY p) % 240) = 0 → backgroundPixel p px py = p.pal.read 0)
end

