-- ==== Sys2Proof/Laws/Memory.lean ====
section
/-! SUPPORT. What reading and writing a memory do, and that every memory operation keeps the canonical form. -/

namespace Sys2Proof.Machine.Memory

variable {w : Nat}

@[simp] theorem read_nil (a : Nat) : read ([] : Memory w) a = 0 := rfl

theorem wf_nil (n : Nat) : wf n ([] : Memory w) := ⟨List.Pairwise.nil, fun _ h => nomatch h⟩

theorem wf_tail {n : Nat} {c : Nat × BitVec w} {m : Memory w} (h : wf n (c :: m)) : wf n m :=
  ⟨(List.pairwise_cons.mp h.1).2, fun d hd => h.2 d (List.mem_cons_of_mem _ hd)⟩

/-- Below the first address of a memory's rest, every cell reads 0. -/
theorem read_eq_zero {m : Memory w} {a : Nat} (h : ∀ c ∈ m, a < c.1) : read m a = 0 := by
  induction m with
  | nil => rfl
  | cons c m ih =>
    obtain ⟨k, v⟩ := c
    have hk : a < k := h (k, v) (by simp)
    rw [read, if_neg (by omega)]
    exact ih fun d hd => h d (List.mem_cons_of_mem _ hd)

/-- Every address written is new or was there before. -/
theorem mem_write {m : Memory w} {a : Nat} {v : BitVec w} {c : Nat × BitVec w} (h : c ∈ write m a v) :
    (c = (a, v) ∧ v ≠ 0) ∨ c ∈ m := by
  induction m with
  | nil =>
    rw [write] at h
    split at h
    · cases h
    · exact .inl ⟨by simpa using h, ‹_›⟩
  | cons d m ih =>
    obtain ⟨k, u⟩ := d
    rw [write] at h
    split at h
    · split at h
      · exact .inr h
      · rcases List.mem_cons.mp h with h | h
        · exact .inl ⟨h, ‹_›⟩
        · exact .inr h
    · split at h
      · split at h
        · exact .inr (List.mem_cons_of_mem _ h)
        · rcases List.mem_cons.mp h with h | h
          · exact .inl ⟨h, ‹_›⟩
          · exact .inr (List.mem_cons_of_mem _ h)
      · rcases List.mem_cons.mp h with h | h
        · exact .inr (by simp [h])
        · rcases ih h with h | h
          · exact .inl h
          · exact .inr (List.mem_cons_of_mem _ h)

/-- A write inside the memory's size keeps the canonical form. -/
theorem write_wf {n : Nat} {m : Memory w} (h : wf n m) {a : Nat} (ha : a < n) (v : BitVec w) :
    wf n (write m a v) := by
  refine ⟨?_, fun c hc => ?_⟩
  · have hs := h.1
    clear h
    induction m with
    | nil => rw [write]; split <;> simp
    | cons d m ih =>
      obtain ⟨k, u⟩ := d
      have hk := List.pairwise_cons.mp hs
      rw [write]
      split
      · split
        · exact hs
        · refine List.pairwise_cons.mpr ⟨fun c hc => ?_, hs⟩
          rcases List.mem_cons.mp hc with rfl | hc
          · assumption
          · exact Nat.lt_trans ‹a < k› (hk.1 c hc)
      · split
        · split
          · exact hk.2
          · exact List.pairwise_cons.mpr ⟨fun c hc => by have := hk.1 c hc; simp_all, hk.2⟩
        · refine List.pairwise_cons.mpr ⟨fun c hc => ?_, ih hk.2⟩
          rcases mem_write hc with ⟨rfl, _⟩ | hc
          · change k < a; omega
          · exact hk.1 c hc
  · rcases mem_write hc with ⟨rfl, hv⟩ | hc
    · exact ⟨ha, hv⟩
    · exact h.2 c hc

/-- Read after write, another cell: no canonical form needed. -/
theorem read_write_other {m : Memory w} {a b : Nat} (v : BitVec w) (hne : b ≠ a) :
    read (write m a v) b = read m b := by
  induction m with
  | nil => rw [write]; split <;> simp [read, unlisted, Ne.symm hne]
  | cons d m ih =>
    obtain ⟨k, u⟩ := d
    rw [write]
    split
    · split
      · rfl
      · rw [read, if_neg (Ne.symm hne)]
    · split
      · subst_vars
        split <;> simp [read, Ne.symm hne]
      · rw [read, read, ih]

/-- Read after write, the same cell. -/
theorem read_write_same {n : Nat} {m : Memory w} (h : wf n m) (a : Nat) (v : BitVec w) :
    read (write m a v) a = v := by
  induction m with
  | nil => rw [write]; split <;> simp_all [read, unlisted]
  | cons d m ih =>
    obtain ⟨k, u⟩ := d
    have hk := (List.pairwise_cons.mp h.1).1
    rw [write]
    split
    · split
      · rw [‹v = _›]
        refine read_eq_zero fun c hc => ?_
        rcases List.mem_cons.mp hc with rfl | hc
        · assumption
        · exact Nat.lt_trans ‹a < k› (hk c hc)
      · simp [read]
    · split
      · subst_vars
        split
        · rw [‹v = _›]
          exact read_eq_zero hk
        · simp [read]
      · rw [read, if_neg (by omega)]
        exact ih (wf_tail h)

/-- Read after write, either cell. -/
theorem read_write {n : Nat} {m : Memory w} (h : wf n m) (a b : Nat) (v : BitVec w) :
    read (write m a v) b = if b = a then v else read m b := by
  split
  · subst_vars; exact read_write_same h _ v
  · exact read_write_other v ‹_›

/-- A cell outside the memory's size reads 0. -/
theorem read_outside {n : Nat} {m : Memory w} (h : wf n m) {a : Nat} (ha : n ≤ a) : read m a = 0 := by
  induction m with
  | nil => rfl
  | cons d m ih =>
    obtain ⟨k, u⟩ := d
    have hk : k < n := (h.2 (k, u) (by simp)).1
    rw [read, if_neg (by omega)]
    exact ih (wf_tail h)

/-- Equal memories are equal lists. -/
theorem ext {n : Nat} {m m' : Memory w} (h : wf n m) (h' : wf n m') (heq : ∀ a, read m a = read m' a) : m = m' := by
  induction m generalizing m' with
  | nil =>
    cases m' with
    | nil => rfl
    | cons d m' =>
      have := heq d.1
      have hd := (h'.2 d (by simp)).2
      rw [read, read, if_pos rfl] at this
      exact absurd this.symm hd
  | cons c m ih =>
    obtain ⟨k, u⟩ := c
    have hu := (h.2 (k, u) (by simp)).2
    have hk := (List.pairwise_cons.mp h.1).1
    cases m' with
    | nil =>
      have := heq k
      rw [read, read, if_pos rfl] at this
      exact absurd this hu
    | cons d m' =>
      obtain ⟨l, u'⟩ := d
      have hu' := (h'.2 (l, u') (by simp)).2
      have hl := (List.pairwise_cons.mp h'.1).1
      have hkl : k = l := by
        rcases Nat.lt_trichotomy k l with hlt | heq' | hlt
        · have := heq k
          rw [read, if_pos rfl, read_eq_zero (m := (l, u') :: m')] at this
          · exact absurd this hu
          · intro c hc
            rcases List.mem_cons.mp hc with rfl | hc
            · exact hlt
            · exact Nat.lt_trans hlt (hl c hc)
        · exact heq'
        · have := heq l
          rw [read_eq_zero (m := (k, u) :: m), read, if_pos rfl] at this
          · exact absurd this.symm hu'
          · intro c hc
            rcases List.mem_cons.mp hc with rfl | hc
            · exact hlt
            · exact Nat.lt_trans hlt (hk c hc)
      subst hkl
      have huu : u = u' := by simpa [read] using heq k
      subst huu
      rw [ih (wf_tail h) (wf_tail h') fun a => ?_]
      rcases Nat.lt_or_ge k a with hlt | hge
      · have := heq a
        rwa [read, read, if_neg (by omega), if_neg (by omega)] at this
      · rw [read_eq_zero fun c hc => Nat.lt_of_le_of_lt hge (hk c hc),
          read_eq_zero fun c hc => Nat.lt_of_le_of_lt hge (hl c hc)]

/-- The cells of a tabulated memory from address `k` up. -/
theorem tabulate_aux (f : Nat → BitVec w) (n k : Nat) :
    wf (k + n) ((List.range' k n).filterMap fun a => if f a = unlisted w then none else some (a, f a)) ∧
    (∀ c ∈ (List.range' k n).filterMap fun a => if f a = unlisted w then none else some (a, f a), k ≤ c.1) ∧
    ∀ a, read ((List.range' k n).filterMap fun a => if f a = unlisted w then none else some (a, f a)) a =
      if k ≤ a ∧ a < k + n then f a else 0 := by
  induction n generalizing k with
  | zero => exact ⟨wf_nil _, by simp, fun a => by rw [if_neg (by omega)]; rfl⟩
  | succ n ih =>
    obtain ⟨hw, hm, hr⟩ := ih (k + 1)
    rw [List.range'_succ]
    rw [show k + 1 + n = k + (n + 1) by omega] at hw hr
    by_cases hz : f k = unlisted w
    · simp only [List.filterMap_cons, hz, if_true]
      refine ⟨hw, fun c hc => by have := hm c hc; omega, fun a => ?_⟩
      rw [hr]
      by_cases hak : a = k
      · subst hak
        rw [if_neg (by omega), if_pos (by omega), hz]; rfl
      · by_cases h : k ≤ a ∧ a < k + (n + 1)
        · rw [if_pos (by omega), if_pos h]
        · rw [if_neg (by omega), if_neg h]
    · simp only [List.filterMap_cons, hz, if_false]
      refine ⟨⟨List.pairwise_cons.mpr ⟨fun c hc => ?_, hw.1⟩, fun c hc => ?_⟩, fun c hc => ?_, fun a => ?_⟩
      · exact Nat.lt_of_succ_le (hm c hc)
      · rcases List.mem_cons.mp hc with rfl | hc
        · exact ⟨by change k < _; omega, hz⟩
        · exact hw.2 c hc
      · rcases List.mem_cons.mp hc with rfl | hc
        · exact Nat.le_refl _
        · have := hm c hc; omega
      · rw [read, hr]
        by_cases hak : k = a
        · subst hak
          rw [if_pos rfl, if_pos (by omega)]
        · rw [if_neg hak]
          by_cases h : k ≤ a ∧ a < k + (n + 1)
          · rw [if_pos (by omega), if_pos h]
          · rw [if_neg (by omega), if_neg h]

theorem tabulate_wf (n : Nat) (f : Nat → BitVec w) : wf n (tabulate n f) := by
  have := (tabulate_aux f n 0).1
  rw [Nat.zero_add, ← List.range_eq_range'] at this
  rwa [tabulate]

theorem read_tabulate (n : Nat) (f : Nat → BitVec w) (a : Nat) :
    read (tabulate n f) a = if a < n then f a else 0 := by
  have := (tabulate_aux f n 0).2.2 a
  rw [← List.range_eq_range'] at this
  simpa [tabulate] using this

theorem ofImage_wf (n : Nat) (image : List Byte) : wf n (ofImage n image) := tabulate_wf n _

theorem read_ofImage (n : Nat) (image : List Byte) (a : Nat) :
    read (ofImage n image) a = if a < n then image.getD a 0 else 0 := read_tabulate n _ a

/-- An image with no byte is the memory with no cell listed. -/
theorem ofImage_nil (n : Nat) : ofImage n [] = [] := by
  simp [ofImage, tabulate, unlisted]

end Sys2Proof.Machine.Memory
end

