-- ==== Sys2Proof/Laws/Ppu.lean ====
section
/-! SUPPORT. What the picture unit's register window and VRAM access can change. -/

namespace Sys2Proof.Machine

@[simp] theorem Ppu.advance_v (p : Ppu) : p.advance.v = p.v + if p.ctrl.getLsbD 2 then 32 else 1 := rfl

/-- Pattern memory, R66. -/
theorem vramRead_chr {p : Ppu} {a : Nat} (h : a % 0x4000 ≤ 0x1FFF) : vramRead p a = p.chr.read (a % 0x4000) := by
  rw [vramRead]; exact if_pos h

/-- Nametable RAM, R66. -/
theorem vramRead_nt {p : Ppu} {a : Nat} (h : 0x2000 ≤ a % 0x4000) (h' : a % 0x4000 ≤ 0x2FFF) :
    vramRead p a = p.nt.read (a % 0x4000 % 0x0800) := by
  rw [vramRead, if_neg (by omega), if_pos h']

/-- The unmapped hole, R66. -/
theorem vramRead_hole {p : Ppu} {a : Nat} (h : 0x3000 ≤ a % 0x4000) (h' : a % 0x4000 ≤ 0x3EFF) : vramRead p a = 0 := by
  rw [vramRead, if_neg (by omega), if_neg (by omega), if_pos h']

/-- Palette RAM, R66. -/
theorem vramRead_pal {p : Ppu} {a : Nat} (h : 0x3F00 ≤ a % 0x4000) :
    vramRead p a = (p.pal.read (a % 0x4000 % 0x20)).setWidth 8 := by
  rw [vramRead, if_neg (by omega), if_neg (by omega), if_neg (by omega)]

/-- Pattern memory, R67. -/
theorem vramWrite_chr {p : Ppu} {a : Nat} (h : a % 0x4000 ≤ 0x1FFF) (d : Byte) :
    vramWrite p a d = { p with chr := p.chr.write (a % 0x4000) d } := by
  rw [vramWrite]; exact if_pos h

/-- Nametable RAM, R67. -/
theorem vramWrite_nt {p : Ppu} {a : Nat} (h : 0x2000 ≤ a % 0x4000) (h' : a % 0x4000 ≤ 0x2FFF) (d : Byte) :
    vramWrite p a d = { p with nt := p.nt.write (a % 0x4000 % 0x0800) d } := by
  rw [vramWrite]
  rw [if_neg (by omega), if_pos h']

/-- The unmapped hole, R67. -/
theorem vramWrite_hole {p : Ppu} {a : Nat} (h : 0x3000 ≤ a % 0x4000) (h' : a % 0x4000 ≤ 0x3EFF) (d : Byte) :
    vramWrite p a d = p := by
  rw [vramWrite]
  rw [if_neg (by omega), if_neg (by omega), if_pos h']

/-- Palette RAM, R67. -/
theorem vramWrite_pal {p : Ppu} {a : Nat} (h : 0x3F00 ≤ a % 0x4000) (d : Byte) :
    vramWrite p a d = { p with pal := p.pal.write (a % 0x4000 % 0x20) (d.setWidth 6) } := by
  rw [vramWrite]
  rw [if_neg (by omega), if_neg (by omega), if_neg (by omega)]

/-- A data read below palette space is buffered, R221. -/
theorem readData_low {p : Ppu} (h : p.v.toNat % 0x4000 ≤ 0x3EFF) :
    readData p = (p.rdbuf, Ppu.advance { p with rdbuf := vramRead p (p.v.toNat % 0x4000) }) := by
  rw [readData]; exact if_neg (by omega)

/-- A data read in palette space is immediate, R221. -/
theorem readData_high {p : Ppu} (h : 0x3F00 ≤ p.v.toNat % 0x4000) :
    readData p = (vramRead p (p.v.toNat % 0x4000),
      Ppu.advance { p with rdbuf := vramRead p (p.v.toNat % 0x4000 - 0x1000) }) := by
  rw [readData]; exact if_pos h

/-- A data read advances v and fills the read buffer. -/
theorem readData_frame (p : Ppu) : ∃ b, (readData p).2 = Ppu.advance { p with rdbuf := b } := by
  by_cases h : 0x3F00 ≤ p.v.toNat % 0x4000
  · rw [readData_high h]; exact ⟨_, rfl⟩
  · rw [readData_low (by omega)]; exact ⟨_, rfl⟩

theorem ppuRegRead_2 (p : Ppu) : ppuRegRead 2 p = readStatus p := rfl
theorem ppuRegRead_4 (p : Ppu) : ppuRegRead 4 p = readOamData p := rfl
theorem ppuRegRead_7 (p : Ppu) : ppuRegRead 7 p = readData p := rfl

/-- A write-only register reads 0 and changes nothing, R214. -/
theorem ppuRegRead_zero {n : Nat} (h2 : n ≠ 2) (h4 : n ≠ 4) (h7 : n ≠ 7) (p : Ppu) : ppuRegRead n p = (0, p) := by
  rw [ppuRegRead, if_neg h2, if_neg h4, if_neg h7]

/-- A window read of any register but status and data changes nothing. -/
theorem ppuRegRead_idle {n : Nat} (h2 : n ≠ 2) (h7 : n ≠ 7) (p : Ppu) : (ppuRegRead n p).2 = p := by
  by_cases h4 : n = 4
  · rw [h4]; rfl
  · rw [ppuRegRead_zero h2 h4 h7]

/-- A window read changes the status, v, the toggle and the read buffer at most. -/
theorem ppuRegRead_frame (n : Nat) (p : Ppu) :
    ∃ st v w b, (ppuRegRead n p).2 = { p with status := st, v := v, w := w, rdbuf := b } := by
  by_cases h2 : n = 2
  · subst h2; exact ⟨_, _, _, _, rfl⟩
  · by_cases h7 : n = 7
    · subst h7
      obtain ⟨b, hb⟩ := readData_frame p
      rw [ppuRegRead_7, hb]
      exact ⟨p.status, _, p.w, b, rfl⟩
    · rw [ppuRegRead_idle h2 h7]
      exact ⟨p.status, p.v, p.w, p.rdbuf, rfl⟩

/-- What a window read leaves in the status register: the vblank bit is cleared by a status read. -/
theorem ppuRegRead_status (n : Nat) (p : Ppu) :
    (ppuRegRead n p).2.status = if n = 2 then p.status &&& 0x7F else p.status := by
  by_cases h2 : n = 2
  · subst h2; rfl
  · rw [if_neg h2]
    by_cases h7 : n = 7
    · subst h7
      obtain ⟨b, hb⟩ := readData_frame p
      rw [ppuRegRead_7, hb]
      rfl
    · rw [ppuRegRead_idle h2 h7]

/-- A VRAM write changes chr, nt or pal at most. -/
theorem vramWrite_frame (p : Ppu) (a : Nat) (d : Byte) :
    ∃ c n q, vramWrite p a d = { p with chr := c, nt := n, pal := q } := by
  unfold vramWrite
  simp only
  split
  · exact ⟨_, p.nt, p.pal, rfl⟩
  · split
    · exact ⟨p.chr, _, p.pal, rfl⟩
    · split
      · exact ⟨p.chr, p.nt, p.pal, rfl⟩
      · exact ⟨p.chr, p.nt, _, rfl⟩

/-- A data write stores through VRAM and advances v. -/
theorem writeData_frame (d : Byte) (p : Ppu) :
    ∃ c n q, writeData d p = Ppu.advance { p with chr := c, nt := n, pal := q } := by
  obtain ⟨c, n, q, h⟩ := vramWrite_frame p p.v.toNat d
  exact ⟨c, n, q, congrArg Ppu.advance h⟩

/-- A window write changes neither the status, nor the read buffer, nor the frame buffer. -/
theorem ppuRegWrite_frame (n : Nat) (d : Byte) (p : Ppu) :
    (ppuRegWrite n d p).status = p.status ∧ (ppuRegWrite n d p).rdbuf = p.rdbuf ∧ (ppuRegWrite n d p).fb = p.fb := by
  obtain ⟨c, m, q, h⟩ := writeData_frame d p
  unfold ppuRegWrite writeScroll writeAddr
  rw [h]
  repeat' split
  all_goals exact ⟨rfl, rfl, rfl⟩

theorem vramWrite_wf {p : Ppu} (h : PpuMemoriesOk p) (a : Nat) (d : Byte) : PpuMemoriesOk (vramWrite p a d) := by
  unfold vramWrite
  simp only
  split
  · exact ⟨h.oam, h.nt, h.pal, Memory.write_wf h.chr (by omega) d, h.fb⟩
  · split
    · exact ⟨h.oam, Memory.write_wf h.nt (Nat.mod_lt _ (by decide)) d, h.pal, h.chr, h.fb⟩
    · split
      · exact h
      · exact ⟨h.oam, h.nt, Memory.write_wf h.pal (Nat.mod_lt _ (by decide)) _, h.chr, h.fb⟩

/-- A window read keeps the canonical form of every memory. -/
theorem ppuRegRead_wf {p : Ppu} (h : PpuMemoriesOk p) (n : Nat) : PpuMemoriesOk (ppuRegRead n p).2 := by
  obtain ⟨_, _, _, _, e⟩ := ppuRegRead_frame n p
  rw [e]
  exact ⟨h.oam, h.nt, h.pal, h.chr, h.fb⟩

/-- A window write keeps the canonical form of every memory. -/
theorem ppuRegWrite_wf {p : Ppu} (h : PpuMemoriesOk p) (n : Nat) (d : Byte) : PpuMemoriesOk (ppuRegWrite n d p) := by
  have hv := vramWrite_wf h p.v.toNat d
  unfold ppuRegWrite writeCtrl writeOamData writeScroll writeAddr writeData Ppu.advance
  repeat' split
  all_goals first
    | exact ⟨h.oam, h.nt, h.pal, h.chr, h.fb⟩
    | exact ⟨hv.oam, hv.nt, hv.pal, hv.chr, hv.fb⟩
    | exact ⟨Memory.write_wf h.oam p.oamaddr.isLt d, h.nt, h.pal, h.chr, h.fb⟩

end Sys2Proof.Machine
end

