-- ==== Sys2Proof/Laws/State.lean ====
section
/-! SUPPORT. One lemma per field per named update of State, and of the two that write flags. -/

namespace Sys2Proof.Machine

@[simp] theorem State.setA_a (v : Byte) (s : State) : (s.setA v).cpu.a = v := rfl
@[simp] theorem State.setA_x (v : Byte) (s : State) : (s.setA v).cpu.x = s.cpu.x := rfl
@[simp] theorem State.setA_y (v : Byte) (s : State) : (s.setA v).cpu.y = s.cpu.y := rfl
@[simp] theorem State.setA_sp (v : Byte) (s : State) : (s.setA v).cpu.sp = s.cpu.sp := rfl
@[simp] theorem State.setA_p (v : Byte) (s : State) : (s.setA v).cpu.p = s.cpu.p := rfl
@[simp] theorem State.setA_pc (v : Byte) (s : State) : (s.setA v).cpu.pc = s.cpu.pc := rfl
@[simp] theorem State.setA_nmiPending (v : Byte) (s : State) : (s.setA v).cpu.nmiPending = s.cpu.nmiPending := rfl
@[simp] theorem State.setA_bus (v : Byte) (s : State) : (s.setA v).bus = s.bus := rfl
@[simp] theorem State.setA_ppu (v : Byte) (s : State) : (s.setA v).ppu = s.ppu := rfl
@[simp] theorem State.setA_drv (v : Byte) (s : State) : (s.setA v).drv = s.drv := rfl

@[simp] theorem State.setX_a (v : Byte) (s : State) : (s.setX v).cpu.a = s.cpu.a := rfl
@[simp] theorem State.setX_x (v : Byte) (s : State) : (s.setX v).cpu.x = v := rfl
@[simp] theorem State.setX_y (v : Byte) (s : State) : (s.setX v).cpu.y = s.cpu.y := rfl
@[simp] theorem State.setX_sp (v : Byte) (s : State) : (s.setX v).cpu.sp = s.cpu.sp := rfl
@[simp] theorem State.setX_p (v : Byte) (s : State) : (s.setX v).cpu.p = s.cpu.p := rfl
@[simp] theorem State.setX_pc (v : Byte) (s : State) : (s.setX v).cpu.pc = s.cpu.pc := rfl
@[simp] theorem State.setX_nmiPending (v : Byte) (s : State) : (s.setX v).cpu.nmiPending = s.cpu.nmiPending := rfl
@[simp] theorem State.setX_bus (v : Byte) (s : State) : (s.setX v).bus = s.bus := rfl
@[simp] theorem State.setX_ppu (v : Byte) (s : State) : (s.setX v).ppu = s.ppu := rfl
@[simp] theorem State.setX_drv (v : Byte) (s : State) : (s.setX v).drv = s.drv := rfl

@[simp] theorem State.setY_a (v : Byte) (s : State) : (s.setY v).cpu.a = s.cpu.a := rfl
@[simp] theorem State.setY_x (v : Byte) (s : State) : (s.setY v).cpu.x = s.cpu.x := rfl
@[simp] theorem State.setY_y (v : Byte) (s : State) : (s.setY v).cpu.y = v := rfl
@[simp] theorem State.setY_sp (v : Byte) (s : State) : (s.setY v).cpu.sp = s.cpu.sp := rfl
@[simp] theorem State.setY_p (v : Byte) (s : State) : (s.setY v).cpu.p = s.cpu.p := rfl
@[simp] theorem State.setY_pc (v : Byte) (s : State) : (s.setY v).cpu.pc = s.cpu.pc := rfl
@[simp] theorem State.setY_nmiPending (v : Byte) (s : State) : (s.setY v).cpu.nmiPending = s.cpu.nmiPending := rfl
@[simp] theorem State.setY_bus (v : Byte) (s : State) : (s.setY v).bus = s.bus := rfl
@[simp] theorem State.setY_ppu (v : Byte) (s : State) : (s.setY v).ppu = s.ppu := rfl
@[simp] theorem State.setY_drv (v : Byte) (s : State) : (s.setY v).drv = s.drv := rfl

@[simp] theorem State.setSp_a (v : Byte) (s : State) : (s.setSp v).cpu.a = s.cpu.a := rfl
@[simp] theorem State.setSp_x (v : Byte) (s : State) : (s.setSp v).cpu.x = s.cpu.x := rfl
@[simp] theorem State.setSp_y (v : Byte) (s : State) : (s.setSp v).cpu.y = s.cpu.y := rfl
@[simp] theorem State.setSp_sp (v : Byte) (s : State) : (s.setSp v).cpu.sp = v := rfl
@[simp] theorem State.setSp_p (v : Byte) (s : State) : (s.setSp v).cpu.p = s.cpu.p := rfl
@[simp] theorem State.setSp_pc (v : Byte) (s : State) : (s.setSp v).cpu.pc = s.cpu.pc := rfl
@[simp] theorem State.setSp_nmiPending (v : Byte) (s : State) : (s.setSp v).cpu.nmiPending = s.cpu.nmiPending := rfl
@[simp] theorem State.setSp_bus (v : Byte) (s : State) : (s.setSp v).bus = s.bus := rfl
@[simp] theorem State.setSp_ppu (v : Byte) (s : State) : (s.setSp v).ppu = s.ppu := rfl
@[simp] theorem State.setSp_drv (v : Byte) (s : State) : (s.setSp v).drv = s.drv := rfl

@[simp] theorem State.setP_a (v : Byte) (s : State) : (s.setP v).cpu.a = s.cpu.a := rfl
@[simp] theorem State.setP_x (v : Byte) (s : State) : (s.setP v).cpu.x = s.cpu.x := rfl
@[simp] theorem State.setP_y (v : Byte) (s : State) : (s.setP v).cpu.y = s.cpu.y := rfl
@[simp] theorem State.setP_sp (v : Byte) (s : State) : (s.setP v).cpu.sp = s.cpu.sp := rfl
@[simp] theorem State.setP_p (v : Byte) (s : State) : (s.setP v).cpu.p = v := rfl
@[simp] theorem State.setP_pc (v : Byte) (s : State) : (s.setP v).cpu.pc = s.cpu.pc := rfl
@[simp] theorem State.setP_nmiPending (v : Byte) (s : State) : (s.setP v).cpu.nmiPending = s.cpu.nmiPending := rfl
@[simp] theorem State.setP_bus (v : Byte) (s : State) : (s.setP v).bus = s.bus := rfl
@[simp] theorem State.setP_ppu (v : Byte) (s : State) : (s.setP v).ppu = s.ppu := rfl
@[simp] theorem State.setP_drv (v : Byte) (s : State) : (s.setP v).drv = s.drv := rfl

@[simp] theorem State.setPc_a (v : Word) (s : State) : (s.setPc v).cpu.a = s.cpu.a := rfl
@[simp] theorem State.setPc_x (v : Word) (s : State) : (s.setPc v).cpu.x = s.cpu.x := rfl
@[simp] theorem State.setPc_y (v : Word) (s : State) : (s.setPc v).cpu.y = s.cpu.y := rfl
@[simp] theorem State.setPc_sp (v : Word) (s : State) : (s.setPc v).cpu.sp = s.cpu.sp := rfl
@[simp] theorem State.setPc_p (v : Word) (s : State) : (s.setPc v).cpu.p = s.cpu.p := rfl
@[simp] theorem State.setPc_pc (v : Word) (s : State) : (s.setPc v).cpu.pc = v := rfl
@[simp] theorem State.setPc_nmiPending (v : Word) (s : State) : (s.setPc v).cpu.nmiPending = s.cpu.nmiPending := rfl
@[simp] theorem State.setPc_bus (v : Word) (s : State) : (s.setPc v).bus = s.bus := rfl
@[simp] theorem State.setPc_ppu (v : Word) (s : State) : (s.setPc v).ppu = s.ppu := rfl
@[simp] theorem State.setPc_drv (v : Word) (s : State) : (s.setPc v).drv = s.drv := rfl

@[simp] theorem State.withZN_a (v : Byte) (s : State) : (s.withZN v).cpu.a = s.cpu.a := rfl
@[simp] theorem State.withZN_x (v : Byte) (s : State) : (s.withZN v).cpu.x = s.cpu.x := rfl
@[simp] theorem State.withZN_y (v : Byte) (s : State) : (s.withZN v).cpu.y = s.cpu.y := rfl
@[simp] theorem State.withZN_sp (v : Byte) (s : State) : (s.withZN v).cpu.sp = s.cpu.sp := rfl
@[simp] theorem State.withZN_p (v : Byte) (s : State) : (s.withZN v).cpu.p = setZN v s.cpu.p := rfl
@[simp] theorem State.withZN_pc (v : Byte) (s : State) : (s.withZN v).cpu.pc = s.cpu.pc := rfl
@[simp] theorem State.withZN_nmiPending (v : Byte) (s : State) : (s.withZN v).cpu.nmiPending = s.cpu.nmiPending := rfl
@[simp] theorem State.withZN_bus (v : Byte) (s : State) : (s.withZN v).bus = s.bus := rfl
@[simp] theorem State.withZN_ppu (v : Byte) (s : State) : (s.withZN v).ppu = s.ppu := rfl
@[simp] theorem State.withZN_drv (v : Byte) (s : State) : (s.withZN v).drv = s.drv := rfl

@[simp] theorem State.withFlag_a (f : Flag) (b : Bool) (s : State) : (s.withFlag f b).cpu.a = s.cpu.a := rfl
@[simp] theorem State.withFlag_x (f : Flag) (b : Bool) (s : State) : (s.withFlag f b).cpu.x = s.cpu.x := rfl
@[simp] theorem State.withFlag_y (f : Flag) (b : Bool) (s : State) : (s.withFlag f b).cpu.y = s.cpu.y := rfl
@[simp] theorem State.withFlag_sp (f : Flag) (b : Bool) (s : State) : (s.withFlag f b).cpu.sp = s.cpu.sp := rfl
@[simp] theorem State.withFlag_p (f : Flag) (b : Bool) (s : State) : (s.withFlag f b).cpu.p = setFlag f b s.cpu.p := rfl
@[simp] theorem State.withFlag_pc (f : Flag) (b : Bool) (s : State) : (s.withFlag f b).cpu.pc = s.cpu.pc := rfl
@[simp] theorem State.withFlag_nmiPending (f : Flag) (b : Bool) (s : State) : (s.withFlag f b).cpu.nmiPending = s.cpu.nmiPending := rfl
@[simp] theorem State.withFlag_bus (f : Flag) (b : Bool) (s : State) : (s.withFlag f b).bus = s.bus := rfl
@[simp] theorem State.withFlag_ppu (f : Flag) (b : Bool) (s : State) : (s.withFlag f b).ppu = s.ppu := rfl
@[simp] theorem State.withFlag_drv (f : Flag) (b : Bool) (s : State) : (s.withFlag f b).drv = s.drv := rfl

end Sys2Proof.Machine
end

