-- ==== Sys2Proof/Laws/Bus.lean ====
section
/-! SUPPORT. What one bus access can change (20_memory.md R50 to R63). -/

namespace Sys2Proof.Machine

/-- A bus read changes the picture unit and the controller's shift register at most. -/
theorem memRead_frame (a : Word) (s : State) :
    (memRead a s).2 =
      { s with ppu := (memRead a s).2.ppu, bus.ctlShift := (memRead a s).2.bus.ctlShift } := by
  unfold memRead
  simp only
  repeat' split
  all_goals rfl

theorem memRead_changes (a : Word) (s : State) : ∃ p c, (memRead a s).2 = { s with ppu := p, bus.ctlShift := c } :=
  ⟨_, _, memRead_frame a s⟩

/-- Everything a bus read can change: the status register, the data port's buffer, address and toggle, and the controller's
shift register. -/
theorem memRead_effects (a : Word) (s : State) : ∃ st v w b c,
    (memRead a s).2 =
      { s with ppu := { s.ppu with status := st, v := v, w := w, rdbuf := b }, bus.ctlShift := c } := by
  rw [memRead_frame]
  unfold memRead
  simp only
  split
  · exact ⟨_, _, _, _, _, rfl⟩
  · split
    · obtain ⟨st, v, w, b, h⟩ := ppuRegRead_frame (a.toNat % 8) s.ppu
      exact ⟨st, v, w, b, _, by rw [h]⟩
    · repeat' split
      all_goals exact ⟨s.ppu.status, s.ppu.v, s.ppu.w, s.ppu.rdbuf, _, rfl⟩

@[simp] theorem memRead_cpu (a : Word) (s : State) : (memRead a s).2.cpu = s.cpu := by rw [memRead_frame]
@[simp] theorem memRead_drv (a : Word) (s : State) : (memRead a s).2.drv = s.drv := by rw [memRead_frame]
@[simp] theorem memRead_ram (a : Word) (s : State) : (memRead a s).2.bus.ram = s.bus.ram := by rw [memRead_frame]
@[simp] theorem memRead_prg (a : Word) (s : State) : (memRead a s).2.bus.prg = s.bus.prg := by rw [memRead_frame]

theorem memRead_ctlStrobe (a : Word) (s : State) : (memRead a s).2.bus.ctlStrobe = s.bus.ctlStrobe := by
  rw [memRead_frame]
theorem memRead_ctlSnapshot (a : Word) (s : State) : (memRead a s).2.bus.ctlSnapshot = s.bus.ctlSnapshot := by
  rw [memRead_frame]

/-- The picture unit after a bus read: unchanged, or as one window read leaves it. -/
theorem memRead_ppu (a : Word) (s : State) :
    (memRead a s).2.ppu = s.ppu ∨ ∃ n, (memRead a s).2.ppu = (ppuRegRead n s.ppu).2 := by
  unfold memRead
  simp only
  split
  · exact .inl rfl
  · split
    · exact .inr ⟨_, rfl⟩
    · repeat' split
      all_goals exact .inl rfl

theorem memRead_ppu_wf {s : State} (h : PpuMemoriesOk s.ppu) (a : Word) : PpuMemoriesOk (memRead a s).2.ppu := by
  rcases memRead_ppu a s with e | ⟨n, e⟩ <;> rw [e]
  · exact h
  · exact ppuRegRead_wf h n

theorem memRead_wf {s : State} (h : MemoriesOk s) (a : Word) : MemoriesOk (memRead a s).2 :=
  ⟨by rw [memRead_ram]; exact h.ram, by rw [memRead_prg]; exact h.prg, memRead_ppu_wf h.ppu a⟩

/-- A read of RAM (R53). -/
theorem memRead_of_ram {a : Word} (h : a.toNat ≤ 0x1FFF) (s : State) :
    memRead a s = (s.bus.ram.read (a.toNat % 0x0800), s) := by
  rw [memRead]; exact if_pos h

/-- A read of ROM (R52). -/
theorem memRead_of_rom {a : Word} (h : 0x8000 ≤ a.toNat) (s : State) :
    memRead a s = (s.bus.prg.read (a.toNat - 0x8000), s) := by
  rw [memRead]
  simp only
  rw [if_neg (by omega), if_neg (by omega), if_neg (by omega), if_pos h]

/-- A read in the register window (R54). -/
theorem memRead_of_window {a : Word} (h : 0x2000 ≤ a.toNat) (h' : a.toNat ≤ 0x3FFF) (s : State) :
    memRead a s =
      ((ppuRegRead (a.toNat % 8) s.ppu).1, { s with ppu := (ppuRegRead (a.toNat % 8) s.ppu).2 }) := by
  rw [memRead]
  simp only
  rw [if_neg (by omega), if_pos h']

/-- A write in the register window (R54). -/
theorem memWrite_of_window {a : Word} (h : 0x2000 ≤ a.toNat) (h' : a.toNat ≤ 0x3FFF) (d : Byte) (s : State) :
    memWrite a d s = { s with ppu := ppuRegWrite (a.toNat % 8) d s.ppu } := by
  rw [memWrite]
  simp only
  rw [if_neg (by omega), if_pos h']

/-- A write to RAM (R53). -/
theorem memWrite_of_ram {a : Word} (h : a.toNat ≤ 0x1FFF) (d : Byte) (s : State) :
    memWrite a d s = { s with bus.ram := s.bus.ram.write (a.toNat % 0x0800) d } := by
  rw [memWrite]; exact if_pos h

/-- A read of the controller port (R63). -/
theorem memRead_of_controller (s : State) :
    memRead 0x4016 s = ((controllerRead s.bus).1, { s with bus := (controllerRead s.bus).2 }) := rfl

/-- A write of the controller port (R62). -/
theorem memWrite_of_controller (d : Byte) (s : State) :
    memWrite 0x4016 d s = { s with bus := controllerWrite d s.bus } := rfl

/-- One byte of an OAM DMA changes what a read changes, and OAM. -/
theorem oamDmaByte_frame (d : Byte) (s : State) (i : Nat) :
    oamDmaByte d s i =
      { s with ppu := (oamDmaByte d s i).ppu, bus.ctlShift := (oamDmaByte d s i).bus.ctlShift } := by
  have h := memRead_frame (wordOf (BitVec.ofNat 8 i) d) s
  unfold oamDmaByte
  simp only
  rw [h]

theorem oamDma_fold_frame (d : Byte) (l : List Nat) (s : State) :
    l.foldl (oamDmaByte d) s =
      { s with ppu := (l.foldl (oamDmaByte d) s).ppu, bus.ctlShift := (l.foldl (oamDmaByte d) s).bus.ctlShift } := by
  induction l generalizing s with
  | nil => rfl
  | cons i l ih =>
    rw [List.foldl_cons, ih (oamDmaByte d s i)]
    rw [oamDmaByte_frame]

/-- A bus write changes RAM, the controller and the picture unit at most. -/
theorem memWrite_frame (a : Word) (d : Byte) (s : State) :
    memWrite a d s =
      { s with
        ppu := (memWrite a d s).ppu, bus.ram := (memWrite a d s).bus.ram
        bus.ctlStrobe := (memWrite a d s).bus.ctlStrobe, bus.ctlShift := (memWrite a d s).bus.ctlShift } := by
  unfold memWrite oamDma
  simp only
  split
  · rfl
  · split
    · rfl
    · split
      · rw [oamDma_fold_frame]
      · split <;> rfl

@[simp] theorem memWrite_cpu (a : Word) (d : Byte) (s : State) : (memWrite a d s).cpu = s.cpu := by rw [memWrite_frame]
@[simp] theorem memWrite_drv (a : Word) (d : Byte) (s : State) : (memWrite a d s).drv = s.drv := by rw [memWrite_frame]
@[simp] theorem memWrite_prg (a : Word) (d : Byte) (s : State) : (memWrite a d s).bus.prg = s.bus.prg := by
  rw [memWrite_frame]

theorem memWrite_ctlSnapshot (a : Word) (d : Byte) (s : State) :
    (memWrite a d s).bus.ctlSnapshot = s.bus.ctlSnapshot := by
  rw [memWrite_frame]

/-- A write outside RAM leaves RAM alone. -/
theorem memWrite_ram_of_not {a : Word} (h : ¬ a.toNat ≤ 0x1FFF) (d : Byte) (s : State) :
    (memWrite a d s).bus.ram = s.bus.ram := by
  unfold memWrite oamDma
  simp only
  rw [if_neg h]
  split
  · rfl
  · split
    · rw [oamDma_fold_frame]
    · split <;> rfl

theorem oamDmaByte_wf {s : State} (h : PpuMemoriesOk s.ppu) (d : Byte) (i : Nat) :
    PpuMemoriesOk (oamDmaByte d s i).ppu := by
  have hr := memRead_ppu_wf h (wordOf (BitVec.ofNat 8 i) d)
  exact ⟨Memory.write_wf hr.oam (Nat.mod_lt _ (by decide)) _, hr.nt, hr.pal, hr.chr, hr.fb⟩

theorem oamDma_fold_wf (d : Byte) (l : List Nat) {s : State} (h : PpuMemoriesOk s.ppu) :
    PpuMemoriesOk (l.foldl (oamDmaByte d) s).ppu := by
  induction l generalizing s with
  | nil => exact h
  | cons i l ih => exact ih (oamDmaByte_wf h d i)

/-- A bus write keeps the canonical form of every memory. -/
theorem memWrite_wf {s : State} (h : MemoriesOk s) (a : Word) (d : Byte) : MemoriesOk (memWrite a d s) := by
  have hd : PpuMemoriesOk (oamDma d s).ppu := oamDma_fold_wf d _ h.ppu
  refine ⟨?_, by rw [memWrite_prg]; exact h.prg, ?_⟩
  · by_cases hr : a.toNat ≤ 0x1FFF
    · rw [memWrite_of_ram hr]
      exact Memory.write_wf h.ram (Nat.mod_lt _ (by decide)) d
    · rw [memWrite_ram_of_not hr]
      exact h.ram
  · unfold memWrite
    simp only
    split
    · exact h.ppu
    · split
      · exact ppuRegWrite_wf h.ppu _ d
      · split
        · exact hd
        · split <;> exact h.ppu

/-- A read of a memory cell has no side effect, and gives the same byte wherever PC stands. -/
theorem memRead_of_cell {a : Word} (h : isCell a = true) (s : State) :
    (memRead a s).2 = s ∧ ∀ q, memRead a (s.setPc q) = ((memRead a s).1, s.setPc q) := by
  simp only [isCell, Bool.or_eq_true, decide_eq_true_eq] at h
  rcases h with h | h
  · simp [memRead_of_ram h]
  · simp [memRead_of_rom h]

/-- A bus read never changes the frame buffer. -/
theorem memRead_fb (a : Word) (s : State) : (memRead a s).2.ppu.fb = s.ppu.fb := by
  rcases memRead_ppu a s with e | ⟨n, e⟩ <;> rw [e]
  obtain ⟨_, _, _, _, e'⟩ := ppuRegRead_frame n s.ppu
  rw [e']

/-- A bus read clears the vblank bit at most. -/
theorem memRead_status (a : Word) (s : State) :
    (memRead a s).2.ppu.status = s.ppu.status ∨ (memRead a s).2.ppu.status = s.ppu.status &&& 0x7F := by
  rcases memRead_ppu a s with e | ⟨n, e⟩ <;> rw [e]
  · exact .inl rfl
  · rw [ppuRegRead_status]
    split
    · exact .inr rfl
    · exact .inl rfl

theorem and_7F_idem (v : Byte) : v &&& 0x7F &&& 0x7F = v &&& 0x7F := by
  rw [BitVec.and_assoc]; rfl

theorem oamDma_fold_status_fb (d : Byte) (l : List Nat) (s : State) :
    ((l.foldl (oamDmaByte d) s).ppu.status = s.ppu.status ∨
      (l.foldl (oamDmaByte d) s).ppu.status = s.ppu.status &&& 0x7F) ∧
    (l.foldl (oamDmaByte d) s).ppu.fb = s.ppu.fb := by
  induction l generalizing s with
  | nil => exact ⟨.inl rfl, rfl⟩
  | cons i l ih =>
    have hs : (oamDmaByte d s i).ppu.status = s.ppu.status ∨
        (oamDmaByte d s i).ppu.status = s.ppu.status &&& 0x7F := memRead_status _ s
    have hf : (oamDmaByte d s i).ppu.fb = s.ppu.fb := memRead_fb _ s
    obtain ⟨h, h'⟩ := ih (oamDmaByte d s i)
    refine ⟨?_, h'.trans hf⟩
    rcases h with h | h <;> rcases hs with hs | hs <;> rw [List.foldl_cons, h, hs]
    · exact .inl rfl
    · exact .inr rfl
    · exact .inr rfl
    · exact .inr (and_7F_idem _)

/-- A bus write clears the vblank bit at most (through the reads of an OAM DMA), and never changes the frame buffer. -/
theorem memWrite_status_fb (a : Word) (d : Byte) (s : State) :
    ((memWrite a d s).ppu.status = s.ppu.status ∨ (memWrite a d s).ppu.status = s.ppu.status &&& 0x7F) ∧
      (memWrite a d s).ppu.fb = s.ppu.fb := by
  unfold memWrite
  simp only
  split
  · exact ⟨.inl rfl, rfl⟩
  · split
    · obtain ⟨h, -, h'⟩ := ppuRegWrite_frame (a.toNat % 8) d s.ppu
      exact ⟨.inl h, h'⟩
    · split
      · exact oamDma_fold_status_fb d _ s
      · split <;> exact ⟨.inl rfl, rfl⟩

end Sys2Proof.Machine
end

