-- ==== Sys2Proof/Laws/Stack.lean ====
section
/-! SUPPORT. Accesses that never leave RAM or ROM, as plain reads and writes of a cell: page zero, the stack page and the
vectors (20_memory.md R52, R53), and the stack and trap operations over them (10_state.md R27, R28; R202, R203, R276). -/

namespace Sys2Proof.Machine

theorem wordOf_toNat (lo hi : Byte) : (wordOf lo hi).toNat = hi.toNat * 256 + lo.toNat := by
  have h := lo.isLt
  rw [wordOf, BitVec.toNat_append, Nat.shiftLeft_eq, Nat.mul_comm, ← Nat.two_pow_add_eq_or_of_lt h, Nat.mul_comm]

@[simp] theorem lowByte_wordOf (lo hi : Byte) : lowByte (wordOf lo hi) = lo := by
  apply BitVec.eq_of_toNat_eq
  have := lo.isLt
  simp only [lowByte, BitVec.toNat_setWidth, wordOf_toNat]
  omega

@[simp] theorem highByte_wordOf (lo hi : Byte) : highByte (wordOf lo hi) = hi := by
  apply BitVec.eq_of_toNat_eq
  have := lo.isLt
  have := hi.isLt
  simp only [highByte, BitVec.extractLsb'_toNat, wordOf_toNat, Nat.shiftRight_eq_div_pow]
  omega

@[simp] theorem wordOf_bytes (w : Word) : wordOf (lowByte w) (highByte w) = w := by
  apply BitVec.eq_of_toNat_eq
  have := w.isLt
  simp only [wordOf_toNat, highByte, lowByte, BitVec.extractLsb'_toNat, BitVec.toNat_setWidth,
    Nat.shiftRight_eq_div_pow]
  omega

/-- The stack cell's index in RAM. -/
theorem stackSlot_toNat (sp : Byte) : (stackSlot sp).toNat = 0x100 + sp.toNat := by
  rw [stackSlot, wordOf_toNat]
  rfl

/-- A read in page zero. -/
theorem memRead_zp (z : Byte) (s : State) : memRead (wordOf z 0) s = (s.bus.ram.read z.toNat, s) := by
  have hz := z.isLt
  have h : (wordOf z 0).toNat = z.toNat := by rw [wordOf_toNat]; simp
  rw [memRead_of_ram (by omega), h, Nat.mod_eq_of_lt (by omega)]

/-- A read in the stack page. -/
theorem memRead_stack (sp : Byte) (s : State) :
    memRead (stackSlot sp) s = (s.bus.ram.read (0x100 + sp.toNat), s) := by
  have h := sp.isLt
  rw [memRead_of_ram (by rw [stackSlot_toNat]; omega), stackSlot_toNat, Nat.mod_eq_of_lt (by omega)]

/-- A write in the stack page. -/
theorem memWrite_stack (sp v : Byte) (s : State) :
    memWrite (stackSlot sp) v s = { s with bus.ram := s.bus.ram.write (0x100 + sp.toNat) v } := by
  have h := sp.isLt
  rw [memWrite_of_ram (by rw [stackSlot_toNat]; omega), stackSlot_toNat, Nat.mod_eq_of_lt (by omega)]

/-- A pointer in page zero, read without a side effect. -/
theorem read16zp_eq (z : Byte) (s : State) :
    read16zp z s = (wordOf (s.bus.ram.read z.toNat) (s.bus.ram.read (z + 1).toNat), s) := by
  rw [read16zp]
  simp only [memRead_zp]

/-- A word in ROM, read without a side effect. -/
theorem read16_rom {a : Word} (h : 0x8000 ≤ a.toNat) (h' : a.toNat < 0xFFFF) (s : State) :
    read16 a s = (wordOf (s.bus.prg.read (a.toNat - 0x8000)) (s.bus.prg.read (a.toNat + 1 - 0x8000)), s) := by
  have h1 : (a + 1).toNat = a.toNat + 1 := by
    rw [BitVec.toNat_add]
    exact Nat.mod_eq_of_lt (by simp; omega)
  rw [read16]
  simp only [memRead_of_rom h, memRead_of_rom (a := a + 1) (by omega), h1]

/-- A push changes one RAM cell and S. -/
theorem push_eq (v : Byte) (s : State) :
    push v s = { s with bus.ram := s.bus.ram.write (0x100 + s.cpu.sp.toNat) v, cpu.sp := s.cpu.sp - 1 } := by
  rw [push]
  simp only [memWrite_stack]
  rfl

/-- A pull reads one RAM cell and changes S. -/
theorem pull_eq (s : State) :
    pull s = (s.bus.ram.read (0x100 + (s.cpu.sp + 1).toNat), s.setSp (s.cpu.sp + 1)) := by
  rw [pull]
  simp only [memRead_stack, State.setSp_sp, State.setSp_bus]

/-- The stack after a word is pushed with S holding `sp`. -/
def ramPushWord (sp : Byte) (w : Word) (ram : Memory 8) : Memory 8 :=
  (ram.write (0x100 + sp.toNat) (highByte w)).write (0x100 + (sp - 1).toNat) (lowByte w)

/-- The word on top of the stack when S holds `sp`. -/
def ramTopWord (sp : Byte) (ram : Memory 8) : Word :=
  wordOf (ram.read (0x100 + (sp + 1).toNat)) (ram.read (0x100 + (sp + 2).toNat))

theorem pushWord_eq (w : Word) (s : State) :
    pushWord w s = { s with bus.ram := ramPushWord s.cpu.sp w s.bus.ram, cpu.sp := s.cpu.sp - 2 } := by
  have h : s.cpu.sp - 1 - 1 = s.cpu.sp - 2 := by
    rw [BitVec.sub_sub]; rfl
  rw [pushWord, push_eq, push_eq]
  simp only [h]
  rfl

theorem pullWord_eq (s : State) :
    pullWord s = (ramTopWord s.cpu.sp s.bus.ram, s.setSp (s.cpu.sp + 2)) := by
  have h : s.cpu.sp + 1 + 1 = s.cpu.sp + 2 := by
    rw [BitVec.add_assoc]; rfl
  rw [pullWord]
  simp only [pull_eq, State.setSp_sp, State.setSp_bus, h]
  rfl

/-- The stack after a trap's three pushes. -/
def ramTrap (sp : Byte) (ret : Word) (status : Byte) (ram : Memory 8) : Memory 8 :=
  (ramPushWord sp ret ram).write (0x100 + (sp - 2).toNat) status

/-- Everything a trap entry through a ROM vector does. -/
theorem takeTrap_eq (ret : Word) (status : Byte) {vector : Word} (h : 0x8000 ≤ vector.toNat)
    (h' : vector.toNat < 0xFFFF) (s : State) :
    takeTrap ret status vector s =
      { s with
        bus.ram := ramTrap s.cpu.sp ret status s.bus.ram
        cpu.sp := s.cpu.sp - 3
        cpu.p := setFlag .I true s.cpu.p
        cpu.pc := wordOf (s.bus.prg.read (vector.toNat - 0x8000)) (s.bus.prg.read (vector.toNat + 1 - 0x8000)) } := by
  have e : s.cpu.sp - 2 - 1 = s.cpu.sp - 3 := by
    rw [BitVec.sub_sub]; rfl
  rw [takeTrap]
  simp only [read16_rom h h', push_eq, pushWord_eq]
  simp only [e, State.setP, State.setPc]
  rfl

/-- Everything a return from a trap does. -/
theorem returnFromTrap_eq (s : State) :
    returnFromTrap s =
      { s with
        cpu.p := s.bus.ram.read (0x100 + (s.cpu.sp + 1).toNat) ||| 0x20
        cpu.pc := ramTopWord (s.cpu.sp + 1) s.bus.ram
        cpu.sp := s.cpu.sp + 3 } := by
  have e : s.cpu.sp + 1 + 2 = s.cpu.sp + 3 := by
    rw [BitVec.add_assoc]; rfl
  rw [returnFromTrap]
  simp only [pull_eq, pullWord_eq, State.setSp, State.setP, State.setPc, e]

/-- Everything an NMI service does. -/
theorem nmiService_eq (s : State) :
    nmiService s =
      { s with
        bus.ram := ramTrap s.cpu.sp s.cpu.pc s.cpu.p s.bus.ram
        cpu.sp := s.cpu.sp - 3
        cpu.p := setFlag .I true s.cpu.p
        cpu.pc := wordOf (s.bus.prg.read 0x7FFA) (s.bus.prg.read 0x7FFB)
        cpu.nmiPending := false } := by
  rw [nmiService, takeTrap_eq _ _ (by decide) (by decide)]
  rfl

theorem ramPushWord_wf {sp : Byte} {w : Word} {ram : Memory 8} (h : ram.wf 0x0800) :
    (ramPushWord sp w ram).wf 0x0800 := by
  have := sp.isLt
  have := (sp - 1).isLt
  exact Memory.write_wf (Memory.write_wf h (by omega) _) (by omega) _

theorem ramTrap_wf {sp : Byte} {ret : Word} {status : Byte} {ram : Memory 8} (h : ram.wf 0x0800) :
    (ramTrap sp ret status ram).wf 0x0800 := by
  have := (sp - 2).isLt
  exact Memory.write_wf (ramPushWord_wf h) (by omega) _

end Sys2Proof.Machine
end

