-- ==== Sys2Proof/Laws/Decode.lean ====
section
/-! SUPPORT. What each row of the opcode table makes, and what decodeOp answers for any byte. -/

namespace Sys2Proof

open Machine

/-- A row makes well-formed instructions of one length, whose encoding is the row's byte and the bytes it was given; none is
an undefined opcode. -/
def RowOk (r : Row) : Prop :=
  ∀ l h, (r.2 l h).wellFormed = true ∧ (r.2 l h).opcode = some r.1 ∧ (r.2 l h).length = (r.2 0 0).length ∧
    (r.2 l h).operandBytes = [l, h].take ((r.2 0 0).length - 1) ∧ ∀ x, r.2 l h ≠ .undef x

theorem pair_bytes (l h : Byte) : [lowByte (wordOf l h), highByte (wordOf l h)] = [l, h] :=
  congrArg₂ (fun a b => [a, b]) (lowByte_wordOf l h) (highByte_wordOf l h)

theorem opcodes0_ok : ∀ r ∈ opcodes0, RowOk r := by
  simp only [opcodes0, List.forall_mem_cons, List.not_mem_nil, false_imp_iff, implies_true, and_true]
  repeat' apply And.intro
  all_goals exact fun l h => ⟨rfl, rfl, rfl, by first | rfl | exact pair_bytes l h, nofun⟩

theorem opcodes1_ok : ∀ r ∈ opcodes1, RowOk r := by
  simp only [opcodes1, List.forall_mem_cons, List.not_mem_nil, false_imp_iff, implies_true, and_true]
  repeat' apply And.intro
  all_goals exact fun l h => ⟨rfl, rfl, rfl, by first | rfl | exact pair_bytes l h, nofun⟩

theorem opcodes2_ok : ∀ r ∈ opcodes2, RowOk r := by
  simp only [opcodes2, List.forall_mem_cons, List.not_mem_nil, false_imp_iff, implies_true, and_true]
  repeat' apply And.intro
  all_goals exact fun l h => ⟨rfl, rfl, rfl, by first | rfl | exact pair_bytes l h, nofun⟩

theorem opcodes3_ok : ∀ r ∈ opcodes3, RowOk r := by
  simp only [opcodes3, List.forall_mem_cons, List.not_mem_nil, false_imp_iff, implies_true, and_true]
  repeat' apply And.intro
  all_goals exact fun l h => ⟨rfl, rfl, rfl, by first | rfl | exact pair_bytes l h, nofun⟩

theorem opcodes4_ok : ∀ r ∈ opcodes4, RowOk r := by
  simp only [opcodes4, List.forall_mem_cons, List.not_mem_nil, false_imp_iff, implies_true, and_true]
  repeat' apply And.intro
  all_goals exact fun l h => ⟨rfl, rfl, rfl, by first | rfl | exact pair_bytes l h, nofun⟩

theorem opcodes5_ok : ∀ r ∈ opcodes5, RowOk r := by
  simp only [opcodes5, List.forall_mem_cons, List.not_mem_nil, false_imp_iff, implies_true, and_true]
  repeat' apply And.intro
  all_goals exact fun l h => ⟨rfl, rfl, rfl, by first | rfl | exact pair_bytes l h, nofun⟩

theorem opcodes6_ok : ∀ r ∈ opcodes6, RowOk r := by
  simp only [opcodes6, List.forall_mem_cons, List.not_mem_nil, false_imp_iff, implies_true, and_true]
  repeat' apply And.intro
  all_goals exact fun l h => ⟨rfl, rfl, rfl, by first | rfl | exact pair_bytes l h, nofun⟩

theorem opcodes7_ok : ∀ r ∈ opcodes7, RowOk r := by
  simp only [opcodes7, List.forall_mem_cons, List.not_mem_nil, false_imp_iff, implies_true, and_true]
  repeat' apply And.intro
  all_goals exact fun l h => ⟨rfl, rfl, rfl, by first | rfl | exact pair_bytes l h, nofun⟩

theorem opcodes8_ok : ∀ r ∈ opcodes8, RowOk r := by
  simp only [opcodes8, List.forall_mem_cons, List.not_mem_nil, false_imp_iff, implies_true, and_true]
  repeat' apply And.intro
  all_goals exact fun l h => ⟨rfl, rfl, rfl, by first | rfl | exact pair_bytes l h, nofun⟩

theorem opcodes9_ok : ∀ r ∈ opcodes9, RowOk r := by
  simp only [opcodes9, List.forall_mem_cons, List.not_mem_nil, false_imp_iff, implies_true, and_true]
  repeat' apply And.intro
  all_goals exact fun l h => ⟨rfl, rfl, rfl, by first | rfl | exact pair_bytes l h, nofun⟩

theorem opcodesA_ok : ∀ r ∈ opcodesA, RowOk r := by
  simp only [opcodesA, List.forall_mem_cons, List.not_mem_nil, false_imp_iff, implies_true, and_true]
  repeat' apply And.intro
  all_goals exact fun l h => ⟨rfl, rfl, rfl, by first | rfl | exact pair_bytes l h, nofun⟩

theorem opcodesB_ok : ∀ r ∈ opcodesB, RowOk r := by
  simp only [opcodesB, List.forall_mem_cons, List.not_mem_nil, false_imp_iff, implies_true, and_true]
  repeat' apply And.intro
  all_goals exact fun l h => ⟨rfl, rfl, rfl, by first | rfl | exact pair_bytes l h, nofun⟩

theorem opcodesC_ok : ∀ r ∈ opcodesC, RowOk r := by
  simp only [opcodesC, List.forall_mem_cons, List.not_mem_nil, false_imp_iff, implies_true, and_true]
  repeat' apply And.intro
  all_goals exact fun l h => ⟨rfl, rfl, rfl, by first | rfl | exact pair_bytes l h, nofun⟩

theorem opcodesD_ok : ∀ r ∈ opcodesD, RowOk r := by
  simp only [opcodesD, List.forall_mem_cons, List.not_mem_nil, false_imp_iff, implies_true, and_true]
  repeat' apply And.intro
  all_goals exact fun l h => ⟨rfl, rfl, rfl, by first | rfl | exact pair_bytes l h, nofun⟩

theorem opcodesE_ok : ∀ r ∈ opcodesE, RowOk r := by
  simp only [opcodesE, List.forall_mem_cons, List.not_mem_nil, false_imp_iff, implies_true, and_true]
  repeat' apply And.intro
  all_goals exact fun l h => ⟨rfl, rfl, rfl, by first | rfl | exact pair_bytes l h, nofun⟩

theorem opcodesF_ok : ∀ r ∈ opcodesF, RowOk r := by
  simp only [opcodesF, List.forall_mem_cons, List.not_mem_nil, false_imp_iff, implies_true, and_true]
  repeat' apply And.intro
  all_goals exact fun l h => ⟨rfl, rfl, rfl, by first | rfl | exact pair_bytes l h, nofun⟩

/-- Every row of the table. -/
theorem opcodeTable_ok : ∀ r ∈ opcodeTable, RowOk r := by
  simp only [opcodeTable, List.forall_mem_append]
  exact ⟨⟨⟨⟨⟨⟨⟨⟨⟨⟨⟨⟨⟨⟨⟨opcodes0_ok, opcodes1_ok⟩, opcodes2_ok⟩, opcodes3_ok⟩, opcodes4_ok⟩, opcodes5_ok⟩, opcodes6_ok⟩, opcodes7_ok⟩, opcodes8_ok⟩, opcodes9_ok⟩, opcodesA_ok⟩, opcodesB_ok⟩, opcodesC_ok⟩, opcodesD_ok⟩, opcodesE_ok⟩, opcodesF_ok⟩

theorem mem_of_lookup {op : Byte} {build : Byte → Byte → Instr} {t : List Row} (h : t.lookup op = some build) :
    (op, build) ∈ t := by
  induction t with
  | nil => exact absurd h (by simp)
  | cons r t ih =>
    rw [List.lookup_cons] at h
    by_cases e : op = r.1
    · rw [e, beq_self_eq_true] at h
      obtain rfl := Option.some.inj h
      exact e ▸ List.mem_cons_self
    · rw [beq_eq_false_iff_ne.mpr e] at h
      exact List.mem_cons_of_mem _ (ih h)

/-- A byte outside the table is one of the 105 undefined ones. -/
theorem undefined_of_lookup : ∀ op : Byte, op ∈ undefinedOpcodes ∨ (opcodeTable.lookup op).isSome := by
  decide +kernel

/-- What decodeOp makes of any byte: a well-formed instruction whose length the byte alone tells, and whose encoding is the
byte and the operand bytes it uses. -/
theorem decodeOp_ok (op l h : Byte) :
    (decodeOp op l h).wellFormed = true ∧ (decodeOp op l h).opcode = some op ∧
      (decodeOp op l h).length = opLength op ∧ (decodeOp op l h).operandBytes = [l, h].take (opLength op - 1) := by
  cases hl : opcodeTable.lookup op with
  | none =>
    have hm : op ∈ undefinedOpcodes := by
      rcases undefined_of_lookup op with h | h
      · exact h
      · rw [hl] at h; exact absurd h (by decide)
    have hc : undefinedOpcodes.contains op = true := List.contains_iff_mem.mpr hm
    simp only [opLength, decodeOp, hl]
    exact ⟨hc, if_pos hc, trivial, rfl⟩
  | some build =>
    obtain ⟨h1, h2, h3, h4, -⟩ := opcodeTable_ok _ (mem_of_lookup hl) l h
    simp only [opLength, decodeOp, hl]
    exact ⟨h1, h2, h3, h4⟩

/-- An instruction is one, two or three bytes long. -/
theorem opLength_cases (op : Byte) : opLength op = 1 ∨ opLength op = 2 ∨ opLength op = 3 := by
  rw [opLength, Instr.length]
  cases (decodeOp op 0 0).mode <;> simp [Mode.length]

end Sys2Proof
end

