-- ==== Sys2Proof/Laws/Flags.lean ====
section
/-! SUPPORT. What writing flags does to each flag, and the arithmetic the flags report, as numbers. -/

namespace Sys2Proof.Machine

theorem getFlag_eq (f : Flag) (p : Byte) : getFlag f p = p.getLsbD f.pos := rfl

theorem Flag.pos_lt (f : Flag) : f.pos < 8 := by cases f <;> decide

theorem Flag.pos_inj {f g : Flag} (h : f.pos = g.pos) : f = g := by
  cases f <;> cases g <;> first | rfl | exact absurd h (by decide)

theorem Flag.getLsbD_bitMask (f : Flag) (i : Nat) : f.bitMask.getLsbD i = decide (f.pos = i) := by
  have hf := f.pos_lt
  rw [Flag.bitMask, BitVec.getLsbD_twoPow]
  by_cases h : f.pos = i <;> simp [h]
  omega

/-- Writing a flag writes that flag and no other. -/
theorem getFlag_setFlag (f g : Flag) (b : Bool) (p : Byte) :
    getFlag f (setFlag g b p) = if f = g then b else getFlag f p := by
  have hf := f.pos_lt
  have hgf : decide (g.pos = f.pos) = decide (f = g) :=
    decide_eq_decide.mpr ⟨fun h => Flag.pos_inj h.symm, fun h => h ▸ rfl⟩
  by_cases h : f = g <;> cases b <;>
    simp only [getFlag, setFlag, BitVec.getLsbD_or, BitVec.getLsbD_and, BitVec.getLsbD_not, Flag.getLsbD_bitMask,
      hgf, h, hf, if_true, if_false, decide_true, decide_false, Bool.or_true, Bool.or_false, Bool.not_true,
      Bool.not_false, Bool.and_true, Bool.and_false, Bool.false_eq_true]

@[simp] theorem getFlag_setFlag_same (f : Flag) (b : Bool) (p : Byte) : getFlag f (setFlag f b p) = b := by
  rw [getFlag_setFlag, if_pos rfl]

theorem getFlag_setFlag_other {f g : Flag} (h : f ≠ g) (b : Bool) (p : Byte) :
    getFlag f (setFlag g b p) = getFlag f p := by
  rw [getFlag_setFlag, if_neg h]

/-- The flags determine the status byte. -/
theorem flags_ext {p q : Byte} (h : ∀ f, getFlag f p = getFlag f q) : p = q := by
  apply BitVec.eq_of_getLsbD_eq
  intro i hi
  have : ∃ f : Flag, f.pos = i := by
    have : ∀ i < 8, ∃ f ∈ [Flag.C, .Z, .I, .D, .B, .U, .V, .N], f.pos = i := by decide
    obtain ⟨f, _, hf⟩ := this i hi
    exact ⟨f, hf⟩
  obtain ⟨f, rfl⟩ := this
  exact h f

/-- What setZN leaves in each flag. -/
theorem getFlag_setZN (f : Flag) (v p : Byte) :
    getFlag f (setZN v p) = if f = .N then v.msb else if f = .Z then v == 0 else getFlag f p := by
  rw [setZN, getFlag_setFlag, getFlag_setFlag]

/-- What ADC and SBC leave in each flag. -/
theorem getFlag_addFlags (f : Flag) (a m p : Byte) :
    getFlag f (addFlags a m p) =
      if f = .N then (addResult a m (getFlag .C p)).msb
      else if f = .Z then addResult a m (getFlag .C p) == 0
      else if f = .V then addOverflow a m (getFlag .C p)
      else if f = .C then (sum9 a m (getFlag .C p)).msb
      else getFlag f p := by
  rw [addFlags, getFlag_setZN, getFlag_setFlag, getFlag_setFlag]

/-- What a compare leaves in each flag. -/
theorem getFlag_cmpFlags (f : Flag) (r m p : Byte) :
    getFlag f (cmpFlags r m p) =
      if f = .N then (r - m).msb else if f = .Z then r - m == 0 else if f = .C then m.ule r else getFlag f p := by
  rw [cmpFlags, getFlag_setZN, getFlag_setFlag]

/-- What BIT leaves in each flag. -/
theorem getFlag_bitFlags (f : Flag) (a m p : Byte) :
    getFlag f (bitFlags a m p) =
      if f = .V then m.getLsbD 6 else if f = .N then m.getLsbD 7 else if f = .Z then a &&& m == 0
      else getFlag f p := by
  rw [bitFlags, getFlag_setFlag, getFlag_setFlag, getFlag_setFlag]

/-- What a shift or rotate leaves in each flag. -/
theorem getFlag_shiftFlags (f : Flag) (r : Byte) (c : Bool) (p : Byte) :
    getFlag f (shiftFlags r c p) =
      if f = .N then r.msb else if f = .Z then r == 0 else if f = .C then c else getFlag f p := by
  rw [shiftFlags, getFlag_setZN, getFlag_setFlag]

theorem sum9_toNat (a m : Byte) (c : Bool) : (sum9 a m c).toNat = a.toNat + m.toNat + c.toNat := by
  have ha := a.isLt
  have hm := m.isLt
  have hc := c.toNat_le
  simp only [sum9, BitVec.toNat_add, BitVec.toNat_setWidth, BitVec.toNat_ofBool]
  omega

theorem addResult_toNat (a m : Byte) (c : Bool) :
    (addResult a m c).toNat = (a.toNat + m.toNat + c.toNat) % 256 := by
  rw [addResult, BitVec.toNat_setWidth, sum9_toNat]

/-- The carry out is the ninth bit of the sum. -/
theorem sum9_msb (a m : Byte) (c : Bool) :
    (sum9 a m c).msb = decide (256 ≤ a.toNat + m.toNat + c.toNat) := by
  rw [BitVec.msb_eq_decide, sum9_toNat]

end Sys2Proof.Machine
end

