-- ==== Sys2Proof/Laws/Operands.lean ====
section
/-! SUPPORT. The operand forms: their pointers are read in RAM, so finding an address changes nothing, and what reading,
storing and modifying an operand can change. -/

namespace Sys2Proof.Machine

/-- The address of a memory form, of a state's index registers and RAM alone. -/
theorem effAddr_eq (m : Mem) (s : State) :
    effAddr m s =
      (match m with
        | .zp nn => wordOf nn 0
        | .zpx nn => wordOf (nn + s.cpu.x) 0
        | .zpy nn => wordOf (nn + s.cpu.y) 0
        | .abs a => a
        | .abx a => a + wordOf s.cpu.x 0
        | .aby a => a + wordOf s.cpu.y 0
        | .izx nn => wordOf (s.bus.ram.read (nn + s.cpu.x).toNat) (s.bus.ram.read (nn + s.cpu.x + 1).toNat)
        | .izy nn => wordOf (s.bus.ram.read nn.toNat) (s.bus.ram.read (nn + 1).toNat) + wordOf s.cpu.y 0, s) := by
  cases m <;> first | rfl | (simp only [effAddr, read16zp_eq])

/-- Finding an effective address has no side effect. -/
@[simp] theorem effAddr_state (m : Mem) (s : State) : (effAddr m s).2 = s := by
  rw [effAddr_eq]

theorem readMem_eq (m : Mem) (s : State) : readMem m s = memRead (effAddr m s).1 s := by
  rw [readMem]
  simp only [effAddr_state]

theorem storeMem_eq (m : Mem) (v : Byte) (s : State) : storeMem m v s = memWrite (effAddr m s).1 v s := by
  rw [storeMem]
  simp only [effAddr_state]

/-- One read, then one write of the same address, the flags from the byte read. -/
theorem modifyMem_eq (m : Mem) (f : Byte → Byte → Byte × Byte) (s : State) :
    modifyMem m f s =
      memWrite (effAddr m s).1 (f (memRead (effAddr m s).1 s).1 s.cpu.p).1
        ((memRead (effAddr m s).1 s).2.setP (f (memRead (effAddr m s).1 s).1 s.cpu.p).2) := by
  rw [modifyMem]
  simp only [effAddr_state, memRead_cpu]

/-- An operand read changes the picture unit and the controller's shift register at most. -/
theorem readSrc_frame (o : Src) (s : State) :
    (readSrc o s).2 = { s with ppu := (readSrc o s).2.ppu, bus.ctlShift := (readSrc o s).2.bus.ctlShift } := by
  cases o with
  | imm v => rfl
  | mem m => rw [readSrc]; simp only [readMem_eq]; exact memRead_frame _ s

@[simp] theorem readSrc_cpu (o : Src) (s : State) : (readSrc o s).2.cpu = s.cpu := by rw [readSrc_frame]
@[simp] theorem readSrc_drv (o : Src) (s : State) : (readSrc o s).2.drv = s.drv := by rw [readSrc_frame]
@[simp] theorem readSrc_ram (o : Src) (s : State) : (readSrc o s).2.bus.ram = s.bus.ram := by rw [readSrc_frame]
@[simp] theorem readSrc_prg (o : Src) (s : State) : (readSrc o s).2.bus.prg = s.bus.prg := by rw [readSrc_frame]

@[simp] theorem readMem_cpu (m : Mem) (s : State) : (readMem m s).2.cpu = s.cpu := by
  rw [readMem_eq, memRead_cpu]
@[simp] theorem readMem_drv (m : Mem) (s : State) : (readMem m s).2.drv = s.drv := by
  rw [readMem_eq, memRead_drv]

@[simp] theorem storeMem_cpu (m : Mem) (v : Byte) (s : State) : (storeMem m v s).cpu = s.cpu := by
  rw [storeMem_eq, memWrite_cpu]
@[simp] theorem storeMem_drv (m : Mem) (v : Byte) (s : State) : (storeMem m v s).drv = s.drv := by
  rw [storeMem_eq, memWrite_drv]

/-- A jump's pointer reads change the picture unit and the controller's shift register at most. -/
theorem jumpTarget_frame (j : Jump) (s : State) :
    ∃ p c, (jumpTarget j s).2 = { s with ppu := p, bus.ctlShift := c } := by
  cases j with
  | abs target => exact ⟨s.ppu, s.bus.ctlShift, rfl⟩
  | ind ptr =>
    obtain ⟨p, c, h⟩ := memRead_changes ptr s
    obtain ⟨p', c', h'⟩ := memRead_changes (wordOf (lowByte ptr + 1) (highByte ptr)) (memRead ptr s).2
    refine ⟨p', c', ?_⟩
    simp only [jumpTarget, read16page]
    rw [h', h]

theorem setP_wf {s : State} (h : MemoriesOk s) (p : Byte) : MemoriesOk (s.setP p) := ⟨h.ram, h.prg, h.ppu⟩

theorem readSrc_wf {s : State} (h : MemoriesOk s) (o : Src) : MemoriesOk (readSrc o s).2 := by
  cases o with
  | imm v => exact h
  | mem m => rw [readSrc]; simp only [readMem_eq]; exact memRead_wf h _

theorem storeMem_wf {s : State} (h : MemoriesOk s) (m : Mem) (v : Byte) : MemoriesOk (storeMem m v s) := by
  rw [storeMem_eq]; exact memWrite_wf h _ v

theorem modifyMem_wf {s : State} (h : MemoriesOk s) (m : Mem) (f : Byte → Byte → Byte × Byte) :
    MemoriesOk (modifyMem m f s) := by
  rw [modifyMem_eq]
  exact memWrite_wf (setP_wf (memRead_wf h _) _) _ _

theorem jumpTarget_wf {s : State} (h : MemoriesOk s) (j : Jump) : MemoriesOk (jumpTarget j s).2 := by
  cases j with
  | abs target => exact h
  | ind ptr => exact memRead_wf (memRead_wf h _) _

end Sys2Proof.Machine
end

