-- ==== Sys2Proof/Laws/PerInstr.lean ====
section
/-! SUPPORT. Decoding the encoding of an instruction gives it back: the statement of one instruction, and a lemma for each
constructor of Instr. -/

namespace Sys2Proof.Laws.RoundTrip

open Sys2Proof.Machine

/-- The bytes of a well-formed instruction are as many as its length, and decode to it whatever follows them. -/
def Statement (i : Instr) : Prop :=
  i.wellFormed = true →
    ∃ bs, encode i = some bs ∧ bs.length = i.length ∧ ∀ rest, decode (bs ++ rest) = .ok i rest

theorem of_one {op : Byte} {i : Instr} (ho : i.opcode = some op) (hb : i.operandBytes = []) (hl : i.length = 1)
    (hn : opLength op = 1) (hd : ∀ l h, decodeOp op l h = i) : Statement i := by
  intro _
  refine ⟨[op], by rw [encode, ho, hb]; rfl, by rw [hl]; rfl, fun rest => ?_⟩
  rw [List.singleton_append, decode, if_neg (by omega), hd, hn]
  rfl

theorem of_two {op l : Byte} {i : Instr} (ho : i.opcode = some op) (hb : i.operandBytes = [l]) (hl : i.length = 2)
    (hn : opLength op = 2) (hd : ∀ h, decodeOp op l h = i) : Statement i := by
  intro _
  refine ⟨[op, l], by rw [encode, ho, hb]; rfl, by rw [hl]; rfl, fun rest => ?_⟩
  rw [List.cons_append, decode, if_neg (by simp only [List.cons_append, List.length_cons]; omega), hn]
  exact congrArg (Decoded.ok · rest) (hd _)

theorem of_three {op : Byte} {a : Word} {i : Instr} (ho : i.opcode = some op)
    (hb : i.operandBytes = [lowByte a, highByte a]) (hl : i.length = 3) (hn : opLength op = 3)
    (hd : decodeOp op (lowByte a) (highByte a) = i) : Statement i := by
  intro _
  refine ⟨[op, lowByte a, highByte a], by rw [encode, ho, hb]; rfl, by rw [hl]; rfl, fun rest => ?_⟩
  rw [List.cons_append, decode, if_neg (by simp only [List.cons_append, List.length_cons]; omega), hn]
  exact congrArg (Decoded.ok · rest) hd

theorem of_ill_formed {i : Instr} (h : i.wellFormed = false) : Statement i := fun h' => absurd h' (by rw [h]; decide)

theorem decodeOp_undefined : ∀ op ∈ undefinedOpcodes, (opcodeTable.lookup op).isNone := by decide +kernel

theorem lda (o : Src) : Statement (.lda o) := by
  cases o with
  | imm v => exact of_two rfl rfl rfl (by decide) (fun _ => rfl)
  | mem m =>
    cases m with
    | zp nn => exact of_two rfl rfl rfl (by decide) (fun _ => rfl)
    | zpx nn => exact of_two rfl rfl rfl (by decide) (fun _ => rfl)
    | zpy nn => exact of_ill_formed rfl
    | abs a => exact of_three (a := a) rfl rfl rfl (by decide) (congrArg (fun w => Instr.lda (.mem (.abs w))) (wordOf_bytes a))
    | abx a => exact of_three (a := a) rfl rfl rfl (by decide) (congrArg (fun w => Instr.lda (.mem (.abx w))) (wordOf_bytes a))
    | aby a => exact of_three (a := a) rfl rfl rfl (by decide) (congrArg (fun w => Instr.lda (.mem (.aby w))) (wordOf_bytes a))
    | izx nn => exact of_two rfl rfl rfl (by decide) (fun _ => rfl)
    | izy nn => exact of_two rfl rfl rfl (by decide) (fun _ => rfl)

theorem ldx (o : Src) : Statement (.ldx o) := by
  cases o with
  | imm v => exact of_two rfl rfl rfl (by decide) (fun _ => rfl)
  | mem m =>
    cases m with
    | zp nn => exact of_two rfl rfl rfl (by decide) (fun _ => rfl)
    | zpx nn => exact of_ill_formed rfl
    | zpy nn => exact of_two rfl rfl rfl (by decide) (fun _ => rfl)
    | abs a => exact of_three (a := a) rfl rfl rfl (by decide) (congrArg (fun w => Instr.ldx (.mem (.abs w))) (wordOf_bytes a))
    | abx a => exact of_ill_formed rfl
    | aby a => exact of_three (a := a) rfl rfl rfl (by decide) (congrArg (fun w => Instr.ldx (.mem (.aby w))) (wordOf_bytes a))
    | izx nn => exact of_ill_formed rfl
    | izy nn => exact of_ill_formed rfl

theorem ldy (o : Src) : Statement (.ldy o) := by
  cases o with
  | imm v => exact of_two rfl rfl rfl (by decide) (fun _ => rfl)
  | mem m =>
    cases m with
    | zp nn => exact of_two rfl rfl rfl (by decide) (fun _ => rfl)
    | zpx nn => exact of_two rfl rfl rfl (by decide) (fun _ => rfl)
    | zpy nn => exact of_ill_formed rfl
    | abs a => exact of_three (a := a) rfl rfl rfl (by decide) (congrArg (fun w => Instr.ldy (.mem (.abs w))) (wordOf_bytes a))
    | abx a => exact of_three (a := a) rfl rfl rfl (by decide) (congrArg (fun w => Instr.ldy (.mem (.abx w))) (wordOf_bytes a))
    | aby a => exact of_ill_formed rfl
    | izx nn => exact of_ill_formed rfl
    | izy nn => exact of_ill_formed rfl

theorem sta (m : Mem) : Statement (.sta m) := by
  cases m with
  | zp nn => exact of_two rfl rfl rfl (by decide) (fun _ => rfl)
  | zpx nn => exact of_two rfl rfl rfl (by decide) (fun _ => rfl)
  | zpy nn => exact of_ill_formed rfl
  | abs a => exact of_three (a := a) rfl rfl rfl (by decide) (congrArg (fun w => Instr.sta (.abs w)) (wordOf_bytes a))
  | abx a => exact of_three (a := a) rfl rfl rfl (by decide) (congrArg (fun w => Instr.sta (.abx w)) (wordOf_bytes a))
  | aby a => exact of_three (a := a) rfl rfl rfl (by decide) (congrArg (fun w => Instr.sta (.aby w)) (wordOf_bytes a))
  | izx nn => exact of_two rfl rfl rfl (by decide) (fun _ => rfl)
  | izy nn => exact of_two rfl rfl rfl (by decide) (fun _ => rfl)

theorem stx (m : Mem) : Statement (.stx m) := by
  cases m with
  | zp nn => exact of_two rfl rfl rfl (by decide) (fun _ => rfl)
  | zpx nn => exact of_ill_formed rfl
  | zpy nn => exact of_two rfl rfl rfl (by decide) (fun _ => rfl)
  | abs a => exact of_three (a := a) rfl rfl rfl (by decide) (congrArg (fun w => Instr.stx (.abs w)) (wordOf_bytes a))
  | abx a => exact of_ill_formed rfl
  | aby a => exact of_ill_formed rfl
  | izx nn => exact of_ill_formed rfl
  | izy nn => exact of_ill_formed rfl

theorem sty (m : Mem) : Statement (.sty m) := by
  cases m with
  | zp nn => exact of_two rfl rfl rfl (by decide) (fun _ => rfl)
  | zpx nn => exact of_two rfl rfl rfl (by decide) (fun _ => rfl)
  | zpy nn => exact of_ill_formed rfl
  | abs a => exact of_three (a := a) rfl rfl rfl (by decide) (congrArg (fun w => Instr.sty (.abs w)) (wordOf_bytes a))
  | abx a => exact of_ill_formed rfl
  | aby a => exact of_ill_formed rfl
  | izx nn => exact of_ill_formed rfl
  | izy nn => exact of_ill_formed rfl

theorem tax : Statement .tax := of_one rfl rfl rfl (by decide) (fun _ _ => rfl)

theorem tay : Statement .tay := of_one rfl rfl rfl (by decide) (fun _ _ => rfl)

theorem txa : Statement .txa := of_one rfl rfl rfl (by decide) (fun _ _ => rfl)

theorem tya : Statement .tya := of_one rfl rfl rfl (by decide) (fun _ _ => rfl)

theorem tsx : Statement .tsx := of_one rfl rfl rfl (by decide) (fun _ _ => rfl)

theorem txs : Statement .txs := of_one rfl rfl rfl (by decide) (fun _ _ => rfl)

theorem adc (o : Src) : Statement (.adc o) := by
  cases o with
  | imm v => exact of_two rfl rfl rfl (by decide) (fun _ => rfl)
  | mem m =>
    cases m with
    | zp nn => exact of_two rfl rfl rfl (by decide) (fun _ => rfl)
    | zpx nn => exact of_two rfl rfl rfl (by decide) (fun _ => rfl)
    | zpy nn => exact of_ill_formed rfl
    | abs a => exact of_three (a := a) rfl rfl rfl (by decide) (congrArg (fun w => Instr.adc (.mem (.abs w))) (wordOf_bytes a))
    | abx a => exact of_three (a := a) rfl rfl rfl (by decide) (congrArg (fun w => Instr.adc (.mem (.abx w))) (wordOf_bytes a))
    | aby a => exact of_three (a := a) rfl rfl rfl (by decide) (congrArg (fun w => Instr.adc (.mem (.aby w))) (wordOf_bytes a))
    | izx nn => exact of_two rfl rfl rfl (by decide) (fun _ => rfl)
    | izy nn => exact of_two rfl rfl rfl (by decide) (fun _ => rfl)

theorem sbc (o : Src) : Statement (.sbc o) := by
  cases o with
  | imm v => exact of_two rfl rfl rfl (by decide) (fun _ => rfl)
  | mem m =>
    cases m with
    | zp nn => exact of_two rfl rfl rfl (by decide) (fun _ => rfl)
    | zpx nn => exact of_two rfl rfl rfl (by decide) (fun _ => rfl)
    | zpy nn => exact of_ill_formed rfl
    | abs a => exact of_three (a := a) rfl rfl rfl (by decide) (congrArg (fun w => Instr.sbc (.mem (.abs w))) (wordOf_bytes a))
    | abx a => exact of_three (a := a) rfl rfl rfl (by decide) (congrArg (fun w => Instr.sbc (.mem (.abx w))) (wordOf_bytes a))
    | aby a => exact of_three (a := a) rfl rfl rfl (by decide) (congrArg (fun w => Instr.sbc (.mem (.aby w))) (wordOf_bytes a))
    | izx nn => exact of_two rfl rfl rfl (by decide) (fun _ => rfl)
    | izy nn => exact of_two rfl rfl rfl (by decide) (fun _ => rfl)

theorem and (o : Src) : Statement (.and o) := by
  cases o with
  | imm v => exact of_two rfl rfl rfl (by decide) (fun _ => rfl)
  | mem m =>
    cases m with
    | zp nn => exact of_two rfl rfl rfl (by decide) (fun _ => rfl)
    | zpx nn => exact of_two rfl rfl rfl (by decide) (fun _ => rfl)
    | zpy nn => exact of_ill_formed rfl
    | abs a => exact of_three (a := a) rfl rfl rfl (by decide) (congrArg (fun w => Instr.and (.mem (.abs w))) (wordOf_bytes a))
    | abx a => exact of_three (a := a) rfl rfl rfl (by decide) (congrArg (fun w => Instr.and (.mem (.abx w))) (wordOf_bytes a))
    | aby a => exact of_three (a := a) rfl rfl rfl (by decide) (congrArg (fun w => Instr.and (.mem (.aby w))) (wordOf_bytes a))
    | izx nn => exact of_two rfl rfl rfl (by decide) (fun _ => rfl)
    | izy nn => exact of_two rfl rfl rfl (by decide) (fun _ => rfl)

theorem ora (o : Src) : Statement (.ora o) := by
  cases o with
  | imm v => exact of_two rfl rfl rfl (by decide) (fun _ => rfl)
  | mem m =>
    cases m with
    | zp nn => exact of_two rfl rfl rfl (by decide) (fun _ => rfl)
    | zpx nn => exact of_two rfl rfl rfl (by decide) (fun _ => rfl)
    | zpy nn => exact of_ill_formed rfl
    | abs a => exact of_three (a := a) rfl rfl rfl (by decide) (congrArg (fun w => Instr.ora (.mem (.abs w))) (wordOf_bytes a))
    | abx a => exact of_three (a := a) rfl rfl rfl (by decide) (congrArg (fun w => Instr.ora (.mem (.abx w))) (wordOf_bytes a))
    | aby a => exact of_three (a := a) rfl rfl rfl (by decide) (congrArg (fun w => Instr.ora (.mem (.aby w))) (wordOf_bytes a))
    | izx nn => exact of_two rfl rfl rfl (by decide) (fun _ => rfl)
    | izy nn => exact of_two rfl rfl rfl (by decide) (fun _ => rfl)

theorem eor (o : Src) : Statement (.eor o) := by
  cases o with
  | imm v => exact of_two rfl rfl rfl (by decide) (fun _ => rfl)
  | mem m =>
    cases m with
    | zp nn => exact of_two rfl rfl rfl (by decide) (fun _ => rfl)
    | zpx nn => exact of_two rfl rfl rfl (by decide) (fun _ => rfl)
    | zpy nn => exact of_ill_formed rfl
    | abs a => exact of_three (a := a) rfl rfl rfl (by decide) (congrArg (fun w => Instr.eor (.mem (.abs w))) (wordOf_bytes a))
    | abx a => exact of_three (a := a) rfl rfl rfl (by decide) (congrArg (fun w => Instr.eor (.mem (.abx w))) (wordOf_bytes a))
    | aby a => exact of_three (a := a) rfl rfl rfl (by decide) (congrArg (fun w => Instr.eor (.mem (.aby w))) (wordOf_bytes a))
    | izx nn => exact of_two rfl rfl rfl (by decide) (fun _ => rfl)
    | izy nn => exact of_two rfl rfl rfl (by decide) (fun _ => rfl)

theorem cmp (o : Src) : Statement (.cmp o) := by
  cases o with
  | imm v => exact of_two rfl rfl rfl (by decide) (fun _ => rfl)
  | mem m =>
    cases m with
    | zp nn => exact of_two rfl rfl rfl (by decide) (fun _ => rfl)
    | zpx nn => exact of_two rfl rfl rfl (by decide) (fun _ => rfl)
    | zpy nn => exact of_ill_formed rfl
    | abs a => exact of_three (a := a) rfl rfl rfl (by decide) (congrArg (fun w => Instr.cmp (.mem (.abs w))) (wordOf_bytes a))
    | abx a => exact of_three (a := a) rfl rfl rfl (by decide) (congrArg (fun w => Instr.cmp (.mem (.abx w))) (wordOf_bytes a))
    | aby a => exact of_three (a := a) rfl rfl rfl (by decide) (congrArg (fun w => Instr.cmp (.mem (.aby w))) (wordOf_bytes a))
    | izx nn => exact of_two rfl rfl rfl (by decide) (fun _ => rfl)
    | izy nn => exact of_two rfl rfl rfl (by decide) (fun _ => rfl)

theorem cpx (o : Src) : Statement (.cpx o) := by
  cases o with
  | imm v => exact of_two rfl rfl rfl (by decide) (fun _ => rfl)
  | mem m =>
    cases m with
    | zp nn => exact of_two rfl rfl rfl (by decide) (fun _ => rfl)
    | zpx nn => exact of_ill_formed rfl
    | zpy nn => exact of_ill_formed rfl
    | abs a => exact of_three (a := a) rfl rfl rfl (by decide) (congrArg (fun w => Instr.cpx (.mem (.abs w))) (wordOf_bytes a))
    | abx a => exact of_ill_formed rfl
    | aby a => exact of_ill_formed rfl
    | izx nn => exact of_ill_formed rfl
    | izy nn => exact of_ill_formed rfl

theorem cpy (o : Src) : Statement (.cpy o) := by
  cases o with
  | imm v => exact of_two rfl rfl rfl (by decide) (fun _ => rfl)
  | mem m =>
    cases m with
    | zp nn => exact of_two rfl rfl rfl (by decide) (fun _ => rfl)
    | zpx nn => exact of_ill_formed rfl
    | zpy nn => exact of_ill_formed rfl
    | abs a => exact of_three (a := a) rfl rfl rfl (by decide) (congrArg (fun w => Instr.cpy (.mem (.abs w))) (wordOf_bytes a))
    | abx a => exact of_ill_formed rfl
    | aby a => exact of_ill_formed rfl
    | izx nn => exact of_ill_formed rfl
    | izy nn => exact of_ill_formed rfl

theorem bit (m : Mem) : Statement (.bit m) := by
  cases m with
  | zp nn => exact of_two rfl rfl rfl (by decide) (fun _ => rfl)
  | zpx nn => exact of_ill_formed rfl
  | zpy nn => exact of_ill_formed rfl
  | abs a => exact of_three (a := a) rfl rfl rfl (by decide) (congrArg (fun w => Instr.bit (.abs w)) (wordOf_bytes a))
  | abx a => exact of_ill_formed rfl
  | aby a => exact of_ill_formed rfl
  | izx nn => exact of_ill_formed rfl
  | izy nn => exact of_ill_formed rfl

theorem inc (m : Mem) : Statement (.inc m) := by
  cases m with
  | zp nn => exact of_two rfl rfl rfl (by decide) (fun _ => rfl)
  | zpx nn => exact of_two rfl rfl rfl (by decide) (fun _ => rfl)
  | zpy nn => exact of_ill_formed rfl
  | abs a => exact of_three (a := a) rfl rfl rfl (by decide) (congrArg (fun w => Instr.inc (.abs w)) (wordOf_bytes a))
  | abx a => exact of_three (a := a) rfl rfl rfl (by decide) (congrArg (fun w => Instr.inc (.abx w)) (wordOf_bytes a))
  | aby a => exact of_ill_formed rfl
  | izx nn => exact of_ill_formed rfl
  | izy nn => exact of_ill_formed rfl

theorem dec (m : Mem) : Statement (.dec m) := by
  cases m with
  | zp nn => exact of_two rfl rfl rfl (by decide) (fun _ => rfl)
  | zpx nn => exact of_two rfl rfl rfl (by decide) (fun _ => rfl)
  | zpy nn => exact of_ill_formed rfl
  | abs a => exact of_three (a := a) rfl rfl rfl (by decide) (congrArg (fun w => Instr.dec (.abs w)) (wordOf_bytes a))
  | abx a => exact of_three (a := a) rfl rfl rfl (by decide) (congrArg (fun w => Instr.dec (.abx w)) (wordOf_bytes a))
  | aby a => exact of_ill_formed rfl
  | izx nn => exact of_ill_formed rfl
  | izy nn => exact of_ill_formed rfl

theorem inx : Statement .inx := of_one rfl rfl rfl (by decide) (fun _ _ => rfl)

theorem iny : Statement .iny := of_one rfl rfl rfl (by decide) (fun _ _ => rfl)

theorem dex : Statement .dex := of_one rfl rfl rfl (by decide) (fun _ _ => rfl)

theorem dey : Statement .dey := of_one rfl rfl rfl (by decide) (fun _ _ => rfl)

theorem asl (o : Rmw) : Statement (.asl o) := by
  cases o with
  | acc => exact of_one rfl rfl rfl (by decide) (fun _ _ => rfl)
  | mem m =>
    cases m with
    | zp nn => exact of_two rfl rfl rfl (by decide) (fun _ => rfl)
    | zpx nn => exact of_two rfl rfl rfl (by decide) (fun _ => rfl)
    | zpy nn => exact of_ill_formed rfl
    | abs a => exact of_three (a := a) rfl rfl rfl (by decide) (congrArg (fun w => Instr.asl (.mem (.abs w))) (wordOf_bytes a))
    | abx a => exact of_three (a := a) rfl rfl rfl (by decide) (congrArg (fun w => Instr.asl (.mem (.abx w))) (wordOf_bytes a))
    | aby a => exact of_ill_formed rfl
    | izx nn => exact of_ill_formed rfl
    | izy nn => exact of_ill_formed rfl

theorem lsr (o : Rmw) : Statement (.lsr o) := by
  cases o with
  | acc => exact of_one rfl rfl rfl (by decide) (fun _ _ => rfl)
  | mem m =>
    cases m with
    | zp nn => exact of_two rfl rfl rfl (by decide) (fun _ => rfl)
    | zpx nn => exact of_two rfl rfl rfl (by decide) (fun _ => rfl)
    | zpy nn => exact of_ill_formed rfl
    | abs a => exact of_three (a := a) rfl rfl rfl (by decide) (congrArg (fun w => Instr.lsr (.mem (.abs w))) (wordOf_bytes a))
    | abx a => exact of_three (a := a) rfl rfl rfl (by decide) (congrArg (fun w => Instr.lsr (.mem (.abx w))) (wordOf_bytes a))
    | aby a => exact of_ill_formed rfl
    | izx nn => exact of_ill_formed rfl
    | izy nn => exact of_ill_formed rfl

theorem rol (o : Rmw) : Statement (.rol o) := by
  cases o with
  | acc => exact of_one rfl rfl rfl (by decide) (fun _ _ => rfl)
  | mem m =>
    cases m with
    | zp nn => exact of_two rfl rfl rfl (by decide) (fun _ => rfl)
    | zpx nn => exact of_two rfl rfl rfl (by decide) (fun _ => rfl)
    | zpy nn => exact of_ill_formed rfl
    | abs a => exact of_three (a := a) rfl rfl rfl (by decide) (congrArg (fun w => Instr.rol (.mem (.abs w))) (wordOf_bytes a))
    | abx a => exact of_three (a := a) rfl rfl rfl (by decide) (congrArg (fun w => Instr.rol (.mem (.abx w))) (wordOf_bytes a))
    | aby a => exact of_ill_formed rfl
    | izx nn => exact of_ill_formed rfl
    | izy nn => exact of_ill_formed rfl

theorem ror (o : Rmw) : Statement (.ror o) := by
  cases o with
  | acc => exact of_one rfl rfl rfl (by decide) (fun _ _ => rfl)
  | mem m =>
    cases m with
    | zp nn => exact of_two rfl rfl rfl (by decide) (fun _ => rfl)
    | zpx nn => exact of_two rfl rfl rfl (by decide) (fun _ => rfl)
    | zpy nn => exact of_ill_formed rfl
    | abs a => exact of_three (a := a) rfl rfl rfl (by decide) (congrArg (fun w => Instr.ror (.mem (.abs w))) (wordOf_bytes a))
    | abx a => exact of_three (a := a) rfl rfl rfl (by decide) (congrArg (fun w => Instr.ror (.mem (.abx w))) (wordOf_bytes a))
    | aby a => exact of_ill_formed rfl
    | izx nn => exact of_ill_formed rfl
    | izy nn => exact of_ill_formed rfl

theorem jmp (j : Jump) : Statement (.jmp j) := by
  cases j with
  | abs a => exact of_three (a := a) rfl rfl rfl (by decide) (congrArg (fun w => Instr.jmp (.abs w)) (wordOf_bytes a))
  | ind a => exact of_three (a := a) rfl rfl rfl (by decide) (congrArg (fun w => Instr.jmp (.ind w)) (wordOf_bytes a))

theorem jsr (target : Word) : Statement (.jsr target) :=
  of_three (a := target) rfl rfl rfl (by decide) (congrArg Instr.jsr (wordOf_bytes target))

theorem rts : Statement .rts := of_one rfl rfl rfl (by decide) (fun _ _ => rfl)

theorem bpl (off : Byte) : Statement (.bpl off) := of_two rfl rfl rfl (by decide) (fun _ => rfl)

theorem bmi (off : Byte) : Statement (.bmi off) := of_two rfl rfl rfl (by decide) (fun _ => rfl)

theorem bvc (off : Byte) : Statement (.bvc off) := of_two rfl rfl rfl (by decide) (fun _ => rfl)

theorem bvs (off : Byte) : Statement (.bvs off) := of_two rfl rfl rfl (by decide) (fun _ => rfl)

theorem bcc (off : Byte) : Statement (.bcc off) := of_two rfl rfl rfl (by decide) (fun _ => rfl)

theorem bcs (off : Byte) : Statement (.bcs off) := of_two rfl rfl rfl (by decide) (fun _ => rfl)

theorem bne (off : Byte) : Statement (.bne off) := of_two rfl rfl rfl (by decide) (fun _ => rfl)

theorem beq (off : Byte) : Statement (.beq off) := of_two rfl rfl rfl (by decide) (fun _ => rfl)

theorem pha : Statement .pha := of_one rfl rfl rfl (by decide) (fun _ _ => rfl)

theorem pla : Statement .pla := of_one rfl rfl rfl (by decide) (fun _ _ => rfl)

theorem php : Statement .php := of_one rfl rfl rfl (by decide) (fun _ _ => rfl)

theorem plp : Statement .plp := of_one rfl rfl rfl (by decide) (fun _ _ => rfl)

theorem clc : Statement .clc := of_one rfl rfl rfl (by decide) (fun _ _ => rfl)

theorem sec : Statement .sec := of_one rfl rfl rfl (by decide) (fun _ _ => rfl)

theorem cli : Statement .cli := of_one rfl rfl rfl (by decide) (fun _ _ => rfl)

theorem sei : Statement .sei := of_one rfl rfl rfl (by decide) (fun _ _ => rfl)

theorem clv : Statement .clv := of_one rfl rfl rfl (by decide) (fun _ _ => rfl)

theorem cld : Statement .cld := of_one rfl rfl rfl (by decide) (fun _ _ => rfl)

theorem sed : Statement .sed := of_one rfl rfl rfl (by decide) (fun _ _ => rfl)

theorem nop : Statement .nop := of_one rfl rfl rfl (by decide) (fun _ _ => rfl)

theorem brk : Statement .brk := of_one rfl rfl rfl (by decide) (fun _ _ => rfl)

theorem rti : Statement .rti := of_one rfl rfl rfl (by decide) (fun _ _ => rfl)

theorem undef (opcode : Byte) : Statement (.undef opcode) := by
  intro hw
  have hc : undefinedOpcodes.contains opcode = true := hw
  have hd : ∀ l h, decodeOp opcode l h = .undef opcode := fun l h => by
    rw [decodeOp, Option.isNone_iff_eq_none.mp (decodeOp_undefined opcode (List.contains_iff_mem.mp hc))]
  exact of_one (by rw [Instr.opcode, if_pos hc]) rfl rfl (by rw [opLength, hd]; rfl) hd hw

end Sys2Proof.Laws.RoundTrip
end

