-- ==== Sys2Proof/Laws/Render.lean ====
section
/-! SUPPORT. The composite as a memory of pixels. -/

namespace Sys2Proof.Machine

theorem composite_wf (p : Ppu) : (composite p).wf 61440 := by
  unfold composite
  exact Memory.tabulate_wf _ _

/-- Each cell of the composite is the pixel of its place. -/
theorem read_composite {p : Ppu} {px py : Nat} (hx : px < 256) (hy : py < 240) :
    (composite p).read (pixelCell px py) = framePixel p px py := by
  unfold composite
  rw [pixelCell, Memory.read_tabulate, if_pos (by omega), show (py * 256 + px) % 256 = px by omega,
    show (py * 256 + px) / 256 = py by omega]

end Sys2Proof.Machine
end

