-- ==== Sys2Proof/Laws/Step.lean ====
section
/-! SUPPORT. What an instruction's fetch, its meaning and a whole step can change: the inversion lemmas that claims over all
instructions and all steps cite. -/

namespace Sys2Proof.Machine

/-- What no bus access, fetch or meaning touches: the frame buffer, the vblank bit but to clear it, the driver, the
NMI-pending bit, the program ROM and the input snapshot. -/
structure BusFrame (s t : State) : Prop where
  status : t.ppu.status = s.ppu.status ∨ t.ppu.status = s.ppu.status &&& 0x7F
  fb : t.ppu.fb = s.ppu.fb
  drv : t.drv = s.drv
  nmi : t.cpu.nmiPending = s.cpu.nmiPending
  prg : t.bus.prg = s.bus.prg
  snapshot : t.bus.ctlSnapshot = s.bus.ctlSnapshot

theorem BusFrame.same (s : State) : BusFrame s s := ⟨.inl rfl, rfl, rfl, rfl, rfl, rfl⟩

theorem BusFrame.trans {s t u : State} (a : BusFrame s t) (b : BusFrame t u) : BusFrame s u := by
  refine ⟨?_, b.fb.trans a.fb, b.drv.trans a.drv, b.nmi.trans a.nmi, b.prg.trans a.prg, b.snapshot.trans a.snapshot⟩
  rcases b.status with h | h <;> rcases a.status with h' | h' <;> rw [h, h']
  · exact .inl rfl
  · exact .inr rfl
  · exact .inr rfl
  · exact .inr (and_7F_idem _)

/-- Registers other than the NMI-pending bit are outside the frame. -/
theorem BusFrame.setCpu {s t : State} (h : BusFrame s t) (c : Cpu) (hc : c.nmiPending = t.cpu.nmiPending) :
    BusFrame s { t with cpu := c } :=
  ⟨h.status, h.fb, h.drv, hc.trans h.nmi, h.prg, h.snapshot⟩

theorem BusFrame.setP {s t : State} (h : BusFrame s t) (p : Byte) : BusFrame s (t.setP p) := h.setCpu _ rfl

theorem memRead_busFrame (a : Word) (s : State) : BusFrame s (memRead a s).2 :=
  ⟨memRead_status a s, memRead_fb a s, memRead_drv a s, by rw [memRead_cpu], memRead_prg a s, memRead_ctlSnapshot a s⟩

theorem memWrite_busFrame (a : Word) (d : Byte) (s : State) : BusFrame s (memWrite a d s) :=
  ⟨(memWrite_status_fb a d s).1, (memWrite_status_fb a d s).2, memWrite_drv a d s, by rw [memWrite_cpu],
    memWrite_prg a d s, memWrite_ctlSnapshot a d s⟩

theorem readSrc_busFrame (o : Src) (s : State) : BusFrame s (readSrc o s).2 := by
  cases o with
  | imm v => exact .same _
  | mem m => rw [readSrc]; simp only [readMem_eq]; exact memRead_busFrame _ _

theorem jumpTarget_busFrame (j : Jump) (s : State) : BusFrame s (jumpTarget j s).2 := by
  cases j with
  | abs _ => exact .same _
  | ind ptr => exact (memRead_busFrame _ _).trans (memRead_busFrame _ _)

theorem modifyMem_busFrame (m : Mem) (f : Byte → Byte → Byte × Byte) (s : State) : BusFrame s (modifyMem m f s) := by
  rw [modifyMem_eq]
  exact ((memRead_busFrame _ _).setP _).trans (memWrite_busFrame _ _ _)

/-- The frame of every meaning. -/
theorem exec_busFrame {i : Instr} {s t : State} (e : exec i s = .next t) : BusFrame s t := by
  cases i with
  | undef o => cases e; exact .same _
  | nop => cases e; exact .same _
  | jmp j => cases e; exact (jumpTarget_busFrame j s).setCpu _ rfl
  | brk => cases e; rw [takeTrap_eq _ _ (by decide) (by decide)]; exact ⟨.inl rfl, rfl, rfl, rfl, rfl, rfl⟩
  | rti => cases e; rw [returnFromTrap_eq]; exact ⟨.inl rfl, rfl, rfl, rfl, rfl, rfl⟩
  | jsr a => cases e; rw [pushWord_eq]; exact ⟨.inl rfl, rfl, rfl, rfl, rfl, rfl⟩
  | rts => cases e; rw [pullWord_eq]; exact ⟨.inl rfl, rfl, rfl, rfl, rfl, rfl⟩
  | pha => cases e; rw [push_eq]; exact ⟨.inl rfl, rfl, rfl, rfl, rfl, rfl⟩
  | php => cases e; rw [push_eq]; exact ⟨.inl rfl, rfl, rfl, rfl, rfl, rfl⟩
  | pla => cases e; rw [pull_eq]; exact ⟨.inl rfl, rfl, rfl, rfl, rfl, rfl⟩
  | plp => cases e; rw [pull_eq]; exact ⟨.inl rfl, rfl, rfl, rfl, rfl, rfl⟩
  | sta m => cases e; rw [storeMem_eq]; exact memWrite_busFrame _ _ _
  | stx m => cases e; rw [storeMem_eq]; exact memWrite_busFrame _ _ _
  | sty m => cases e; rw [storeMem_eq]; exact memWrite_busFrame _ _ _
  | inc m => cases e; exact modifyMem_busFrame _ _ _
  | dec m => cases e; exact modifyMem_busFrame _ _ _
  | bit m => cases e; rw [readMem_eq]; exact (memRead_busFrame _ _).setCpu _ rfl
  | asl o => cases e; cases o; exact (BusFrame.same s).setCpu _ rfl; exact modifyMem_busFrame _ _ _
  | lsr o => cases e; cases o; exact (BusFrame.same s).setCpu _ rfl; exact modifyMem_busFrame _ _ _
  | rol o => cases e; cases o; exact (BusFrame.same s).setCpu _ rfl; exact modifyMem_busFrame _ _ _
  | ror o => cases e; cases o; exact (BusFrame.same s).setCpu _ rfl; exact modifyMem_busFrame _ _ _
  | _ =>
    cases e
    first
      | exact (readSrc_busFrame _ _).setCpu _ rfl
      | exact (BusFrame.same _).setCpu _ rfl
      | (unfold branchIf; split; exact (BusFrame.same _).setCpu _ rfl; exact .same _)

theorem setCpu_wf {s : State} (h : MemoriesOk s) (c : Cpu) : MemoriesOk { s with cpu := c } := ⟨h.ram, h.prg, h.ppu⟩

/-- Every meaning keeps the canonical form of every memory. -/
theorem exec_wf {i : Instr} {s t : State} (h : MemoriesOk s) (e : exec i s = .next t) : MemoriesOk t := by
  have hs := s.cpu.sp.isLt
  cases i with
  | undef o => cases e; exact h
  | nop => cases e; exact h
  | jmp j => cases e; exact setCpu_wf (jumpTarget_wf h j) _
  | brk => cases e; rw [takeTrap_eq _ _ (by decide) (by decide)]; exact ⟨ramTrap_wf h.ram, h.prg, h.ppu⟩
  | rti => cases e; rw [returnFromTrap_eq]; exact ⟨h.ram, h.prg, h.ppu⟩
  | jsr a => cases e; rw [pushWord_eq]; exact ⟨ramPushWord_wf h.ram, h.prg, h.ppu⟩
  | rts => cases e; rw [pullWord_eq]; exact ⟨h.ram, h.prg, h.ppu⟩
  | pha => cases e; rw [push_eq]; exact ⟨Memory.write_wf h.ram (by omega) _, h.prg, h.ppu⟩
  | php => cases e; rw [push_eq]; exact ⟨Memory.write_wf h.ram (by omega) _, h.prg, h.ppu⟩
  | pla => cases e; rw [pull_eq]; exact ⟨h.ram, h.prg, h.ppu⟩
  | plp => cases e; rw [pull_eq]; exact ⟨h.ram, h.prg, h.ppu⟩
  | sta m => cases e; exact storeMem_wf h _ _
  | stx m => cases e; exact storeMem_wf h _ _
  | sty m => cases e; exact storeMem_wf h _ _
  | inc m => cases e; exact modifyMem_wf h _ _
  | dec m => cases e; exact modifyMem_wf h _ _
  | bit m => cases e; rw [readMem_eq]; exact setCpu_wf (memRead_wf h _) _
  | asl o => cases e; cases o; exact setCpu_wf h _; exact modifyMem_wf h _ _
  | lsr o => cases e; cases o; exact setCpu_wf h _; exact modifyMem_wf h _ _
  | rol o => cases e; cases o; exact setCpu_wf h _; exact modifyMem_wf h _ _
  | ror o => cases e; cases o; exact setCpu_wf h _; exact modifyMem_wf h _ _
  | _ =>
    cases e
    first
      | exact setCpu_wf (readSrc_wf h _) _
      | exact setCpu_wf h _
      | (unfold branchIf; split; exact setCpu_wf h _; exact h)

/-- A fetch reads the opcode at PC and moves PC; no other register changes. -/
theorem fetchInstr_frame (s : State) :
    BusFrame s (fetchInstr s).state ∧ (MemoriesOk s → MemoriesOk (fetchInstr s).state) ∧
      (∃ pc, (fetchInstr s).state.cpu = { s.cpu with pc := pc }) ∧ (fetchInstr s).op = (memRead s.cpu.pc s).1 := by
  have fb : ∀ s, BusFrame s (fetchByte s).2 ∧ (MemoriesOk s → MemoriesOk (fetchByte s).2) ∧
      ∃ pc, (fetchByte s).2.cpu = { s.cpu with pc := pc } := by
    intro s
    refine ⟨(memRead_busFrame _ _).setCpu _ rfl, fun h => setCpu_wf (memRead_wf h _) _, ?_⟩
    simp [fetchByte, State.setPc]
  obtain ⟨a1, b1, p1, c1⟩ := fb s
  obtain ⟨a2, b2, p2, c2⟩ := fb (fetchByte s).2
  obtain ⟨a3, b3, p3, c3⟩ := fb (fetchByte (fetchByte s).2).2
  unfold fetchInstr
  simp only
  split
  · exact ⟨(a1.trans a2).trans a3, fun h => b3 (b2 (b1 h)), ⟨p3, by rw [c3, c2, c1]⟩, rfl⟩
  · exact ⟨a1.trans a2, fun h => b2 (b1 h), ⟨p2, by rw [c2, c1]⟩, rfl⟩
  · exact ⟨a1, b1, ⟨p1, c1⟩, rfl⟩

/-- Everything a step can be: the head of a frame, the NMI service, one instruction after its fetch, or the render. -/
theorem step_cases {s t : State} (e : step s = .next t) :
    (s.drv.phase = .input ∧ t = deliverInput s) ∨
    (s.drv.phase = .cpu ∧ s.cpu.nmiPending = true ∧ t = account nmiCycles (nmiService s)) ∨
    (s.drv.phase = .cpu ∧ s.cpu.nmiPending = false ∧ ∃ u,
      exec (fetchInstr s).instr (fetchInstr s).state = .next u ∧
      t = account (cyclesOf s.drv.params (fetchInstr s).op) u) ∨
    (s.drv.phase = .render ∧ t = finishFrame s) := by
  unfold step at e
  split at e
  · cases e; exact .inl ⟨‹_›, rfl⟩
  · unfold cpuStep at e
    split at e
    · cases e; exact .inr (.inl ⟨‹_›, ‹_›, rfl⟩)
    · simp only at e
      split at e
      · cases e; exact .inr (.inr (.inl ⟨‹_›, Bool.eq_false_iff.mpr ‹_›, _, ‹_›, rfl⟩))
      · exact absurd e nofun
      · exact absurd e nofun
  · cases e; exact .inr (.inr (.inr ⟨‹_›, rfl⟩))

/-- The state a boot leaves. -/
theorem boot_eq (prg chr ram : List Byte) (prm : Params) :
    boot prg chr ram prm =
      { cpu :=
          { a := 0, x := 0, y := 0, sp := 0xFD, p := 0x24
            pc := wordOf ((Memory.ofImage 0x8000 prg).read 0x7FFC) ((Memory.ofImage 0x8000 prg).read 0x7FFD)
            nmiPending := false }
        bus :=
          { ram := Memory.ofImage 0x0800 ram, prg := Memory.ofImage 0x8000 prg
            ctlStrobe := false, ctlShift := 0, ctlSnapshot := 0 }
        ppu := Ppu.cleared (Memory.ofImage 0x2000 chr)
        drv := { phase := .input, frame := 0, acc := 0, params := prm } } := by
  rw [boot, cpuReset, read16_rom (by decide) (by decide)]
  simp only [ppuReset]
  rfl

end Sys2Proof.Machine
end

