-- ==== Sys2Proof/Tests/Slice0.lean ====
section
/-! SUPPORT. Tests of single steps against words and vectors the spec writes out, and a witness for every statement that
has hypotheses. -/

namespace Sys2Proof.Tests

-- One theorem after another: each waits for the kernel, and waiting in parallel takes a thread a theorem.
set_option Elab.async false

open Machine Claim

/-! ## Machines and checks -/

/-- The registers A, X, Y, S, P and PC. -/
def regs (a x y sp p : Byte) (pc : Word) : Cpu :=
  { a := a, x := x, y := y, sp := sp, p := p, pc := pc, nmiPending := false }

/-- A machine about to perform a CPU step, with these RAM and ROM cells. -/
def machine (ram prg : Memory 8) (c : Cpu) : State :=
  { State.reset with
    cpu := c
    bus := { State.reset.bus with ram := ram, prg := prg }
    drv := { State.reset.drv with phase := .cpu } }

/-- One step leaves these registers and these bytes on the bus, and reports these cycles. -/
def runs (s : State) (c : Cpu) (cells : List (Word × Byte)) (cycles : Nat) : Bool :=
  match step s with
  | .next t => t.cpu == c && cells.all (fun e => (memRead e.1 t).1 == e.2) && t.drv.acc == cycles
  | _ => false

/-! ## One step of each instruction (95_test_vectors.md L2-A to L2-E) -/

/-- VA7, `LDA $FFFF,Y`. -/
theorem test_lda : runs (machine [(0x0001, 0x33)] [(0x0000, 0xB9), (0x0001, 0xFF), (0x0002, 0xFF)] (regs 0x00 0x00 0x02 0xFD 0x24 0x8000))
    (regs 0x33 0x00 0x02 0xFD 0x24 0x8003) [] 4 = true := by decide +kernel

/-- VA8, `LDA ($FF,X)`. -/
theorem test_lda_2 : runs (machine [(0x0000, 0x02), (0x00FF, 0x34), (0x0100, 0x07), (0x0234, 0xAB)] [(0x0000, 0xA1), (0x0001, 0xFF)] (regs 0x00 0x00 0x00 0xFD 0x24 0x8000))
    (regs 0xAB 0x00 0x00 0xFD 0xA4 0x8002) [] 6 = true := by decide +kernel

/-- VA12, `LDX $10,Y`. -/
theorem test_ldx : runs (machine [(0x0005, 0x80)] [(0x0000, 0xB6), (0x0001, 0x10)] (regs 0x00 0x00 0xF5 0xFD 0x24 0x8000))
    (regs 0x00 0x80 0xF5 0xFD 0xA4 0x8002) [] 4 = true := by decide +kernel

/-- VA14, `LDY $0200,X`. -/
theorem test_ldy : runs (machine [(0x02FF, 0x01)] [(0x0000, 0xBC), (0x0002, 0x02)] (regs 0x00 0xFF 0x00 0xFD 0x24 0x8000))
    (regs 0x00 0xFF 0x01 0xFD 0x24 0x8003) [] 4 = true := by decide +kernel

/-- VA22, `STA ($20),Y`. -/
theorem test_sta : runs (machine [(0x0020, 0x01), (0x0021, 0x03)] [(0x0000, 0x91), (0x0001, 0x20)] (regs 0x9A 0x00 0xFF 0xFD 0x24 0x8000))
    (regs 0x9A 0x00 0xFF 0xFD 0x24 0x8002) [(0x0400, 0x9A)] 6 = true := by decide +kernel

/-- VA24, `STX $10,Y`. -/
theorem test_stx : runs (machine [] [(0x0000, 0x96), (0x0001, 0x10)] (regs 0x00 0x66 0x01 0xFD 0x24 0x8000))
    (regs 0x00 0x66 0x01 0xFD 0x24 0x8002) [(0x0011, 0x66)] 4 = true := by decide +kernel

/-- VA25, `STY $10,X`. -/
theorem test_sty : runs (machine [] [(0x0000, 0x94), (0x0001, 0x10)] (regs 0x00 0xF0 0x67 0xFD 0x24 0x8000))
    (regs 0x00 0xF0 0x67 0xFD 0x24 0x8002) [(0x0000, 0x67)] 4 = true := by decide +kernel

/-- VA26, `TAX`. -/
theorem test_tax : runs (machine [] [(0x0000, 0xAA)] (regs 0x00 0x05 0x00 0xFD 0x24 0x8000))
    (regs 0x00 0x00 0x00 0xFD 0x26 0x8001) [] 2 = true := by decide +kernel

/-- VA27, `TAY`. -/
theorem test_tay : runs (machine [] [(0x0000, 0xA8)] (regs 0xFF 0x00 0x00 0xFD 0x24 0x8000))
    (regs 0xFF 0x00 0xFF 0xFD 0xA4 0x8001) [] 2 = true := by decide +kernel

/-- VA28, `TXA`. -/
theorem test_txa : runs (machine [] [(0x0000, 0x8A)] (regs 0x01 0x80 0x00 0xFD 0x24 0x8000))
    (regs 0x80 0x80 0x00 0xFD 0xA4 0x8001) [] 2 = true := by decide +kernel

/-- VA29, `TYA`. -/
theorem test_tya : runs (machine [] [(0x0000, 0x98)] (regs 0x01 0x00 0x00 0xFD 0x24 0x8000))
    (regs 0x00 0x00 0x00 0xFD 0x26 0x8001) [] 2 = true := by decide +kernel

/-- VA31, `TSX`. -/
theorem test_tsx : runs (machine [] [(0x0000, 0xBA)] (regs 0x00 0x09 0x00 0x00 0x24 0x8000))
    (regs 0x00 0x00 0x00 0x00 0x26 0x8001) [] 2 = true := by decide +kernel

/-- VA32, `TXS`. -/
theorem test_txs : runs (machine [] [(0x0000, 0x9A)] (regs 0x00 0x00 0x00 0xFD 0x24 0x8000))
    (regs 0x00 0x00 0x00 0x00 0x24 0x8001) [] 2 = true := by decide +kernel

/-- VB1, `ADC #$50`. -/
theorem test_adc : runs (machine [] [(0x0000, 0x69), (0x0001, 0x50)] (regs 0x50 0x00 0x00 0xFD 0x24 0x8000))
    (regs 0xA0 0x00 0x00 0xFD 0xE4 0x8002) [] 2 = true := by decide +kernel

/-- VB6, `ADC #$01`. -/
theorem test_adc_2 : runs (machine [] [(0x0000, 0x69), (0x0001, 0x01)] (regs 0x09 0x00 0x00 0xFD 0x2C 0x8000))
    (regs 0x0A 0x00 0x00 0xFD 0x2C 0x8002) [] 2 = true := by decide +kernel

/-- VB11, `SBC #$01`. -/
theorem test_sbc : runs (machine [] [(0x0000, 0xE9), (0x0001, 0x01)] (regs 0x80 0x00 0x00 0xFD 0x25 0x8000))
    (regs 0x7F 0x00 0x00 0xFD 0x65 0x8002) [] 2 = true := by decide +kernel

/-- VB14, `SBC #$00`. -/
theorem test_sbc_2 : runs (machine [] [(0x0000, 0xE9)] (regs 0x00 0x00 0x00 0xFD 0x24 0x8000))
    (regs 0xFF 0x00 0x00 0xFD 0xA4 0x8002) [] 2 = true := by decide +kernel

/-- VB15, `AND #$0F`. -/
theorem test_and : runs (machine [] [(0x0000, 0x29), (0x0001, 0x0F)] (regs 0xF0 0x00 0x00 0xFD 0x24 0x8000))
    (regs 0x00 0x00 0x00 0xFD 0x26 0x8002) [] 2 = true := by decide +kernel

/-- VB18, `ORA $0200,Y`. -/
theorem test_ora : runs (machine [(0x0203, 0x80)] [(0x0000, 0x19), (0x0002, 0x02)] (regs 0x01 0x00 0x03 0xFD 0x24 0x8000))
    (regs 0x81 0x00 0x03 0xFD 0xA4 0x8003) [] 4 = true := by decide +kernel

/-- VB20, `EOR #$FF`. -/
theorem test_eor : runs (machine [] [(0x0000, 0x49), (0x0001, 0xFF)] (regs 0x0F 0x00 0x00 0xFD 0x24 0x8000))
    (regs 0xF0 0x00 0x00 0xFD 0xA4 0x8002) [] 2 = true := by decide +kernel

/-- VB22, `CMP #$41`. -/
theorem test_cmp : runs (machine [] [(0x0000, 0xC9), (0x0001, 0x41)] (regs 0x40 0x00 0x00 0xFD 0x24 0x8000))
    (regs 0x40 0x00 0x00 0xFD 0xA4 0x8002) [] 2 = true := by decide +kernel

/-- VB26, `CPX $10`. -/
theorem test_cpx : runs (machine [(0x0010, 0x20)] [(0x0000, 0xE4), (0x0001, 0x10)] (regs 0x00 0x10 0x00 0xFD 0x24 0x8000))
    (regs 0x00 0x10 0x00 0xFD 0xA4 0x8002) [] 3 = true := by decide +kernel

/-- VB27, `CPY #$00`. -/
theorem test_cpy : runs (machine [] [(0x0000, 0xC0)] (regs 0x00 0x00 0x00 0xFD 0x24 0x8000))
    (regs 0x00 0x00 0x00 0xFD 0x27 0x8002) [] 2 = true := by decide +kernel

/-- VB29, `BIT $10`. -/
theorem test_bit : runs (machine [(0x0010, 0x3F)] [(0x0000, 0x24), (0x0001, 0x10)] (regs 0xFF 0x00 0x00 0xFD 0xE6 0x8000))
    (regs 0xFF 0x00 0x00 0xFD 0x24 0x8002) [] 3 = true := by decide +kernel

/-- VB32, `INC $10`. -/
theorem test_inc : runs (machine [(0x0010, 0x7F)] [(0x0000, 0xE6), (0x0001, 0x10)] (regs 0x00 0x00 0x00 0xFD 0x65 0x8000))
    (regs 0x00 0x00 0x00 0xFD 0xE5 0x8002) [(0x0010, 0x80)] 5 = true := by decide +kernel

/-- VB33, `DEC $10,X`. -/
theorem test_dec : runs (machine [] [(0x0000, 0xD6), (0x0001, 0x10)] (regs 0x00 0x01 0x00 0xFD 0x24 0x8000))
    (regs 0x00 0x01 0x00 0xFD 0xA4 0x8002) [(0x0011, 0xFF)] 6 = true := by decide +kernel

/-- VB36, `INX`. -/
theorem test_inx : runs (machine [] [(0x0000, 0xE8)] (regs 0x00 0xFF 0x00 0xFD 0x24 0x8000))
    (regs 0x00 0x00 0x00 0xFD 0x26 0x8001) [] 2 = true := by decide +kernel

/-- VB38, `INY`. -/
theorem test_iny : runs (machine [] [(0x0000, 0xC8)] (regs 0x00 0x00 0x7F 0xFD 0x24 0x8000))
    (regs 0x00 0x00 0x80 0xFD 0xA4 0x8001) [] 2 = true := by decide +kernel

/-- VB39, `DEX`. -/
theorem test_dex : runs (machine [] [(0x0000, 0xCA)] (regs 0x00 0x00 0x00 0xFD 0x24 0x8000))
    (regs 0x00 0xFF 0x00 0xFD 0xA4 0x8001) [] 2 = true := by decide +kernel

/-- VB40, `DEY`. -/
theorem test_dey : runs (machine [] [(0x0000, 0x88)] (regs 0x00 0x00 0x01 0xFD 0x24 0x8000))
    (regs 0x00 0x00 0x00 0xFD 0x26 0x8001) [] 2 = true := by decide +kernel

/-- VC1, `ASL A`. -/
theorem test_asl : runs (machine [] [(0x0000, 0x0A)] (regs 0x80 0x00 0x00 0xFD 0x24 0x8000))
    (regs 0x00 0x00 0x00 0xFD 0x27 0x8001) [] 2 = true := by decide +kernel

/-- VC9, `ASL $10`. -/
theorem test_asl_2 : runs (machine [(0x0010, 0xC0)] [(0x0000, 0x06), (0x0001, 0x10)] (regs 0x00 0x00 0x00 0xFD 0x24 0x8000))
    (regs 0x00 0x00 0x00 0xFD 0xA5 0x8002) [(0x0010, 0x80)] 5 = true := by decide +kernel

/-- VC10, `LSR $10,X`. -/
theorem test_lsr : runs (machine [(0x0001, 0x03)] [(0x0000, 0x56), (0x0001, 0x10)] (regs 0x00 0xF1 0x00 0xFD 0x24 0x8000))
    (regs 0x00 0xF1 0x00 0xFD 0x25 0x8002) [(0x0001, 0x01)] 6 = true := by decide +kernel

/-- VC5, `ROL A`. -/
theorem test_rol : runs (machine [] [(0x0000, 0x2A)] (regs 0x80 0x00 0x00 0xFD 0x25 0x8000))
    (regs 0x01 0x00 0x00 0xFD 0x25 0x8001) [] 2 = true := by decide +kernel

/-- VC12, `ROR $0200,X`. -/
theorem test_ror : runs (machine [(0x0202, 0xFE)] [(0x0000, 0x7E), (0x0002, 0x02)] (regs 0x00 0x02 0x00 0xFD 0x25 0x8000))
    (regs 0x00 0x02 0x00 0xFD 0xA4 0x8003) [(0x0202, 0xFF)] 7 = true := by decide +kernel

/-- VD1, `JMP $1234`. -/
theorem test_jmp : runs (machine [] [(0x0000, 0x4C), (0x0001, 0x34), (0x0002, 0x12)] (regs 0x00 0x00 0x00 0xFD 0x24 0x8000))
    (regs 0x00 0x00 0x00 0xFD 0x24 0x1234) [] 3 = true := by decide +kernel

/-- VD3, `JMP ($02FF)`. -/
theorem test_jmp_2 : runs (machine [(0x0200, 0x12), (0x02FF, 0x34), (0x0300, 0x56)] [(0x0000, 0x6C), (0x0001, 0xFF), (0x0002, 0x02)] (regs 0x00 0x00 0x00 0xFD 0x24 0x8000))
    (regs 0x00 0x00 0x00 0xFD 0x24 0x1234) [] 5 = true := by decide +kernel

/-- VD5, `JSR $9000`. -/
theorem test_jsr : runs (machine [] [(0x0000, 0x20), (0x0002, 0x90)] (regs 0x00 0x00 0x00 0x00 0x24 0x8000))
    (regs 0x00 0x00 0x00 0xFE 0x24 0x9000) [(0x0100, 0x80), (0x01FF, 0x02)] 6 = true := by decide +kernel

/-- VD8, `RTS`. -/
theorem test_rts : runs (machine [(0x0100, 0xFF), (0x0101, 0xFF)] [(0x1000, 0x60)] (regs 0x00 0x00 0x00 0xFF 0x24 0x9000))
    (regs 0x00 0x00 0x00 0x01 0x24 0x0000) [] 6 = true := by decide +kernel

/-- VD9, `BPL +5`. -/
theorem test_bpl : runs (machine [] [(0x0000, 0x10), (0x0001, 0x05)] (regs 0x00 0x00 0x00 0xFD 0x24 0x8000))
    (regs 0x00 0x00 0x00 0xFD 0x24 0x8007) [] 2 = true := by decide +kernel

/-- VD11, `BMI -5`. -/
theorem test_bmi : runs (machine [] [(0x0005, 0x30), (0x0006, 0xFB)] (regs 0x00 0x00 0x00 0xFD 0xA4 0x8005))
    (regs 0x00 0x00 0x00 0xFD 0xA4 0x8002) [] 2 = true := by decide +kernel

/-- VD12, `BVC +2`. -/
theorem test_bvc : runs (machine [] [(0x0000, 0x50), (0x0001, 0x02)] (regs 0x00 0x00 0x00 0xFD 0x24 0x8000))
    (regs 0x00 0x00 0x00 0xFD 0x24 0x8004) [] 2 = true := by decide +kernel

/-- VD13, `BVS +2`. -/
theorem test_bvs : runs (machine [] [(0x0000, 0x70), (0x0001, 0x02)] (regs 0x00 0x00 0x00 0xFD 0x64 0x8000))
    (regs 0x00 0x00 0x00 0xFD 0x64 0x8004) [] 2 = true := by decide +kernel

/-- VD14, `BCC +$10`. -/
theorem test_bcc : runs (machine [] [(0x0000, 0x90), (0x0001, 0x10)] (regs 0x00 0x00 0x00 0xFD 0x25 0x8000))
    (regs 0x00 0x00 0x00 0xFD 0x25 0x8002) [] 2 = true := by decide +kernel

/-- VD15, `BCS +$10`. -/
theorem test_bcs : runs (machine [] [(0x0000, 0xB0), (0x0001, 0x10)] (regs 0x00 0x00 0x00 0xFD 0x25 0x8000))
    (regs 0x00 0x00 0x00 0xFD 0x25 0x8012) [] 2 = true := by decide +kernel

/-- VD19, `BNE -128`. -/
theorem test_bne : runs (machine [] [(0x0000, 0xD0), (0x0001, 0x80)] (regs 0x00 0x00 0x00 0xFD 0x24 0x8000))
    (regs 0x00 0x00 0x00 0xFD 0x24 0x7F82) [] 2 = true := by decide +kernel

/-- VD20, `BEQ +$7F`. -/
theorem test_beq : runs (machine [] [(0x7FF0, 0xF0), (0x7FF1, 0x7F)] (regs 0x00 0x00 0x00 0xFD 0x26 0xFFF0))
    (regs 0x00 0x00 0x00 0xFD 0x26 0x0071) [] 2 = true := by decide +kernel

/-- VE2, `PHA`. -/
theorem test_pha : runs (machine [] [(0x0000, 0x48)] (regs 0x42 0x00 0x00 0x00 0x24 0x8000))
    (regs 0x42 0x00 0x00 0xFF 0x24 0x8001) [(0x0100, 0x42)] 3 = true := by decide +kernel

/-- VE4, `PLA`. -/
theorem test_pla : runs (machine [(0x0100, 0x80)] [(0x0000, 0x68)] (regs 0x00 0x00 0x00 0xFF 0x24 0x8000))
    (regs 0x80 0x00 0x00 0x00 0xA4 0x8001) [] 4 = true := by decide +kernel

/-- VE6, `PHP`. -/
theorem test_php : runs (machine [] [(0x0000, 0x08)] (regs 0x00 0x00 0x00 0xFD 0xE3 0x8000))
    (regs 0x00 0x00 0x00 0xFC 0xE3 0x8001) [(0x01FD, 0xF3)] 3 = true := by decide +kernel

/-- VE7, `PLP`. -/
theorem test_plp : runs (machine [] [(0x0000, 0x28)] (regs 0x00 0x00 0x00 0xFC 0x24 0x8000))
    (regs 0x00 0x00 0x00 0xFD 0x20 0x8001) [] 4 = true := by decide +kernel

/-- VE10, `CLC`. -/
theorem test_clc : runs (machine [] [(0x0000, 0x18)] (regs 0x00 0x00 0x00 0xFD 0x25 0x8000))
    (regs 0x00 0x00 0x00 0xFD 0x24 0x8001) [] 2 = true := by decide +kernel

/-- VE11, `SEC`. -/
theorem test_sec : runs (machine [] [(0x0000, 0x38)] (regs 0x00 0x00 0x00 0xFD 0x24 0x8000))
    (regs 0x00 0x00 0x00 0xFD 0x25 0x8001) [] 2 = true := by decide +kernel

/-- VE12, `CLI`. -/
theorem test_cli : runs (machine [] [(0x0000, 0x58)] (regs 0x00 0x00 0x00 0xFD 0x24 0x8000))
    (regs 0x00 0x00 0x00 0xFD 0x20 0x8001) [] 2 = true := by decide +kernel

/-- VE13, `SEI`. -/
theorem test_sei : runs (machine [] [(0x0000, 0x78)] (regs 0x00 0x00 0x00 0xFD 0x20 0x8000))
    (regs 0x00 0x00 0x00 0xFD 0x24 0x8001) [] 2 = true := by decide +kernel

/-- VE14, `CLV`. -/
theorem test_clv : runs (machine [] [(0x0000, 0xB8)] (regs 0x00 0x00 0x00 0xFD 0x64 0x8000))
    (regs 0x00 0x00 0x00 0xFD 0x24 0x8001) [] 2 = true := by decide +kernel

/-- VE15, `CLD`. -/
theorem test_cld : runs (machine [] [(0x0000, 0xD8)] (regs 0x00 0x00 0x00 0xFD 0x2C 0x8000))
    (regs 0x00 0x00 0x00 0xFD 0x24 0x8001) [] 2 = true := by decide +kernel

/-- VE16, `SED`. -/
theorem test_sed : runs (machine [] [(0x0000, 0xF8)] (regs 0x00 0x00 0x00 0xFD 0x24 0x8000))
    (regs 0x00 0x00 0x00 0xFD 0x2C 0x8001) [] 2 = true := by decide +kernel

/-- VE17, `NOP`. -/
theorem test_nop : runs (machine [] [(0x0000, 0xEA)] (regs 0x00 0x00 0x00 0xFD 0x24 0x8000))
    (regs 0x00 0x00 0x00 0xFD 0x24 0x8001) [] 2 = true := by decide +kernel

/-- VE19, `BRK`. -/
theorem test_brk : runs (machine [(0x0201, 0xFF)] [(0x7FFF, 0x90)] (regs 0x00 0x00 0x00 0x01 0xE3 0x0200))
    (regs 0x00 0x00 0x00 0xFE 0xE7 0x9000) [(0x0101, 0x02), (0x0100, 0x02), (0x01FF, 0xF3)] 7 = true := by decide +kernel

/-- VE20, `RTI`. -/
theorem test_rti : runs (machine [(0x01FB, 0x34), (0x01FC, 0x02), (0x01FD, 0x80)] [(0x1000, 0x40)] (regs 0x00 0x00 0x00 0xFA 0x24 0x9000))
    (regs 0x00 0x00 0x00 0xFD 0x34 0x8002) [] 6 = true := by decide +kernel

/-- VE25, the undefined byte 0x0C. -/
theorem test_undef : runs (machine [] [(0x0000, 0x0C), (0x0001, 0x02), (0x0002, 0x20)] (regs 0x00 0x00 0x00 0xFD 0x24 0x8000))
    (regs 0x00 0x00 0x00 0xFD 0x24 0x8001) [] 2 = true := by decide +kernel

/-! ## Decoding: a word of every instruction, written out from the opcode map (30_encoding.md R94) -/

theorem test_decode_load_store_transfer :
    decode [0xB1, 0x20] = .ok (.lda (.mem (.izy 0x20))) [] ∧ decode [0xA2, 0x7F] = .ok (.ldx (.imm 0x7F)) [] ∧
    decode [0xBC, 0x34, 0x12] = .ok (.ldy (.mem (.abx 0x1234))) [] ∧ decode [0x81, 0x20] = .ok (.sta (.izx 0x20)) [] ∧
    decode [0x96, 0x10] = .ok (.stx (.zpy 0x10)) [] ∧ decode [0x94, 0x10] = .ok (.sty (.zpx 0x10)) [] ∧
    decode [0xAA] = .ok .tax [] ∧ decode [0xA8] = .ok .tay [] ∧ decode [0x8A] = .ok .txa [] ∧
    decode [0x98] = .ok .tya [] ∧ decode [0xBA] = .ok .tsx [] ∧ decode [0x9A] = .ok .txs [] := by decide +kernel

theorem test_decode_arithmetic :
    decode [0x79, 0x34, 0x12] = .ok (.adc (.mem (.aby 0x1234))) [] ∧ decode [0xE5, 0x10] = .ok (.sbc (.mem (.zp 0x10))) [] ∧
    decode [0x29, 0x0F] = .ok (.and (.imm 0x0F)) [] ∧ decode [0x0D, 0x34, 0x12] = .ok (.ora (.mem (.abs 0x1234))) [] ∧
    decode [0x41, 0x20] = .ok (.eor (.mem (.izx 0x20))) [] ∧ decode [0xD5, 0x10] = .ok (.cmp (.mem (.zpx 0x10))) [] ∧
    decode [0xE0, 0x05] = .ok (.cpx (.imm 0x05)) [] ∧ decode [0xCC, 0x34, 0x12] = .ok (.cpy (.mem (.abs 0x1234))) [] ∧
    decode [0x2C, 0x10, 0x02] = .ok (.bit (.abs 0x0210)) [] ∧ decode [0xF6, 0x10] = .ok (.inc (.zpx 0x10)) [] ∧
    decode [0xDE, 0xFF, 0x02] = .ok (.dec (.abx 0x02FF)) [] ∧ decode [0xE8] = .ok .inx [] ∧ decode [0xC8] = .ok .iny [] ∧
    decode [0xCA] = .ok .dex [] ∧ decode [0x88] = .ok .dey [] := by decide +kernel

theorem test_decode_shift :
    decode [0x0A] = .ok (.asl .acc) [] ∧ decode [0x56, 0x10] = .ok (.lsr (.mem (.zpx 0x10))) [] ∧
    decode [0x2E, 0x00, 0x02] = .ok (.rol (.mem (.abs 0x0200))) [] ∧
    decode [0x7E, 0x00, 0x02] = .ok (.ror (.mem (.abx 0x0200))) [] := by decide +kernel

theorem test_decode_control :
    decode [0x4C, 0x34, 0x12] = .ok (.jmp (.abs 0x1234)) [] ∧ decode [0x6C, 0xFF, 0x30] = .ok (.jmp (.ind 0x30FF)) [] ∧
    decode [0x20, 0x00, 0x90] = .ok (.jsr 0x9000) [] ∧ decode [0x60] = .ok .rts [] ∧ decode [0x10, 0x05] = .ok (.bpl 0x05) [] ∧
    decode [0x30, 0xFB] = .ok (.bmi 0xFB) [] ∧ decode [0x50, 0x02] = .ok (.bvc 0x02) [] ∧
    decode [0x70, 0x02] = .ok (.bvs 0x02) [] ∧ decode [0x90, 0x10] = .ok (.bcc 0x10) [] ∧
    decode [0xB0, 0x10] = .ok (.bcs 0x10) [] ∧ decode [0xD0, 0x80] = .ok (.bne 0x80) [] ∧
    decode [0xF0, 0x7F] = .ok (.beq 0x7F) [] := by decide +kernel

theorem test_decode_stack_flags_system :
    decode [0x48] = .ok .pha [] ∧ decode [0x68] = .ok .pla [] ∧ decode [0x08] = .ok .php [] ∧ decode [0x28] = .ok .plp [] ∧
    decode [0x18] = .ok .clc [] ∧ decode [0x38] = .ok .sec [] ∧ decode [0x58] = .ok .cli [] ∧ decode [0x78] = .ok .sei [] ∧
    decode [0xB8] = .ok .clv [] ∧ decode [0xD8] = .ok .cld [] ∧ decode [0xF8] = .ok .sed [] ∧ decode [0xEA] = .ok .nop [] ∧
    decode [0x00] = .ok .brk [] ∧ decode [0x40] = .ok .rti [] ∧ decode [0x80, 0xA9] = .ok (.undef 0x80) [0xA9] := by
  decide +kernel

/-- Too few bytes: no instruction. -/
theorem test_decode_short :
    decode [] = .reject .noOpcode ∧ decode [0xA9] = .reject .truncated ∧ decode [0x4C, 0x34] = .reject .truncated := by
  decide +kernel

/-! ## Ill-formed instructions -/

/-- A mnemonic in an addressing mode it has no opcode for. -/
theorem test_ill_formed_mode :
    (Instr.sta (.zpy 0x10)).wellFormed = false ∧ (Instr.ldx (.mem (.zpx 0x10))).wellFormed = false ∧
    (Instr.bit (.abx 0x1234)).wellFormed = false ∧ (Instr.asl (.mem (.aby 0x1234))).wellFormed = false ∧
    encode (.sta (.zpy 0x10)) = none ∧ encode (.cpx (.mem (.zpx 0x10))) = none := by decide +kernel

/-- A documented byte, and one more, as an undefined opcode. -/
theorem test_ill_formed_undef :
    (Instr.undef 0xEA).wellFormed = false ∧ (Instr.undef 0x00).wellFormed = false ∧ encode (.undef 0xEA) = none ∧
    (Instr.undef 0x02).wellFormed = true ∧ encode (.undef 0xFF) = some [0xFF] := by decide +kernel

/-! ## The table's words, and placing one for the next fetch -/

theorem test_decodeTableWord :
    decodeTableWord 8 0xEA = some .nop ∧ decodeTableWord 16 0x80A9 = some (.lda (.imm 0x80)) ∧
    decodeTableWord 24 0x12344C = some (.jmp (.abs 0x1234)) ∧ decodeTableWord 8 0xA9 = some (.lda (.imm 0x00)) := by
  decide +kernel

/-- The instruction placed in the state after reset is the one the next step runs. -/
theorem test_withFetchWord :
    runs (State.reset.withFetchWord 16 0x80A9) (regs 0x80 0 0 0xFD 0xA4 0x0002) [] 2 = true ∧
    runs (State.reset.withFetchWord 24 0x12344C) (regs 0 0 0 0xFD 0x24 0x1234) [] 3 = true := by decide +kernel

/-! ## The rasterizer's worked example (46_ppu_rasterizer.md R253) -/

/-- The picture unit of the worked example. -/
def exampleUnit : Ppu :=
  { Ppu.cleared [(0x10, 0x80), (0x18, 0x80)] with
    nt := [(0x000, 0x01), (0x3C0, 0x02)]
    pal := [(0, 0x0F), (11, 0x30), (19, 0x16)]
    oam := [(1, 0x01), (3, 0x04)] }

theorem test_worked_example :
    framePixel exampleUnit 0 0 = 0x30 ∧ framePixel exampleUnit 1 0 = 0x0F ∧ framePixel exampleUnit 4 1 = 0x16 ∧
    framePixel exampleUnit 5 1 = 0x0F ∧ framePixel exampleUnit 255 239 = 0x0F := by decide +kernel

/-- VH4: the scroll's last row wraps at 240. -/
theorem test_scroll_wraps :
    let p : Ppu :=
      { Ppu.cleared [(0x17, 0x80), (0x28, 0x80)] with
        nt := [(0x000, 2), (0x3A0, 1)], pal := [(0, 0x0F), (1, 0x21), (2, 0x22)], t := 0x73A0 }
    framePixel p 0 0 = 0x21 ∧ framePixel p 0 1 = 0x22 ∧ framePixel p 0 2 = 0x0F := by decide +kernel

/-! ## The bus and the window (95_test_vectors.md L2-F, L2-G) -/

/-- VG9: a palette read is immediate and fills the buffer from the nametable below. -/
theorem test_palette_read :
    let p : Ppu := { Ppu.cleared [] with pal := [(1, 0x2A)], nt := [(0x701, 0x99)], v := 0x3F01 }
    (readData p).1 = 0x2A ∧ (readData p).2.rdbuf = 0x99 ∧ (readData p).2.v = 0x3F02 := by decide +kernel

/-- VG1: the second scroll write, and a data write that steps by 32 in palette space. -/
theorem test_scroll_and_data_writes :
    (writeScroll 0x5E (writeScroll 0x7D (writeCtrl 0x03 (Ppu.cleared [])))).t = 0x6D6F ∧
    (writeData 0xAA { Ppu.cleared [] with ctrl := 0x04, v := 0x3FFF }).v = 0x401F ∧
    (writeData 0xAA { Ppu.cleared [] with ctrl := 0x04, v := 0x3FFF }).pal = [(0x1F, 0x2A)] := by decide +kernel

/-- The controller's strobe, shift register and snapshot. -/
def portMachine (strobe : Bool) (shift snapshot : Byte) : State :=
  { State.reset with
    bus := { State.reset.bus with ctlStrobe := strobe, ctlShift := shift, ctlSnapshot := snapshot } }

/-- VF11: a strobed read after the snapshot has changed gives the new one's bit 0 and reloads. -/
theorem test_controller_strobed :
    (memRead 0x4016 (portMachine true 0xA5 0x5A)).1 = 0x40 ∧
    (memRead 0x4016 (portMachine true 0xA5 0x5A)).2.bus.ctlShift = 0x5A := by decide +kernel

/-- VF12: a write that never raised the strobe loads nothing. -/
theorem test_controller_not_strobed :
    (memRead 0x4016 (memWrite 0x4016 0x00 (portMachine false 0x00 0xFF))).1 = 0x40 := by decide +kernel

/-- A container of the wrong size, and one with no body. -/
theorem test_loadRom :
    loadRom [] = .failed .shortRead ∧ loadRom (List.replicate 16 0) = .failed .badMagic ∧
    loadRom ([0x4E, 0x45, 0x53, 0x1A, 1, 1] ++ List.replicate 10 0) = .failed .unsupportedSize ∧
    loadRom ([0x4E, 0x45, 0x53, 0x1A, 2, 1, 0x10, 0] ++ List.replicate 8 0) = .failed .unsupportedMapper ∧
    loadRom ([0x4E, 0x45, 0x53, 0x1A, 2, 1, 0, 0] ++ List.replicate 8 0) = .failed .shortRead := by decide +kernel

/-! ## States that meet the hypotheses of the statements -/

/-- RAM holds LDA #0x80 at 0. -/
def loadMachine : State := machine [(0, 0xA9), (1, 0x80)] [] (regs 0 0 0 0xFD 0x24 0x0000)

/-- ROM's last byte and RAM's first two hold JMP 0x1234: the fetch wraps at the end of the address space. -/
def wrapMachine : State := machine [(0, 0x34), (1, 0x12)] [(0x7FFF, 0x4C)] (regs 0 0 0 0xFD 0x24 0xFFFF)

/-- RAM holds an undefined opcode at 0. -/
def undefMachine : State := machine [(0, 0xFF)] [] (regs 0 0 0 0xFD 0x24 0x0000)

/-- An NMI is pending, with S about to wrap. -/
def nmiMachine : State :=
  machine [] [(0x7FFB, 0xA0)] { regs 0 0 0 0x01 0x24 0x8123 with nmiPending := true }

/-- The frame's budget is spent and the NMI enabled. -/
def renderMachine : State :=
  { loadMachine with
    ppu := { Ppu.cleared [] with ctrl := 0x80 }
    drv := { loadMachine.drv with phase := .render, acc := 29780 } }

theorem clearedUnit_ok : PpuMemoriesOk (Ppu.cleared []) := ⟨by decide, by decide, by decide, by decide, by decide⟩

theorem loadMachine_inv : MachineInv loadMachine :=
  ⟨⟨by decide, by decide, clearedUnit_ok⟩, (by decide : getFlag .U 0x24 = true), (by decide : (0 : Byte) &&& 0x7F = 0)⟩

theorem test_witness_DecodeOfEncode :
    Instr.nop.wellFormed = true ∧ (Instr.lda (.imm 0xFF)).wellFormed = true ∧
    (Instr.jmp (.ind 0xFFFF)).wellFormed = true := by decide

theorem test_witness_EncodeOfDecode :
    decode [0x6C, 0xFF, 0xFF] = .ok (.jmp (.ind 0xFFFF)) [] ∧ decode [0x02, 0x00] = .ok (.undef 0x02) [0x00] := by
  decide +kernel

theorem test_witness_UndefinedOpcodesAreNops :
    (0x02 : Byte) ∈ undefinedOpcodes ∧ (0xFF : Byte) ∈ undefinedOpcodes ∧ (0x00 : Byte) ∉ undefinedOpcodes ∧
    (0xFE : Byte) ∉ undefinedOpcodes := by decide

theorem test_witness_StepRunsTheDecodedInstruction :
    (∃ t, exec (.lda (.imm 0x80)) { loadMachine with cpu := { loadMachine.cpu with pc := 2 } } = .next t) ∧
    loadMachine.drv.phase = .cpu ∧ loadMachine.cpu.nmiPending = false ∧ (Instr.lda (.imm 0x80)).wellFormed = true ∧
    encode (.lda (.imm 0x80)) = some [0xA9, 0x80] ∧
    ∀ k < 2, isCell (loadMachine.cpu.pc + BitVec.ofNat 16 k) = true ∧
      (memRead (loadMachine.cpu.pc + BitVec.ofNat 16 k) loadMachine).1 = [0xA9, 0x80].getD k (0 : Byte) :=
  ⟨⟨_, rfl⟩, by decide +kernel⟩

/-- The same at the end of the address space. -/
theorem test_witness_StepRunsTheDecodedInstruction_wrap :
    (∃ t, exec (.jmp (.abs 0x1234)) { wrapMachine with cpu := { wrapMachine.cpu with pc := 2 } } = .next t) ∧
    wrapMachine.drv.phase = .cpu ∧ wrapMachine.cpu.nmiPending = false ∧ (Instr.jmp (.abs 0x1234)).wellFormed = true ∧
    encode (.jmp (.abs 0x1234)) = some [0x4C, 0x34, 0x12] ∧
    ∀ k < 3, isCell (wrapMachine.cpu.pc + BitVec.ofNat 16 k) = true ∧
      (memRead (wrapMachine.cpu.pc + BitVec.ofNat 16 k) wrapMachine).1 = [0x4C, 0x34, 0x12].getD k (0 : Byte) :=
  ⟨⟨_, rfl⟩, by decide +kernel⟩

theorem test_witness_FetchReadsBytesInOrder :
    opLength (memRead 0 (machine [(0, 0xEA)] [] (regs 0 0 0 0 0x20 0))).1 = 1 ∧
    opLength (memRead 0 loadMachine).1 = 2 ∧ opLength (memRead 0xFFFF wrapMachine).1 = 3 ∧
    loadMachine.drv.phase = .cpu ∧ loadMachine.cpu.nmiPending = false := by decide +kernel

theorem test_witness_NmiServiceStep : nmiMachine.drv.phase = .cpu ∧ nmiMachine.cpu.nmiPending = true := by decide

theorem test_witness_StepKeepsMachineInvariant :
    MachineInv loadMachine ∧ (∃ t, step loadMachine = .next t) ∧ (∃ t, step State.reset = .next t) ∧
    ∃ t, step renderMachine = .next t :=
  ⟨loadMachine_inv, ⟨_, rfl⟩, ⟨_, rfl⟩, ⟨_, rfl⟩⟩

/-- The last cycle of a budget, and the first past it. -/
theorem test_witness_StepKeepsScheduleInvariant :
    (∃ s t, ScheduleInv s ∧ s.drv.phase = .cpu ∧ s.drv.acc + 1 = s.drv.params.frameCycles ∧ step s = .next t) ∧
    ∃ s t, ScheduleInv s ∧ s.drv.phase = .render ∧ s.drv.acc = s.drv.params.frameCycles ∧ step s = .next t := by
  refine ⟨⟨{ loadMachine with drv := { loadMachine.drv with acc := 29779 } }, _, ⟨fun _ => ?_, nofun⟩, rfl, rfl, rfl⟩,
    ⟨renderMachine, _, ⟨nofun, fun _ => ?_⟩, rfl, rfl, rfl⟩⟩
  · show 29779 < 29780; decide
  · show 29780 ≤ 29780; decide

/-- The head of a frame; and CPU steps of a documented opcode, of an undefined one, and of an NMI service. -/
theorem test_witness_FrameScheduleCounts :
    State.reset.drv.phase = .input ∧
    (loadMachine.drv.phase = .cpu ∧ (memRead loadMachine.cpu.pc loadMachine).1 ∉ undefinedOpcodes ∧
      ∃ t, step loadMachine = .next t) ∧
    (undefMachine.drv.phase = .cpu ∧ (memRead undefMachine.cpu.pc undefMachine).1 ∈ undefinedOpcodes ∧
      ∃ t, step undefMachine = .next t) ∧
    nmiMachine.drv.phase = .cpu ∧ nmiMachine.cpu.nmiPending = true ∧ ∃ t, step nmiMachine = .next t :=
  ⟨rfl, ⟨rfl, by decide +kernel, _, rfl⟩, ⟨rfl, by decide +kernel, _, rfl⟩, rfl, rfl, _, rfl⟩

/-- A step reports the entry of the machine's own table, and 2 for an undefined opcode whatever the table holds (R93). -/
theorem test_cycle_table :
    let prm : Params := ⟨100, Vector.replicate 256 9⟩
    cyclesOf prm 0xA9 = 9 ∧ cyclesOf prm 0x02 = 2 := by decide +kernel

theorem test_witness_RenderSetsVblankAndNmi : renderMachine.drv.phase = .render := rfl

theorem test_witness_RenderedNmiIsServicedFirst :
    renderMachine.drv.phase = .render ∧ renderMachine.ppu.ctrl.getLsbD 7 = true ∧
    0 < renderMachine.drv.params.frameCycles := by decide

theorem getElem_mem_list (l : List Nat) (h : l.length = 256) (i : Nat) (hi : i < 256) :
    (⟨l.toArray, h⟩ : Vector Nat 256)[i] ∈ l := by
  simp

theorem test_defaultCycles (op : Byte) : 2 ≤ defaultParams.cyc[op.toNat] ∧ defaultParams.cyc[op.toNat] ≤ 7 := by
  have h : ∀ c ∈ baseCycles, 2 ≤ c ∧ c ≤ 7 := by decide +kernel
  have hm := getElem_mem_list baseCycles baseCycles_length op.toNat op.isLt
  exact h _ hm

theorem test_witness_FrameBudgetEnds :
    loadMachine.drv.phase = .cpu ∧ loadMachine.drv.acc < loadMachine.drv.params.frameCycles ∧
    CyclesPositive loadMachine.drv.params :=
  ⟨rfl, by decide, fun op => Nat.le_trans (by decide) (test_defaultCycles op).1⟩

theorem test_witness_StepsPerFrameAreBounded :
    State.reset.drv.phase = .input ∧
    ∀ op : Byte, 2 ≤ State.reset.drv.params.cyc[op.toNat] ∧ State.reset.drv.params.cyc[op.toNat] ≤ 7 :=
  ⟨rfl, test_defaultCycles⟩

theorem test_witness_ProgramAndParametersAreFixed : ∃ t, step loadMachine = .next t := ⟨_, rfl⟩

theorem test_witness_OnlyTheRenderRaises :
    nmiMachine.drv.phase ≠ .render ∧ (∃ t, step nmiMachine = .next t) ∧ State.reset.drv.phase ≠ .render ∧
    ∃ t, step State.reset = .next t :=
  ⟨nofun, ⟨_, rfl⟩, nofun, _, rfl⟩

theorem test_witness_MaskHasNoEffect : ∃ t, step renderMachine = .next t := ⟨_, rfl⟩

theorem test_witness_RamIsMirrored :
    loadMachine.bus.ram.wf 0x0800 ∧ (0x0000 : Word).toNat ≤ 0x1FFF ∧ (0x1FFF : Word).toNat ≤ 0x1FFF ∧
    (List.replicate 0x0800 (1 : Byte)).length = 0x0800 :=
  ⟨by decide, by decide, by decide, List.length_replicate⟩

theorem test_witness_RomAndUnmappedIgnoreWrites :
    0x8000 ≤ (0x8000 : Word).toNat ∧ 0x8000 ≤ (0xFFFF : Word).toNat ∧
    (List.replicate 0x8000 (1 : Byte)).length = 0x8000 ∧
    [0x4000, 0x4015, 0x4017, (0x7FFF : Word)].all
      (fun a => 0x4000 ≤ a.toNat ∧ a.toNat ≤ 0x7FFF ∧ a.toNat ≠ 0x4016) = true ∧
    [0x4000, 0x4013, 0x4015, 0x4017, (0xFFFF : Word)].all
      (fun a => 0x4000 ≤ a.toNat ∧ a.toNat ≠ 0x4014 ∧ a.toNat ≠ 0x4016) = true :=
  ⟨by decide, by decide, List.length_replicate, by decide, by decide⟩

theorem test_witness_WindowIsMirrored :
    [(0x2000, 0x2000), (0x2008, 0x2000), ((0x3FFF : Word), (0x2007 : Word))].all (fun a =>
      0x2000 ≤ a.1.toNat ∧ a.1.toNat ≤ 0x3FFF ∧ a.2.toNat = 0x2000 + a.1.toNat % 8) = true := by decide

theorem test_witness_ReadsHaveNamedSideEffects :
    IsWindow 2 0x2002 ∧ IsWindow 2 0x3FFA ∧ IsWindow 7 0x2007 ∧ IsWindow 7 0x3FFF ∧ (0x4016 : Word).toNat = 0x4016 ∧
    (¬ IsWindow 2 0x1FFF ∧ ¬ IsWindow 7 0x1FFF ∧ (0x1FFF : Word).toNat ≠ 0x4016) ∧
    (¬ IsWindow 2 0x3FFE ∧ ¬ IsWindow 7 0x3FFE ∧ (0x3FFE : Word).toNat ≠ 0x4016) ∧
    ¬ IsWindow 2 0x4017 ∧ ¬ IsWindow 7 0x4017 ∧ (0x4017 : Word).toNat ≠ 0x4016 := by
  unfold IsWindow; decide +kernel

theorem test_witness_ControllerShiftsSnapshot :
    (portMachine true 0xA5 0x5A).bus.ctlStrobe = true ∧ (portMachine false 0xA5 0x5A).bus.ctlStrobe = false ∧
    (0x01 : Byte).getLsbD 0 = true ∧ (0x03 : Byte).getLsbD 0 = true ∧ (0x02 : Byte).getLsbD 0 = false := by decide

theorem test_witness_OamDmaCopiesThePage :
    MemoriesOk loadMachine ∧ ((0x1F : Byte).toNat ≤ 0x1F ∨ 0x80 ≤ (0x1F : Byte).toNat) ∧
    ((0x80 : Byte).toNat ≤ 0x1F ∨ 0x80 ≤ (0x80 : Byte).toNat) ∧ ((0xFF : Byte).toNat ≤ 0x1F ∨ 0x80 ≤ (0xFF : Byte).toNat) :=
  ⟨loadMachine_inv.memories, by decide, by decide, by decide⟩

theorem test_witness_windows :
    ∀ n < 8, IsWindow n (0x2000 + BitVec.ofNat 16 n) ∧ IsWindow n (0x3FF8 + BitVec.ofNat 16 n) := by
  unfold IsWindow; decide +kernel

theorem test_witness_OamDataPort : IsWindow 4 0x2004 ∧ (Ppu.cleared []).oam.wf 0x100 := by
  unfold IsWindow; decide +kernel

theorem test_witness_ScrollAndAddressWrites :
    IsWindow 5 0x2005 ∧ IsWindow 6 0x2006 ∧ loadMachine.ppu.w = false ∧
    ({ loadMachine with ppu := { loadMachine.ppu with w := true } } : State).ppu.w = true := by
  unfold IsWindow; decide +kernel

/-- On both sides of palette space's start. -/
theorem test_witness_DataPortBuffersReads :
    IsWindow 7 0x2007 ∧ (0x3EFF : BitVec 15).toNat % 0x4000 < 0x3F00 ∧ 0x3F00 ≤ (0x3F00 : BitVec 15).toNat % 0x4000 := by
  unfold IsWindow; decide +kernel

theorem test_witness_DataPortReadsBack :
    MemoriesOk loadMachine ∧
    let a (hi lo : Byte) : Nat := hi.toNat % 0x40 * 0x100 + lo.toNat
    a 0x2F 0xFF ≤ 0x2FFF ∧ (0x3000 ≤ a 0x30 0x00 ∧ a 0x30 0x00 < 0x3F00) ∧
    (0x3000 ≤ a 0x3E 0xFF ∧ a 0x3E 0xFF < 0x3F00) ∧ 0x3F00 ≤ a 0x3F 0x00 ∧ 0x3F00 ≤ a 0xFF 0xFF :=
  ⟨loadMachine_inv.memories, by decide⟩

theorem test_witness_VramReadAfterWrite :
    PpuMemoriesOk (Ppu.cleared []) ∧ 0x1FFF % 0x4000 < 0x2000 ∧ (0x2000 ≤ 0x2000 % 0x4000 ∧ 0x2FFF % 0x4000 < 0x3000) ∧
    (0x3000 ≤ 0x3000 % 0x4000 ∧ 0x3EFF % 0x4000 < 0x3F00) ∧ 0x3F00 ≤ 0x3F00 % 0x4000 :=
  ⟨clearedUnit_ok, by decide⟩

/-- A BRK with its pushes wrapping round the stack page, and the RTI after it. -/
theorem test_witness_RtiReturnsFromTraps_brk :
    ∃ s t w : State, s.bus.ram.wf 0x0800 ∧ s.cpu.sp = 0x01 ∧ exec .brk s = .next t ∧ exec .rti t = .next w :=
  ⟨{ loadMachine with cpu := { loadMachine.cpu with sp := 0x01 } }, _, _, by decide, rfl, rfl, rfl⟩

theorem test_witness_RtiReturnsFromTraps_nmi :
    MachineInv nmiMachine ∧ nmiMachine.drv.phase = .cpu ∧ nmiMachine.cpu.nmiPending = true ∧
    ∃ t w, step nmiMachine = .next t ∧ exec .rti t = .next w :=
  ⟨⟨⟨by decide, by decide, clearedUnit_ok⟩, (by decide : getFlag .U 0x24 = true),
    (by decide : (0 : Byte) &&& 0x7F = 0)⟩, rfl, rfl, _, _, rfl, rfl⟩

theorem test_witness_JsrSavesTheReturnForRts :
    ∃ s t w : State, s.bus.ram.wf 0x0800 ∧ s.cpu.sp = 0x00 ∧ exec (.jsr 0x9000) s = .next t ∧ exec .rts t = .next w :=
  ⟨{ loadMachine with cpu := { loadMachine.cpu with sp := 0x00 } }, _, _, by decide, rfl, rfl, rfl⟩

theorem test_witness_StackInstructions : loadMachine.bus.ram.wf 0x0800 := by decide

theorem test_witness_OnlyNamedRegistersChange :
    (∃ t, exec (.sta (.abs 0x2007)) loadMachine = .next t) ∧ (footprint (.sta (.abs 0x2007))).writes = [] ∧
    (∃ t, exec .brk loadMachine = .next t) ∧ Dest.a ∉ (footprint .brk).writes ∧ Dest.flag .B ∉ (footprint .brk).writes :=
  ⟨⟨_, rfl⟩, rfl, ⟨_, rfl⟩, by decide, by decide⟩

theorem test_witness_NonStoringKeepsMemory :
    ((footprint (.lda (.mem (.abs 0x2002)))).stores = none ∧ (footprint (.lda (.mem (.abs 0x2002)))).pushes = 0 ∧
      ∃ t, exec (.lda (.mem (.abs 0x2002))) loadMachine = .next t) ∧
    (footprint .rti).stores = none ∧ (footprint .rti).pushes = 0 ∧ (footprint .rti).reads = false ∧
    ∃ t, exec .rti loadMachine = .next t :=
  ⟨⟨rfl, rfl, _, rfl⟩, rfl, rfl, rfl, _, rfl⟩

/-- The end of RAM, the start and the end of what ignores writes, and a push that wraps. -/
theorem test_witness_StoresChangeOneCell :
    (∀ a : Word, (footprint (.inc (.abs a))).stores = some (.abs a) ∧ (∃ t, exec (.inc (.abs a)) loadMachine = .next t) ∧
      (effAddr (.abs a) loadMachine).1 = a) ∧
    (isCell 0x0000 = true ∧ ¬ SameRamCell 0x0000 0x1FFF) ∧ (isCell 0xFFFF = true ∧ ¬ SameRamCell 0xFFFF 0x1FFF) ∧
    (0x1FFF : Word).toNat ≤ 0x1FFF ∧ 0x4000 ≤ (0x4000 : Word).toNat ∧ 0x4000 ≤ (0xFFFF : Word).toNat ∧
    0 < (footprint .brk).pushes ∧ ∃ t, exec .brk loadMachine = .next t :=
  ⟨fun _ => ⟨rfl, ⟨_, rfl⟩, rfl⟩, by unfold SameRamCell; decide, by unfold SameRamCell; decide, by decide, by decide, by decide,
    by decide, _, rfl⟩

theorem test_witness_RenderPaintsTheFrame :
    renderMachine.drv.phase = .render ∧ (∃ t, step renderMachine = .next t) ∧ 239 < 240 ∧ 255 < 256 :=
  ⟨rfl, ⟨_, rfl⟩, by decide, by decide⟩

/-- A pixel no sprite draws, one sprite 0 draws, a sprite at Y 239, and a background pixel of index 0. -/
theorem test_witness_LowestSpriteWins :
    (∀ i < 64, spritePixel exampleUnit i 0 0 = none) ∧ spritePixel exampleUnit 0 4 1 = some 0x16 ∧
    239 ≤ ({ exampleUnit with oam := [(0, 239)] }.oam.read (4 * 0)).toNat ∧
    backgroundIndex exampleUnit ((1 + scrollX exampleUnit) % 512) ((0 + scrollY exampleUnit) % 240) = 0 := by
  decide +kernel

end Sys2Proof.Tests
end

