-- ==== Sys2Proof/Proofs/Scope.lean ====
section
/-! PROOFS. The machine's scope (00_scope.md): every step goes on, and no step changes the program ROM or the parameters. -/

namespace Sys2Proof.Machine

/-- The meaning of every constructor of Instr is a next state (R11, R270). -/
theorem exec_goes_on (i : Instr) (s : State) : ∃ t, exec i s = .next t := by
  cases i <;> exact ⟨_, rfl⟩

/-- A CPU step goes on: the NMI service answers a state, and so does the meaning of the fetched instruction. -/
theorem cpuStep_goes_on (s : State) : ∃ t, cpuStep s = .next t := by
  obtain ⟨u, hu⟩ := exec_goes_on (fetchInstr s).instr (fetchInstr s).state
  unfold cpuStep
  split
  · exact ⟨_, rfl⟩
  · simp only [hu]
    exact ⟨_, rfl⟩

theorem step_safe (s : State) : Safe s := by
  unfold Safe step
  split
  · exact ⟨_, rfl⟩
  · exact cpuStep_goes_on s
  · exact ⟨_, rfl⟩

@[simp] theorem account_bus (n : Nat) (s : State) : (account n s).bus = s.bus := rfl
@[simp] theorem account_params (n : Nat) (s : State) : (account n s).drv.params = s.drv.params := rfl

/-- The NMI service changes neither the program ROM nor the driver: its pushes write RAM and its vector is read from ROM. -/
theorem nmiService_prg_drv (s : State) :
    (nmiService s).bus.prg = s.bus.prg ∧ (nmiService s).drv = s.drv := by
  rw [nmiService_eq]
  exact ⟨rfl, rfl⟩

/-- The frame of one instruction with its fetch. -/
theorem fetch_exec_busFrame {s u : State} (e : exec (fetchInstr s).instr (fetchInstr s).state = .next u) :
    BusFrame s u :=
  (fetchInstr_frame s).1.trans (exec_busFrame e)

/-- Settles O8: the meaning of every instruction is a next state, and so is each of the three transitions of R11. -/
theorem everyStepGoesOn : Obligations.EveryStepGoesOn := by
  unfold Obligations.EveryStepGoesOn
  exact ⟨exec_goes_on, step_safe⟩

/-- Settles O17, by the transitions a step can be: the schedule's own writes touch neither the ROM nor the parameters, and
the NMI service and the instructions have their frames (nmiService_prg_drv, fetch_exec_busFrame). -/
theorem programAndParametersAreFixed : Obligations.ProgramAndParametersAreFixed := by
  unfold Obligations.ProgramAndParametersAreFixed
  intro s t e
  obtain ⟨-, rfl⟩ | ⟨-, -, rfl⟩ | ⟨-, -, u, hu, rfl⟩ | ⟨-, rfl⟩ := step_cases e
  case inl => exact ⟨rfl, rfl⟩
  case inr.inl =>
    obtain ⟨hprg, hdrv⟩ := nmiService_prg_drv s
    rw [account_bus, account_params, hprg, hdrv]
    exact ⟨rfl, rfl⟩
  case inr.inr.inl =>
    have frame := fetch_exec_busFrame hu
    rw [account_bus, account_params, frame.prg, frame.drv]
    exact ⟨rfl, rfl⟩
  case inr.inr.inr => exact ⟨rfl, rfl⟩

end Sys2Proof.Machine
end

