-- ==== Sys2Proof/Proofs/State.lean ====
section
/-! PROOFS. The state (10_state.md): which registers and flags an instruction may write, the invariants of the machine,
what only the render raises, and that nothing depends on the mask register. -/

namespace Sys2Proof.Machine

open Sys2Proof.Claim

/-! ## The registers and flags an instruction may write (R21, R22, R23, R26)

The rules of WritesOnly, one per register and one per way of writing flags, follow the updates a meaning makes; that the
footprint of the instruction names what a rule writes is found by computing the footprint. -/

/-- The register or flag has the same value in both register files. -/
def SameIn (c d : Cpu) : Dest → Prop
  | .a => d.a = c.a
  | .x => d.x = c.x
  | .y => d.y = c.y
  | .s => d.sp = c.sp
  | .pc => d.pc = c.pc
  | .flag f => getFlag f d.p = getFlag f c.p

/-- From `c` to `d` no register or flag outside `ws` changes. -/
def WritesOnly (ws : List Dest) (c d : Cpu) : Prop := ∀ r, r ∉ ws → SameIn c d r

namespace WritesOnly

variable {ws : List Dest} {c d : Cpu}

theorem refl (ws : List Dest) (c : Cpu) : WritesOnly ws c c := fun r _ => by cases r <;> rfl

theorem of_eq (h : d = c) : WritesOnly ws c d := h ▸ refl ws c

theorem set_a (h : WritesOnly ws c d) (v : Byte) (hw : Dest.a ∈ ws := by simp [footprint]) :
    WritesOnly ws c { d with a := v } := by
  intro r hr
  cases r with
  | a => exact absurd hw hr
  | _ => exact h _ hr

theorem set_x (h : WritesOnly ws c d) (v : Byte) (hw : Dest.x ∈ ws := by simp [footprint]) :
    WritesOnly ws c { d with x := v } := by
  intro r hr
  cases r with
  | x => exact absurd hw hr
  | _ => exact h _ hr

theorem set_y (h : WritesOnly ws c d) (v : Byte) (hw : Dest.y ∈ ws := by simp [footprint]) :
    WritesOnly ws c { d with y := v } := by
  intro r hr
  cases r with
  | y => exact absurd hw hr
  | _ => exact h _ hr

theorem set_sp (h : WritesOnly ws c d) (v : Byte) (hw : Dest.s ∈ ws := by simp [footprint]) :
    WritesOnly ws c { d with sp := v } := by
  intro r hr
  cases r with
  | s => exact absurd hw hr
  | _ => exact h _ hr

theorem set_pc (h : WritesOnly ws c d) (v : Word) (hw : Dest.pc ∈ ws := by simp [footprint]) :
    WritesOnly ws c { d with pc := v } := by
  intro r hr
  cases r with
  | pc => exact absurd hw hr
  | _ => exact h _ hr

/-- A status byte that differs only in flags of `ws`. -/
theorem set_p (h : WritesOnly ws c d) {q : Byte} (hq : ∀ f, Dest.flag f ∉ ws → getFlag f q = getFlag f d.p) :
    WritesOnly ws c { d with p := q } := by
  intro r hr
  cases r with
  | flag f => exact (hq f hr).trans (h _ hr)
  | _ => exact h _ hr

theorem set_flag (h : WritesOnly ws c d) (f : Flag) (b : Bool) (hw : Dest.flag f ∈ ws := by simp [footprint]) :
    WritesOnly ws c { d with p := setFlag f b d.p } :=
  h.set_p fun _ hg => getFlag_setFlag_other (fun e => hg (by rwa [e])) _ _

theorem set_zn (h : WritesOnly ws c d) (v : Byte) (hw : znFlags ⊆ ws := by simp [footprint, znFlags]) :
    WritesOnly ws c { d with p := setZN v d.p } :=
  (h.set_flag .Z (v == 0) (hw (by decide))).set_flag .N v.msb (hw (by decide))

theorem set_add (h : WritesOnly ws c d) (a m : Byte)
    (hw : Dest.flag .C :: .flag .V :: znFlags ⊆ ws := by simp [footprint, znFlags]) :
    WritesOnly ws c { d with p := addFlags a m d.p } :=
  ((h.set_flag .C _ (hw (by decide))).set_flag .V _ (hw (by decide))).set_zn _ fun _ hr =>
    hw (by simp [hr])

theorem set_shift (h : WritesOnly ws c d) (r : Byte) (b : Bool)
    (hw : Dest.flag .C :: znFlags ⊆ ws := by simp [footprint, znFlags]) :
    WritesOnly ws c { d with p := shiftFlags r b d.p } :=
  (h.set_flag .C b (hw (by decide))).set_zn r fun _ hr => hw (by simp [hr])

theorem set_cmp (h : WritesOnly ws c d) (r m : Byte)
    (hw : Dest.flag .C :: znFlags ⊆ ws := by simp [footprint, znFlags]) :
    WritesOnly ws c { d with p := cmpFlags r m d.p } :=
  h.set_shift (r - m) (m.ule r) hw

theorem set_bit (h : WritesOnly ws c d) (a m : Byte)
    (hw : Dest.flag .V :: znFlags ⊆ ws := by simp [footprint, znFlags]) :
    WritesOnly ws c { d with p := bitFlags a m d.p } :=
  ((h.set_flag .Z _ (hw (by decide))).set_flag .N _ (hw (by decide))).set_flag .V _ (hw (by decide))

/-- A pulled status byte may write every flag. -/
theorem set_allFlags (h : WritesOnly ws c d) (q : Byte) (hw : allFlags ⊆ ws := by simp [footprint]) :
    WritesOnly ws c { d with p := q } :=
  h.set_p fun f hf => absurd (hw (by cases f <;> decide)) hf

end WritesOnly

/-- A read-modify-write of a cell writes P alone of the registers. -/
theorem modifyMem_cpu (m : Mem) (f : Byte → Byte → Byte × Byte) (s : State) :
    (modifyMem m f s).cpu = { s.cpu with p := (f (memRead (effAddr m s).1 s).1 s.cpu.p).2 } := by
  rw [modifyMem_eq, memWrite_cpu, State.setP, memRead_cpu]

theorem jumpTarget_cpu (j : Jump) (s : State) : (jumpTarget j s).2.cpu = s.cpu := by
  obtain ⟨p, c, h⟩ := jumpTarget_frame j s
  rw [h]

/-- INC and DEC write Z and N. -/
theorem modifyMem_zn_writes {ws : List Dest} (m : Mem) (g : Byte → Byte) (s : State) (hw : znFlags ⊆ ws) :
    WritesOnly ws s.cpu (modifyMem m (fun v p => (g v, setZN (g v) p)) s).cpu := by
  rw [modifyMem_cpu]
  exact (WritesOnly.refl ws s.cpu).set_zn _ hw

/-- A shift or rotate writes C, Z and N, and A in its accumulator form. -/
theorem modifyRmw_writes {ws : List Dest} {f : Byte → Byte → Byte × Byte}
    (hf : ∀ m p, ∃ c, (f m p).2 = shiftFlags (f m p).1 c p) (o : Rmw) (s : State)
    (ha : o = .acc → Dest.a ∈ ws) (hw : Dest.flag .C :: znFlags ⊆ ws) :
    WritesOnly ws s.cpu (modifyRmw o f s).cpu := by
  cases o with
  | acc =>
    obtain ⟨c, hc⟩ := hf s.cpu.a s.cpu.p
    simp only [modifyRmw, hc]
    exact ((WritesOnly.refl ws s.cpu).set_a _ (ha rfl)).set_shift _ c hw
  | mem m =>
    obtain ⟨c, hc⟩ := hf (memRead (effAddr m s).1 s).1 s.cpu.p
    rw [modifyRmw, modifyMem_cpu, hc]
    exact (WritesOnly.refl ws s.cpu).set_shift _ c hw

/-- A branch writes PC. -/
theorem branchIf_writes {ws : List Dest} (b : Bool) (off : Byte) (s : State) (hw : Dest.pc ∈ ws) :
    WritesOnly ws s.cpu (branchIf b off s).cpu := by
  unfold branchIf
  split
  · exact (WritesOnly.refl ws s.cpu).set_pc _ hw
  · exact .refl ws s.cpu

/-- An instruction writes no register and no flag but those of its footprint. -/
theorem exec_writes {i : Instr} {s t : State} (e : exec i s = .next t) :
    WritesOnly (footprint i).writes s.cpu t.cpu := by
  have keep (ws : List Dest) : WritesOnly ws s.cpu s.cpu := .refl ws s.cpu
  have read (ws : List Dest) (o : Src) : WritesOnly ws s.cpu (readSrc o s).2.cpu := .of_eq (readSrc_cpu o s)
  cases i with
  | nop | undef _ => cases e; exact keep _
  | lda _ | and _ | ora _ | eor _ => cases e; exact ((read _ _).set_a _).set_zn _
  | ldx _ => cases e; exact ((read _ _).set_x _).set_zn _
  | ldy _ => cases e; exact ((read _ _).set_y _).set_zn _
  | adc _ | sbc _ => cases e; exact ((read _ _).set_a _).set_add _ _
  | cmp _ | cpx _ | cpy _ => cases e; exact (read _ _).set_cmp _ _
  | bit m => cases e; exact (WritesOnly.of_eq (readMem_cpu m s)).set_bit _ _
  | sta _ | stx _ | sty _ => cases e; exact .of_eq (storeMem_cpu _ _ s)
  | inc _ => cases e; exact modifyMem_zn_writes _ (· + 1) s (by simp [footprint, znFlags])
  | dec _ => cases e; exact modifyMem_zn_writes _ (· - 1) s (by simp [footprint, znFlags])
  | asl o | lsr o | rol o | ror o =>
    cases e
    exact modifyRmw_writes (fun _ _ => ⟨_, rfl⟩) o s (by rintro rfl; simp [footprint])
      (by cases o <;> simp [footprint, znFlags])
  | txa | tya => cases e; exact ((keep _).set_a _).set_zn _
  | tax | tsx | inx | dex => cases e; exact ((keep _).set_x _).set_zn _
  | tay | iny | dey => cases e; exact ((keep _).set_y _).set_zn _
  | txs => cases e; exact (keep _).set_sp _
  | jmp j => cases e; exact (WritesOnly.of_eq (jumpTarget_cpu j s)).set_pc _
  | bpl _ | bmi _ | bvc _ | bvs _ | bcc _ | bcs _ | bne _ | beq _ =>
    cases e; exact branchIf_writes _ _ s (by simp [footprint])
  | clc | sec | cli | sei | clv | cld | sed => cases e; exact (keep _).set_flag _ _
  | jsr _ => cases e; rw [pushWord_eq]; exact ((keep _).set_sp _).set_pc _
  | rts => cases e; rw [pullWord_eq]; exact ((keep _).set_sp _).set_pc _
  | pha | php => cases e; rw [push_eq]; exact (keep _).set_sp _
  | pla => cases e; rw [pull_eq]; exact (((keep _).set_sp _).set_a _).set_zn _
  | plp => cases e; rw [pull_eq]; exact ((keep _).set_sp _).set_allFlags _
  | brk =>
    cases e; rw [takeTrap_eq _ _ (by decide) (by decide)]
    exact (((keep _).set_sp _).set_flag _ _).set_pc _
  | rti =>
    cases e; rw [returnFromTrap_eq]
    exact (((keep _).set_sp (s.cpu.sp + 3)).set_pc _).set_allFlags _

/-- Settles O54: the registers and flags by the footprint of each instruction (exec_writes), the rest by the frame every
meaning has (exec_busFrame). -/
theorem onlyNamedRegistersChange : Obligations.OnlyNamedRegistersChange := by
  unfold Obligations.OnlyNamedRegistersChange
  intro i s t e
  have keeps := exec_writes e
  have frame := exec_busFrame e
  exact ⟨keeps .a, keeps .x, keeps .y, keeps .s, keeps .pc, fun f => keeps (.flag f), frame.nmi, frame.prg, frame.drv⟩

/-! ## The invariants of the machine (R20, R26, R30 to R35, R38) -/

theorem BusFrame.statusLowClear {s t : State} (h : BusFrame s t) (hs : StatusLowClear s) : StatusLowClear t := by
  unfold StatusLowClear at hs ⊢
  rcases h.status with e | e <;> rw [e]
  · exact hs
  · rw [and_7F_idem, hs]

/-- Setting the vblank bit leaves bits 6:0 of a byte. -/
theorem or_80_and_7F (v : Byte) : (v ||| 0x80) &&& 0x7F = v &&& 0x7F := by
  rw [BitVec.and_or_distrib_right]
  exact BitVec.or_zero

/-- The Unused flag stays 1: only PLP and RTI may write it (exec_writes), and they force it. -/
theorem exec_unusedSet {i : Instr} {s t : State} (hs : UnusedSet s) (e : exec i s = .next t) : UnusedSet t := by
  have forced (v : Byte) : getFlag .U (v ||| 0x20) = true := by simp [getFlag, Flag.pos]
  by_cases hw : Dest.flag .U ∈ (footprint i).writes
  · cases i with
    | plp => cases e; exact forced _
    | rti => cases e; rw [returnFromTrap_eq]; exact forced _
    | asl o | lsr o | rol o | ror o => cases o <;> exact absurd hw (by simp [footprint, znFlags])
    | _ => exact absurd hw (by simp [footprint, znFlags])
  · exact (exec_writes e _ hw).trans hs

theorem exec_machineInv {i : Instr} {s t : State} (h : MachineInv s) (e : exec i s = .next t) : MachineInv t :=
  ⟨exec_wf h.memories e, exec_unusedSet h.unused e, (exec_busFrame e).statusLowClear h.statusLow⟩

theorem fetchInstr_machineInv {s : State} (h : MachineInv s) : MachineInv (fetchInstr s).state := by
  obtain ⟨frame, wf, ⟨pc, hcpu⟩, -⟩ := fetchInstr_frame s
  refine ⟨wf h.memories, ?_, frame.statusLowClear h.statusLow⟩
  rw [UnusedSet, hcpu]
  exact h.unused

theorem nmiService_machineInv {s : State} (h : MachineInv s) : MachineInv (nmiService s) := by
  rw [nmiService_eq]
  exact ⟨⟨ramTrap_wf h.memories.ram, h.memories.prg, h.memories.ppu⟩,
    (getFlag_setFlag_other (by decide) true s.cpu.p).trans h.unused, h.statusLow⟩

/-- The invariant does not speak of the driver or of the controller. -/
theorem account_machineInv {n : Nat} {s : State} (h : MachineInv s) : MachineInv (account n s) :=
  ⟨⟨h.memories.ram, h.memories.prg, h.memories.ppu⟩, h.unused, h.statusLow⟩

theorem deliverInput_machineInv {s : State} (h : MachineInv s) : MachineInv (deliverInput s) :=
  ⟨⟨h.memories.ram, h.memories.prg, h.memories.ppu⟩, h.unused, h.statusLow⟩

theorem finishFrame_machineInv {s : State} (h : MachineInv s) : MachineInv (finishFrame s) := by
  obtain ⟨oam, nt, pal, chr, -⟩ := h.memories.ppu
  exact ⟨⟨h.memories.ram, h.memories.prg, oam, nt, pal, chr, composite_wf s.ppu⟩, h.unused,
    (or_80_and_7F s.ppu.status).trans h.statusLow⟩

/-- Settles O9, by the transitions a step can be (step_cases), each of which keeps the invariant. -/
theorem stepKeepsMachineInvariant : Obligations.StepKeepsMachineInvariant := by
  unfold Obligations.StepKeepsMachineInvariant
  intro s t h e
  obtain ⟨-, rfl⟩ | ⟨-, -, rfl⟩ | ⟨-, -, u, hu, rfl⟩ | ⟨-, rfl⟩ := step_cases e
  · exact deliverInput_machineInv h
  · exact account_machineInv (nmiService_machineInv h)
  · exact account_machineInv (exec_machineInv (fetchInstr_machineInv h) hu)
  · exact finishFrame_machineInv h

theorem cleared_memoriesOk {chr : Memory 8} (h : chr.wf 0x2000) : PpuMemoriesOk (Ppu.cleared chr) :=
  ⟨Memory.wf_nil _, Memory.wf_nil _, Memory.wf_nil _, h, Memory.wf_nil _⟩

/-- A machine at the head of a frame, with P and the picture unit as the two resets leave them (R300, R302), meets both
invariants. -/
theorem invariants_of_booted {s : State} (hp : s.cpu.p = 0x24) (hphase : s.drv.phase = .input)
    (hram : s.bus.ram.wf 0x0800) (hprg : s.bus.prg.wf 0x8000) {chr : Memory 8} (hchr : chr.wf 0x2000)
    (hppu : s.ppu = Ppu.cleared chr) : MachineInv s ∧ ScheduleInv s := by
  refine ⟨⟨⟨hram, hprg, hppu ▸ cleared_memoriesOk hchr⟩, ?_, ?_⟩, ?_, ?_⟩
  · rw [UnusedSet, hp]; rfl
  · rw [StatusLowClear, hppu]; exact (by decide : (0 : Byte) &&& 0x7F = 0)
  · rw [hphase]; exact nofun
  · rw [hphase]; exact nofun

/-- Settles O10: State.reset lists no cell, and a boot lists those of its images (boot_eq). -/
theorem bootMeetsInvariants : Obligations.BootMeetsInvariants := by
  unfold Obligations.BootMeetsInvariants
  refine ⟨invariants_of_booted rfl rfl (Memory.wf_nil _) (Memory.wf_nil _) (Memory.wf_nil _) rfl, ?_⟩
  intro prg chr ram prm
  rw [boot_eq]
  exact invariants_of_booted rfl rfl (Memory.ofImage_wf _ _) (Memory.ofImage_wf _ _) (Memory.ofImage_wf _ _) rfl

/-! ## What only the render raises (R29, R30, R35) -/

/-- Settles O18, by the transitions a step can be: the bus frame of an instruction with its fetch says it for the
instruction, and the NMI service clears the pending bit it was begun for. -/
theorem onlyTheRenderRaises : Obligations.OnlyTheRenderRaises := by
  unfold Obligations.OnlyTheRenderRaises
  intro s t hphase e
  obtain ⟨hin, rfl⟩ | ⟨-, -, rfl⟩ | ⟨-, hnmi, u, hu, rfl⟩ | ⟨hr, -⟩ := step_cases e
  case inl => exact ⟨rfl, .inl rfl, id, fun hcpu => (nomatch hin.symm.trans hcpu)⟩
  case inr.inl =>
    rw [nmiService_eq]
    exact ⟨rfl, .inl rfl, nofun, fun _ => rfl⟩
  case inr.inr.inl =>
    have frame := fetch_exec_busFrame hu
    have none_pending : u.cpu.nmiPending = false := frame.nmi.trans hnmi
    exact ⟨frame.fb, frame.status, fun h => (nomatch none_pending.symm.trans h), fun _ => none_pending⟩
  case inr.inr.inr => exact absurd hr hphase

/-! ## The stack (R27) -/

/-- Settles O33: the slot S names is a RAM cell (memWrite_stack), so the bus write is the whole effect of a push beside S
(push_eq). -/
theorem pushStoresThenDecrements : Obligations.PushStoresThenDecrements := by
  unfold Obligations.PushStoresThenDecrements
  intro v s
  have hsp : (s.cpu.sp - 1).toNat = (s.cpu.sp.toNat + 255) % 256 := by
    rw [BitVec.toNat_sub, Nat.add_comm]
    rfl
  exact ⟨s.cpu.sp - 1, hsp, by rw [push_eq, memWrite_stack], push_eq v s⟩

/-! ## The mask register (R30, R213) -/

@[simp] theorem withMask_cpu (m : Byte) (s : State) : (withMask m s).cpu = s.cpu := rfl
@[simp] theorem withMask_bus (m : Byte) (s : State) : (withMask m s).bus = s.bus := rfl
@[simp] theorem withMask_drv (m : Byte) (s : State) : (withMask m s).drv = s.drv := rfl
theorem setP_withMask (q m : Byte) (s : State) : (withMask m s).setP q = withMask m (s.setP q) := rfl

theorem vramRead_withMask (p : Ppu) (m : Byte) (a : Nat) : vramRead { p with mask := m } a = vramRead p a := rfl

theorem readData_withMask (p : Ppu) (m : Byte) :
    readData { p with mask := m } = ((readData p).1, { (readData p).2 with mask := m }) := by
  simp only [readData, vramRead_withMask, Ppu.advance]
  split <;> simp only

/-- A window read neither uses nor changes the mask. -/
theorem ppuRegRead_withMask (n : Nat) (p : Ppu) (m : Byte) :
    ppuRegRead n { p with mask := m } = ((ppuRegRead n p).1, { (ppuRegRead n p).2 with mask := m }) := by
  unfold ppuRegRead
  split
  · rfl
  · split
    · rfl
    · split
      · exact readData_withMask p m
      · rfl

theorem vramWrite_withMask (p : Ppu) (m : Byte) (a : Nat) (d : Byte) :
    vramWrite { p with mask := m } a d = { vramWrite p a d with mask := m } := by
  unfold vramWrite
  simp only
  repeat' split
  all_goals rfl

/-- A window write does not use the mask, and only that of register 1 changes it. -/
theorem ppuRegWrite_withMask (n : Nat) (d : Byte) (p : Ppu) (m : Byte) :
    ∃ m', ppuRegWrite n d { p with mask := m } = { ppuRegWrite n d p with mask := m' } := by
  by_cases h1 : n = 1
  · exact ⟨d, by subst h1; rfl⟩
  · refine ⟨m, ?_⟩
    unfold ppuRegWrite writeScroll writeAddr writeData
    simp only [vramWrite_withMask, if_neg h1]
    repeat' split
    all_goals rfl

/-- A bus read commutes with a change of the mask. -/
theorem memRead_withMask (a : Word) (m : Byte) (s : State) :
    memRead a (withMask m s) = ((memRead a s).1, withMask m (memRead a s).2) := by
  have hw := ppuRegRead_withMask (a.toNat % 8) s.ppu m
  unfold memRead withMask
  simp only [hw]
  repeat' split
  all_goals rfl

theorem oamDmaByte_withMask (d : Byte) (m : Byte) (s : State) (i : Nat) :
    oamDmaByte d (withMask m s) i = withMask m (oamDmaByte d s i) := by
  rw [oamDmaByte, memRead_withMask]
  rfl

theorem oamDma_fold_withMask (d : Byte) (l : List Nat) (m : Byte) (s : State) :
    l.foldl (oamDmaByte d) (withMask m s) = withMask m (l.foldl (oamDmaByte d) s) := by
  induction l generalizing s with
  | nil => rfl
  | cons i l ih => rw [List.foldl_cons, oamDmaByte_withMask, ih, List.foldl_cons]

/-- A bus write commutes with a change of the mask, up to the mask it stores itself. -/
theorem memWrite_withMask (a : Word) (d m : Byte) (s : State) :
    ∃ m', memWrite a d (withMask m s) = withMask m' (memWrite a d s) := by
  unfold memWrite oamDma
  simp only
  split
  · exact ⟨m, rfl⟩
  · split
    · obtain ⟨m', h⟩ := ppuRegWrite_withMask (a.toNat % 8) d s.ppu m
      exact ⟨m', congrArg (fun p => { s with ppu := p }) h⟩
    · split
      · exact ⟨m, oamDma_fold_withMask d _ m s⟩
      · split <;> exact ⟨m, rfl⟩

theorem effAddr_withMask (o : Mem) (m : Byte) (s : State) :
    effAddr o (withMask m s) = ((effAddr o s).1, withMask m s) := by
  rw [effAddr_eq, effAddr_eq]
  rfl

theorem readMem_withMask (o : Mem) (m : Byte) (s : State) :
    readMem o (withMask m s) = ((readMem o s).1, withMask m (readMem o s).2) := by
  rw [readMem_eq, effAddr_withMask, memRead_withMask, readMem_eq]

theorem readSrc_withMask (o : Src) (m : Byte) (s : State) :
    readSrc o (withMask m s) = ((readSrc o s).1, withMask m (readSrc o s).2) := by
  cases o with
  | imm v => rfl
  | mem o => exact readMem_withMask o m s

theorem jumpTarget_withMask (j : Jump) (m : Byte) (s : State) :
    jumpTarget j (withMask m s) = ((jumpTarget j s).1, withMask m (jumpTarget j s).2) := by
  cases j with
  | abs target => rfl
  | ind ptr => simp only [jumpTarget, read16page, memRead_withMask]

theorem storeMem_withMask (o : Mem) (v m : Byte) (s : State) :
    ∃ m', storeMem o v (withMask m s) = withMask m' (storeMem o v s) := by
  rw [storeMem_eq, storeMem_eq, effAddr_withMask]
  exact memWrite_withMask _ v m s

theorem modifyMem_withMask (o : Mem) (f : Byte → Byte → Byte × Byte) (m : Byte) (s : State) :
    ∃ m', modifyMem o f (withMask m s) = withMask m' (modifyMem o f s) := by
  rw [modifyMem_eq, modifyMem_eq, effAddr_withMask, memRead_withMask, withMask_cpu, setP_withMask]
  exact memWrite_withMask _ _ m _

theorem modifyRmw_withMask (o : Rmw) (f : Byte → Byte → Byte × Byte) (m : Byte) (s : State) :
    ∃ m', modifyRmw o f (withMask m s) = withMask m' (modifyRmw o f s) := by
  cases o with
  | acc => exact ⟨m, rfl⟩
  | mem o => exact modifyMem_withMask o f m s

theorem branchIf_withMask (b : Bool) (off m : Byte) (s : State) :
    branchIf b off (withMask m s) = withMask m (branchIf b off s) := by
  cases b <;> rfl

/-- Every meaning commutes with a change of the mask, up to the mask a store of its own leaves. -/
theorem exec_withMask {i : Instr} {s t : State} (m : Byte) (e : exec i s = .next t) :
    ∃ m', exec i (withMask m s) = .next (withMask m' t) := by
  cases i with
  | sta o | stx o | sty o =>
    cases e
    obtain ⟨m', h⟩ := storeMem_withMask o _ m s
    exact ⟨m', congrArg Host.Outcome.next h⟩
  | inc o | dec o =>
    cases e
    obtain ⟨m', h⟩ := modifyMem_withMask o _ m s
    exact ⟨m', congrArg Host.Outcome.next h⟩
  | asl o | lsr o | rol o | ror o =>
    cases e
    obtain ⟨m', h⟩ := modifyRmw_withMask o _ m s
    exact ⟨m', congrArg Host.Outcome.next h⟩
  | lda o | ldx o | ldy o | adc o | sbc o | and o | ora o | eor o | cmp o | cpx o | cpy o =>
    cases e
    refine ⟨m, ?_⟩
    simp only [exec, execLda, execLdx, execLdy, execAdc, execSbc, execAnd, execOra, execEor, execCmp, execCpx, execCpy,
      readSrc_withMask]
    rfl
  | bit o =>
    cases e
    refine ⟨m, ?_⟩
    simp only [exec, execBit, readMem_withMask]
    rfl
  | jmp j =>
    cases e
    refine ⟨m, ?_⟩
    simp only [exec, execJmp, jumpTarget_withMask]
    rfl
  | bpl off | bmi off | bvc off | bvs off | bcc off | bcs off | bne off | beq off =>
    cases e; exact ⟨m, congrArg Host.Outcome.next (branchIf_withMask _ off m s)⟩
  | jsr _ | rts | pha | php | pla | plp | rti =>
    cases e
    refine ⟨m, ?_⟩
    simp only [exec, execJsr, execRts, execPha, execPhp, execPla, execPlp, execRti, pushWord_eq, pullWord_eq, push_eq,
      pull_eq, returnFromTrap_eq]
    rfl
  | brk =>
    cases e
    refine ⟨m, ?_⟩
    rw [exec, execBrk, takeTrap_eq _ _ (by decide) (by decide), takeTrap_eq _ _ (by decide) (by decide)]
    rfl
  | _ => cases e; exact ⟨m, rfl⟩

theorem fetchByte_withMask (m : Byte) (s : State) :
    fetchByte (withMask m s) = ((fetchByte s).1, withMask m (fetchByte s).2) := by
  rw [fetchByte, withMask_cpu, memRead_withMask]
  rfl

theorem fetchInstr_withMask (m : Byte) (s : State) :
    fetchInstr (withMask m s) = { fetchInstr s with state := withMask m (fetchInstr s).state } := by
  simp only [fetchInstr, fetchByte_withMask]
  split <;> rfl

theorem nmiService_withMask (m : Byte) (s : State) : nmiService (withMask m s) = withMask m (nmiService s) := by
  rw [nmiService_eq, nmiService_eq]
  rfl

theorem backgroundPixel_withMask (p : Ppu) (m : Byte) (px py : Nat) :
    backgroundPixel { p with mask := m } px py = backgroundPixel p px py := rfl

theorem spritePixel_withMask (p : Ppu) (m : Byte) (i px py : Nat) :
    spritePixel { p with mask := m } i px py = spritePixel p i px py := rfl

/-- The picture does not depend on the mask (D26). -/
theorem composite_withMask (p : Ppu) (m : Byte) : composite { p with mask := m } = composite p := by
  simp only [composite, framePixel, backgroundPixel_withMask, spritePixel_withMask]

theorem finishFrame_withMask (m : Byte) (s : State) : finishFrame (withMask m s) = withMask m (finishFrame s) := by
  have h := composite_withMask s.ppu m
  simp only [finishFrame, renderFrame, withMask, h]

theorem step_of_input {s : State} (h : s.drv.phase = .input) : step s = .next (deliverInput s) := by
  simp only [step, h]

theorem step_of_render {s : State} (h : s.drv.phase = .render) : step s = .next (finishFrame s) := by
  simp only [step, h]

theorem step_of_nmi {s : State} (h : s.drv.phase = .cpu) (hn : s.cpu.nmiPending = true) :
    step s = .next (account nmiCycles (nmiService s)) := by
  simp only [step, h, cpuStep, hn, if_true]

theorem step_of_exec {s u : State} (h : s.drv.phase = .cpu) (hn : s.cpu.nmiPending = false)
    (hu : exec (fetchInstr s).instr (fetchInstr s).state = .next u) :
    step s = .next (account (cyclesOf s.drv.params (fetchInstr s).op) u) := by
  simp only [step, h, cpuStep, hn, Bool.false_eq_true, if_false, hu]

/-- Settles O19, by the transitions a step can be: each commutes with a change of the mask, up to the mask the instruction
itself may store. -/
theorem maskHasNoEffect : Obligations.MaskHasNoEffect := by
  unfold Obligations.MaskHasNoEffect
  intro s t m e
  obtain ⟨hp, rfl⟩ | ⟨hp, hn, rfl⟩ | ⟨hp, hn, u, hu, rfl⟩ | ⟨hp, rfl⟩ := step_cases e
  · exact ⟨m, step_of_input (s := withMask m s) hp⟩
  · refine ⟨m, (step_of_nmi (s := withMask m s) hp hn).trans ?_⟩
    rw [nmiService_withMask]
    rfl
  · obtain ⟨m', h⟩ := exec_withMask m hu
    have hf := fetchInstr_withMask m s
    refine ⟨m', (step_of_exec (s := withMask m s) (u := withMask m' u) hp hn (by rw [hf]; exact h)).trans ?_⟩
    rw [hf]
    rfl
  · refine ⟨m, (step_of_render (s := withMask m s) hp).trans ?_⟩
    rw [finishFrame_withMask]

end Sys2Proof.Machine
end

