-- ==== Sys2Proof/Proofs/Memory.lean ====
section
/-! PROOFS. The memory map (20_memory.md): the bus and its devices, the VRAM map, and which cells an instruction may change. -/

namespace Sys2Proof.Machine

open Sys2Proof.Claim

/-! ## The regions of the bus (R50 to R54, R58, R60) -/

/-- A read of an unmapped address (R58). -/
theorem memRead_of_unmapped {a : Word} (h : 0x4000 ≤ a.toNat) (h' : a.toNat ≤ 0x7FFF) (hc : a.toNat ≠ 0x4016)
    (s : State) : memRead a s = (0, s) := by
  rw [memRead]
  simp only
  rw [if_neg (by omega), if_neg (by omega), if_neg hc, if_neg (by omega)]

/-- ROM (R52) and the unmapped addresses (R58) ignore a write. -/
theorem memWrite_ignored {a : Word} (h : 0x4000 ≤ a.toNat) (hd : a.toNat ≠ 0x4014) (hc : a.toNat ≠ 0x4016) (d : Byte)
    (s : State) : memWrite a d s = s := by
  rw [memWrite]
  simp only
  rw [if_neg (by omega), if_neg (by omega), if_neg hd, if_neg hc]

theorem isCell_iff {a : Word} : isCell a = true ↔ a.toNat ≤ 0x1FFF ∨ 0x8000 ≤ a.toNat := by
  rw [isCell, Bool.or_eq_true, decide_eq_true_eq, decide_eq_true_eq]

/-- The byte of a RAM or ROM cell is one of RAM and ROM alone. -/
theorem memRead_cell_congr {a : Word} (h : isCell a = true) {s t : State} (hram : t.bus.ram = s.bus.ram)
    (hprg : t.bus.prg = s.bus.prg) : (memRead a t).1 = (memRead a s).1 := by
  rcases isCell_iff.mp h with h | h
  · rw [memRead_of_ram h, memRead_of_ram h, hram]
  · rw [memRead_of_rom h, memRead_of_rom h, hprg]

/-- A read outside the status register, the data port and the controller port has no side effect (R60). -/
theorem memRead_idle {a : Word} (h2 : ¬ IsWindow 2 a) (h7 : ¬ IsWindow 7 a) (hc : a.toNat ≠ 0x4016) (s : State) :
    (memRead a s).2 = s := by
  by_cases hram : a.toNat ≤ 0x1FFF
  · rw [memRead_of_ram hram]
  by_cases hwin : a.toNat ≤ 0x3FFF
  · have hlo : 0x2000 ≤ a.toNat := by omega
    rw [memRead_of_window hlo hwin, ppuRegRead_idle (fun h => h2 ⟨hlo, hwin, h⟩) (fun h => h7 ⟨hlo, hwin, h⟩)]
  by_cases hrom : 0x8000 ≤ a.toNat
  · rw [memRead_of_rom hrom]
  · rw [memRead_of_unmapped (by omega) (by omega) hc]

/-- Read after write of RAM, either cell (R53). -/
theorem memRead_memWrite_ram {a b : Word} {s : State} (hs : s.bus.ram.wf 0x0800) (ha : a.toNat ≤ 0x1FFF)
    (hb : b.toNat ≤ 0x1FFF) (d : Byte) :
    (memRead b (memWrite a d s)).1 = if b.toNat % 0x0800 = a.toNat % 0x0800 then d else (memRead b s).1 := by
  rw [memWrite_of_ram ha, memRead_of_ram hb, memRead_of_ram hb]
  exact Memory.read_write hs _ _ d

/-- A write changes no RAM or ROM byte but its own cell. -/
theorem memRead_memWrite_other {a b : Word} (hb : isCell b = true) (hne : ¬ SameRamCell b a) (d : Byte) (s : State) :
    (memRead b (memWrite a d s)).1 = (memRead b s).1 := by
  by_cases ha : a.toNat ≤ 0x1FFF
  · rcases isCell_iff.mp hb with h | h
    · rw [memWrite_of_ram ha, memRead_of_ram h, memRead_of_ram h]
      exact Memory.read_write_other d fun e => hne ⟨h, ha, e⟩
    · rw [memRead_of_rom h, memRead_of_rom h, memWrite_prg]
  · exact memRead_cell_congr hb (memWrite_ram_of_not ha d s) (memWrite_prg a d s)

/-- Settles O20: a RAM access is one of the cell its low eleven bits name (memRead_of_ram, memRead_memWrite_ram), and a boot
places the image there (boot_eq). -/
theorem ramIsMirrored : Obligations.RamIsMirrored := by
  unfold Obligations.RamIsMirrored
  refine ⟨fun a s ha => memRead_of_ram ha s, fun a b d s hs ha hb => memRead_memWrite_ram hs ha hb d, ?_⟩
  intro prg chr ram prm a _ ha
  rw [memRead_of_ram ha, boot_eq]
  exact (Memory.read_ofImage _ _ _).trans (if_pos (by omega))

/-- Settles O21, by the regions' rules (memRead_of_rom, memRead_of_unmapped, memWrite_ignored); a boot places the image in
ROM (boot_eq). -/
theorem romAndUnmappedIgnoreWrites : Obligations.RomAndUnmappedIgnoreWrites := by
  unfold Obligations.RomAndUnmappedIgnoreWrites
  refine ⟨fun a s ha => memRead_of_rom ha s, ?_, fun a s h h' hc => memRead_of_unmapped h h' hc s,
    fun a d s h hd hc => memWrite_ignored h hd hc d s⟩
  intro prg chr ram prm a _ ha
  have hlt := a.isLt
  rw [memRead_of_rom ha, boot_eq]
  exact (Memory.read_ofImage _ _ _).trans (if_pos (by omega))

/-- Settles O22: both addresses are in the window and have the same low three bits. -/
theorem windowIsMirrored : Obligations.WindowIsMirrored := by
  unfold Obligations.WindowIsMirrored
  intro a b d s hlo hhi hb
  have blo : 0x2000 ≤ b.toNat := by omega
  have bhi : b.toNat ≤ 0x3FFF := by omega
  have reg : b.toNat % 8 = a.toNat % 8 := by omega
  rw [memRead_of_window hlo hhi, memRead_of_window blo bhi, memWrite_of_window hlo hhi, memWrite_of_window blo bhi, reg]
  exact ⟨rfl, rfl⟩

/-- Settles O23, by the register the address reaches; a read of no such register leaves the state (memRead_idle), so a
second one gives the same. -/
theorem readsHaveNamedSideEffects : Obligations.ReadsHaveNamedSideEffects := by
  unfold Obligations.ReadsHaveNamedSideEffects
  intro a s
  refine ⟨?status, ?data, ?controller, fun h2 h7 hc => ?idle⟩
  case status =>
    rintro ⟨hlo, hhi, reg⟩
    rw [memRead_of_window hlo hhi, reg]
    rfl
  case data =>
    rintro ⟨hlo, hhi, reg⟩
    obtain ⟨b, hb⟩ := readData_frame s.ppu
    rw [memRead_of_window hlo hhi, reg, ppuRegRead_7, hb]
    exact ⟨b, _, rfl⟩
  case controller =>
    intro h
    obtain rfl : a = 0x4016 := BitVec.eq_of_toNat_eq h
    exact ⟨_, rfl⟩
  case idle =>
    have h := memRead_idle h2 h7 hc s
    exact ⟨h, by rw [h]⟩

/-! ## The controller port (R62, R63, R315) -/

/-- Bit 0 of a byte, or'd with 0x40, is their sum: they share no bit. -/
theorem bit0_or_40 (v : Byte) : (v &&& 1) ||| 0x40 = 0x40 + (v &&& 1) := by
  have disjoint : (0x40 : Byte) &&& (v &&& 1) = 0 := by
    rw [BitVec.and_comm v, ← BitVec.and_assoc]
    exact BitVec.zero_and
  rw [BitVec.or_comm, BitVec.add_eq_or_of_and_eq_zero _ _ disjoint]

/-- With the strobe set a read reloads the shift register (R63). -/
theorem memRead_controller_strobed {s : State} (h : s.bus.ctlStrobe = true) :
    memRead 0x4016 s = (0x40 + (s.bus.ctlSnapshot &&& 1), { s with bus.ctlShift := s.bus.ctlSnapshot }) := by
  rw [memRead_of_controller, ← bit0_or_40]
  simp only [controllerRead, h, if_true]

/-- With the strobe clear a read shifts (R63). -/
theorem memRead_controller_shifting {s : State} (h : s.bus.ctlStrobe = false) :
    memRead 0x4016 s = (0x40 + (s.bus.ctlShift &&& 1), { s with bus.ctlShift := s.bus.ctlShift >>> 1 }) := by
  rw [memRead_of_controller, ← bit0_or_40]
  simp only [controllerRead, h, Bool.false_eq_true, if_false]

/-- A write with bit 0 set strobes (R62). -/
theorem memWrite_controller_strobe {d : Byte} (h : d.getLsbD 0 = true) (s : State) :
    memWrite 0x4016 d s = { s with bus.ctlStrobe := true, bus.ctlShift := s.bus.ctlSnapshot } := by
  rw [memWrite_of_controller]
  simp only [controllerWrite, h, if_true]

/-- A write with bit 0 clear latches (R62). -/
theorem memWrite_controller_latch {d : Byte} (h : d.getLsbD 0 = false) (s : State) :
    memWrite 0x4016 d s = { s with bus.ctlStrobe := false } := by
  rw [memWrite_of_controller]
  simp only [controllerWrite, h, Bool.false_eq_true, if_false]

/-- Strobed reads leave a port that is loaded already as it is. -/
theorem afterPortReads_strobed {s : State} (h : s.bus.ctlStrobe = true) (hl : s.bus.ctlShift = s.bus.ctlSnapshot)
    (k : Nat) : afterPortReads k s = s := by
  induction k with
  | zero => rfl
  | succ k ih =>
    rw [afterPortReads, memRead_controller_strobed h, ← hl]
    exact ih

/-- Each unstrobed read shifts by one. -/
theorem afterPortReads_shifting {s : State} (h : s.bus.ctlStrobe = false) (k : Nat) :
    afterPortReads k s = { s with bus.ctlShift := s.bus.ctlShift >>> k } := by
  induction k generalizing s with
  | zero => rw [BitVec.ushiftRight_zero]; rfl
  | succ k ih =>
    have rest := ih (s := { s with bus.ctlShift := s.bus.ctlShift >>> 1 }) h
    rw [afterPortReads, memRead_controller_shifting h, Nat.add_comm k 1, BitVec.shiftRight_add]
    exact rest

/-- Past its eight bits a shift register holds 0. -/
theorem ushiftRight_bit0 (v : Byte) (k : Nat) : (v >>> k) &&& 1 = if k < 8 then (v >>> k) &&& 1 else 0 := by
  split
  · rfl
  · rw [BitVec.ushiftRight_eq_zero (by omega)]
    exact BitVec.zero_and

/-- Settles O24: one rule per read and per write, and the runs of reads by induction on their number
(afterPortReads_strobed, afterPortReads_shifting). -/
theorem controllerShiftsSnapshot : Obligations.ControllerShiftsSnapshot := by
  unfold Obligations.ControllerShiftsSnapshot
  refine ⟨fun s h => memRead_controller_strobed h,
    fun s h => ⟨s.bus.ctlShift >>> 1, ?_, memRead_controller_shifting h⟩,
    fun d s h => memWrite_controller_strobe h s, fun d s h => memWrite_controller_latch h s, ?_⟩
  · rw [BitVec.toNat_ushiftRight, Nat.shiftRight_eq_div_pow]
  · intro s on off k hon hoff
    simp only [memWrite_controller_strobe hon, memWrite_controller_latch hoff]
    refine ⟨?_, ?_, trivial⟩
    · rw [afterPortReads_strobed rfl rfl, memRead_controller_strobed rfl]
    · rw [afterPortReads_shifting rfl, memRead_controller_shifting rfl, ← ushiftRight_bit0]

/-! ## The OAM DMA (R55) -/

/-- The state after the first `n` bytes of an OAM DMA from page `d`. -/
def dmaRun (d : Byte) (s : State) (n : Nat) : State := (List.range n).foldl (oamDmaByte d) s

theorem dmaRun_zero (d : Byte) (s : State) : dmaRun d s 0 = s := rfl

theorem dmaRun_succ (d : Byte) (s : State) (n : Nat) : dmaRun d s (n + 1) = oamDmaByte d (dmaRun d s n) n := by
  rw [dmaRun, List.range_succ, List.foldl_append]
  rfl

theorem memWrite_of_dma (d : Byte) (s : State) : memWrite 0x4014 d s = dmaRun d s 256 := rfl

theorem memRead_oamaddr (a : Word) (s : State) : (memRead a s).2.ppu.oamaddr = s.ppu.oamaddr := by
  obtain ⟨_, _, _, _, _, h⟩ := memRead_effects a s
  rw [h]

/-- A DMA keeps the OAM address. -/
theorem dmaRun_oamaddr (d : Byte) (s : State) (n : Nat) : (dmaRun d s n).ppu.oamaddr = s.ppu.oamaddr := by
  induction n with
  | zero => rfl
  | succ n ih =>
    rw [dmaRun_succ, ← ih]
    exact memRead_oamaddr _ _

/-- The pages of RAM and of ROM hold cells only. -/
theorem isCell_page {d : Byte} (h : d.toNat ≤ 0x1F ∨ 0x80 ≤ d.toNat) (i : Byte) : isCell (wordOf i d) = true := by
  have hi := i.isLt
  rw [isCell_iff, wordOf_toNat]
  omega

/-- A DMA from a page of cells changes OAM only: the bytes copied so far are the page's. -/
theorem dmaRun_of_cells {d : Byte} {s : State} (hs : s.ppu.oam.wf 0x100) (h : d.toNat ≤ 0x1F ∨ 0x80 ≤ d.toNat) {n : Nat}
    (hn : n ≤ 256) : ∃ oam : Memory 8, oam.wf 0x100 ∧ dmaRun d s n = { s with ppu.oam := oam } ∧
      ∀ i < n, oam.read ((s.ppu.oamaddr.toNat + i) % 256) = (memRead (wordOf (BitVec.ofNat 8 i) d) s).1 := by
  induction n with
  | zero => exact ⟨s.ppu.oam, hs, rfl, nofun⟩
  | succ n ih =>
    obtain ⟨oam, wf, run, copied⟩ := ih (by omega)
    have cell := isCell_page h (BitVec.ofNat 8 n)
    have byte := memRead_cell_congr cell (s := s) (t := { s with ppu.oam := oam }) rfl rfl
    refine ⟨oam.write ((s.ppu.oamaddr.toNat + n) % 256) (memRead (wordOf (BitVec.ofNat 8 n) d) s).1,
      Memory.write_wf wf (by omega) _, ?_, fun i hi => ?_⟩
    · rw [dmaRun_succ, run, oamDmaByte, (memRead_of_cell cell _).1, byte]
    · rw [Memory.read_write wf]
      by_cases e : i = n
      · rw [e, if_pos rfl]
      · rw [if_neg (by omega), copied i (by omega)]

/-- Settles O25: the run is the copy byte by byte (dmaRun), which keeps the OAM address; from a page of cells by induction
on the bytes copied (dmaRun_of_cells). -/
theorem oamDmaCopiesThePage : Obligations.OamDmaCopiesThePage := by
  unfold Obligations.OamDmaCopiesThePage
  constructor
  · intro d s
    refine ⟨dmaRun d s, dmaRun_zero d s, memWrite_of_dma d s, fun i _ => ?_⟩
    rw [dmaRun_succ, ← dmaRun_oamaddr d s i, ← memRead_oamaddr (wordOf (BitVec.ofNat 8 i) d)]
    rfl
  · intro d s hs hd
    obtain ⟨oam, -, run, copied⟩ := dmaRun_of_cells hs.ppu.oam hd (Nat.le_refl 256)
    exact ⟨oam, (memWrite_of_dma d s).trans run, copied⟩

/-! ## The VRAM map (R65, R66, R67) -/

/-- Above pattern memory a read does not depend on it. -/
theorem vramRead_setChr {b : Nat} (h : 0x2000 ≤ b % 0x4000) (p : Ppu) (c : Memory 8) :
    vramRead { p with chr := c } b = vramRead p b := by
  rw [vramRead, vramRead]
  simp only [if_neg (show ¬ b % 0x4000 ≤ 0x1FFF by omega)]

/-- Outside nametable space a read does not depend on nametable RAM. -/
theorem vramRead_setNt {b : Nat} (h : ¬ (0x2000 ≤ b % 0x4000 ∧ b % 0x4000 < 0x3000)) (p : Ppu) (m : Memory 8) :
    vramRead { p with nt := m } b = vramRead p b := by
  by_cases hc : b % 0x4000 ≤ 0x1FFF
  · rw [vramRead_chr hc, vramRead_chr hc]
  · rw [vramRead, vramRead]
    simp only [if_neg (show ¬ b % 0x4000 ≤ 0x2FFF by omega)]

/-- Below palette space a read does not depend on palette RAM. -/
theorem vramRead_setPal {b : Nat} (h : b % 0x4000 < 0x3F00) (p : Ppu) (m : Memory 6) :
    vramRead { p with pal := m } b = vramRead p b := by
  rw [vramRead, vramRead]
  simp only [if_pos (show b % 0x4000 ≤ 0x3EFF by omega)]

/-- A palette cell keeps the low six bits of a byte. -/
theorem setWidth_six (d : Byte) : (d.setWidth 6).setWidth 8 = d &&& 0x3F := by
  have low : (d &&& 0x3F).toNat = d.toNat % 2 ^ 6 := Nat.and_two_pow_sub_one_eq_mod d.toNat 6
  apply BitVec.eq_of_toNat_eq
  rw [low, BitVec.toNat_setWidth, BitVec.toNat_setWidth]
  omega

/-- VRAM read after a write of pattern memory. -/
theorem vramRead_vramWrite_chr {p : Ppu} (hp : PpuMemoriesOk p) {a : Nat} (ha : a % 0x4000 < 0x2000) (b : Nat)
    (d : Byte) : vramRead (vramWrite p a d) b = if b % 0x4000 = a % 0x4000 then d else vramRead p b := by
  rw [vramWrite_chr (by omega)]
  by_cases hb : b % 0x4000 < 0x2000
  · rw [vramRead_chr (by omega), vramRead_chr (by omega)]
    exact Memory.read_write hp.chr _ _ d
  · rw [vramRead_setChr (by omega), if_neg (by omega)]

/-- VRAM read after a write of nametable RAM: its mirrors see it. -/
theorem vramRead_vramWrite_nt {p : Ppu} (hp : PpuMemoriesOk p) {a : Nat} (ha : 0x2000 ≤ a % 0x4000)
    (ha' : a % 0x4000 < 0x3000) (b : Nat) (d : Byte) : vramRead (vramWrite p a d) b =
      if 0x2000 ≤ b % 0x4000 ∧ b % 0x4000 < 0x3000 ∧ b % 0x4000 % 0x0800 = a % 0x4000 % 0x0800 then d
      else vramRead p b := by
  rw [vramWrite_nt ha (by omega)]
  by_cases hb : 0x2000 ≤ b % 0x4000 ∧ b % 0x4000 < 0x3000
  · obtain ⟨hlo, hhi⟩ := hb
    rw [vramRead_nt hlo (by omega), vramRead_nt hlo (by omega)]
    simp only [hlo, hhi, true_and]
    exact Memory.read_write hp.nt _ _ d
  · rw [vramRead_setNt hb, if_neg fun h => hb ⟨h.1, h.2.1⟩]

/-- VRAM read after a write of palette RAM: its mirrors see the low six bits. -/
theorem vramRead_vramWrite_pal {p : Ppu} (hp : PpuMemoriesOk p) {a : Nat} (ha : 0x3F00 ≤ a % 0x4000) (b : Nat)
    (d : Byte) : vramRead (vramWrite p a d) b =
      if 0x3F00 ≤ b % 0x4000 ∧ b % 0x4000 % 32 = a % 0x4000 % 32 then d &&& 0x3F else vramRead p b := by
  rw [vramWrite_pal ha]
  by_cases hb : 0x3F00 ≤ b % 0x4000
  · rw [vramRead_pal hb, vramRead_pal hb, ← setWidth_six]
    simp only [hb, true_and, Memory.read_write hp.pal]
    exact apply_ite _ _ _ _
  · rw [vramRead_setPal (by omega), if_neg fun h => hb h.1]

/-- Settles O32, by the region of the address written. -/
theorem vramReadAfterWrite : Obligations.VramReadAfterWrite := by
  unfold Obligations.VramReadAfterWrite
  intro p a b d hp
  exact ⟨fun h h' => ⟨vramRead_hole h (by omega), vramWrite_hole h (by omega) d⟩,
    fun h => vramRead_vramWrite_chr hp h b d, fun h h' => vramRead_vramWrite_nt hp h h' b d,
    fun h => vramRead_vramWrite_pal hp h b d⟩

/-! ## An instruction that stores and pushes nothing (R59, R60)

The rules of Accesses follow the reads a meaning makes; how many of them the footprint admits is its `reads`. -/

/-- From `s` to `t` nothing but the CPU's registers changes beyond the side effects of bus reads, and of those there are
none when `reads` is false. -/
def Accesses (reads : Bool) (s t : State) : Prop :=
  (∃ cpu st v w b c, t =
    { s with
      cpu := cpu, ppu := { s.ppu with status := st, v := v, w := w, rdbuf := b }, bus.ctlShift := c }) ∧
  (reads = false → t.ppu = s.ppu ∧ t.bus = s.bus)

namespace Accesses

variable {reads : Bool} {s t u : State}

/-- A meaning that touches the CPU alone. -/
theorem onlyCpu (s : State) (cpu : Cpu) : Accesses reads s { s with cpu := cpu } :=
  ⟨⟨cpu, s.ppu.status, s.ppu.v, s.ppu.w, s.ppu.rdbuf, s.bus.ctlShift, rfl⟩, fun _ => ⟨rfl, rfl⟩⟩

theorem same (s : State) : Accesses reads s s := onlyCpu s s.cpu

theorem setCpu (h : Accesses reads s t) (cpu : Cpu) : Accesses reads s { t with cpu := cpu } := by
  obtain ⟨⟨_, st, v, w, b, c, rfl⟩, idle⟩ := h
  exact ⟨⟨cpu, st, v, w, b, c, rfl⟩, idle⟩

theorem trans (h : Accesses true s t) (h' : Accesses true t u) : Accesses true s u := by
  obtain ⟨⟨_, _, _, _, _, _, rfl⟩, -⟩ := h
  obtain ⟨⟨cpu, st, v, w, b, c, rfl⟩, -⟩ := h'
  exact ⟨⟨cpu, st, v, w, b, c, rfl⟩, nofun⟩

theorem of_memRead (a : Word) (s : State) : Accesses true s (memRead a s).2 := by
  obtain ⟨st, v, w, b, c, h⟩ := memRead_effects a s
  exact ⟨⟨s.cpu, st, v, w, b, c, h⟩, nofun⟩

theorem of_readMem (m : Mem) (s : State) : Accesses true s (readMem m s).2 := by
  rw [readMem_eq]
  exact of_memRead _ s

theorem of_readSrc (o : Src) (s : State) : Accesses (readsCell o) s (readSrc o s).2 := by
  cases o with
  | imm v => exact same s
  | mem m => exact of_readMem m s

theorem of_jumpTarget (j : Jump) (s : State) : Accesses (readsPointer j) s (jumpTarget j s).2 := by
  cases j with
  | abs target => exact same s
  | ind ptr => exact (of_memRead _ s).trans (of_memRead _ _)

theorem of_branchIf (b : Bool) (off : Byte) (s : State) : Accesses reads s (branchIf b off s) := by
  cases b with
  | false => exact same s
  | true => exact onlyCpu s _

end Accesses

/-- An instruction that stores and pushes nothing reads at most, and only where its footprint says so. -/
theorem exec_accesses {i : Instr} {s t : State} (hs : (footprint i).stores = none) (hp : (footprint i).pushes = 0)
    (e : exec i s = .next t) : Accesses (footprint i).reads s t := by
  cases i with
  | lda o | ldx o | ldy o | adc o | sbc o | and o | ora o | eor o | cmp o | cpx o | cpy o =>
    cases e; exact (Accesses.of_readSrc o s).setCpu _
  | bit m => cases e; exact (Accesses.of_readMem m s).setCpu _
  | jmp j => cases e; exact (Accesses.of_jumpTarget j s).setCpu _
  | bpl off | bmi off | bvc off | bvs off | bcc off | bcs off | bne off | beq off =>
    cases e; exact .of_branchIf _ off s
  | asl o | lsr o | rol o | ror o =>
    cases e
    cases o with
    | acc => exact .onlyCpu s _
    | mem m => exact nomatch hs
  | sta _ | stx _ | sty _ | inc _ | dec _ => exact nomatch hs
  | pha | php | jsr _ | brk => exact nomatch hp
  | pla | plp => cases e; rw [pull_eq]; exact .onlyCpu s _
  | rts => cases e; rw [pullWord_eq]; exact .onlyCpu s _
  | rti => cases e; rw [returnFromTrap_eq]; exact .onlyCpu s _
  | nop | undef _ => cases e; exact .same s
  | _ => cases e; exact .onlyCpu s _

/-- Settles O55: the instruction reads at most (exec_accesses), and a read changes none of these. -/
theorem nonStoringKeepsMemory : Obligations.NonStoringKeepsMemory := by
  unfold Obligations.NonStoringKeepsMemory
  intro i s t hs hp e
  obtain ⟨⟨_, _, _, _, _, _, rfl⟩, idle⟩ := exec_accesses hs hp e
  exact ⟨fun a ha => memRead_cell_congr ha rfl rfl, fun a => rfl, fun k => rfl, rfl, rfl, rfl, rfl, rfl, rfl, rfl, rfl,
    idle⟩

/-! ## Instructions that store (R51, R52, R53, R58, R59) -/

/-- What a store makes of its operand before the write: nothing, or one read of it with P written. -/
def BeforeStore (ea : Word) (s u : State) : Prop := u = s ∨ ∃ q, u = (memRead ea s).2.setP q

theorem BeforeStore.ram {ea : Word} {s u : State} (h : BeforeStore ea s u) : u.bus.ram = s.bus.ram := by
  obtain rfl | ⟨q, rfl⟩ := h
  · rfl
  · exact memRead_ram ea s

theorem BeforeStore.prg {ea : Word} {s u : State} (h : BeforeStore ea s u) : u.bus.prg = s.bus.prg := by
  obtain rfl | ⟨q, rfl⟩ := h
  · rfl
  · exact memRead_prg ea s

/-- Outside the devices the read before the write has no side effect. -/
theorem BeforeStore.idle {ea : Word} {s u : State} (h : BeforeStore ea s u)
    (hea : ea.toNat ≤ 0x1FFF ∨ 0x4000 ≤ ea.toNat ∧ ea.toNat ≠ 0x4016) : u.ppu = s.ppu ∧ u.bus = s.bus := by
  obtain rfl | ⟨q, rfl⟩ := h
  · exact ⟨rfl, rfl⟩
  · have outside (n : Nat) : ¬ IsWindow n ea := by
      rintro ⟨hlo, hhi, -⟩
      omega
    rw [memRead_idle (outside 2) (outside 7) (by omega)]
    exact ⟨rfl, rfl⟩

theorem modifyMem_stores (m : Mem) (f : Byte → Byte → Byte × Byte) (s : State) :
    ∃ v u, modifyMem m f s = memWrite (effAddr m s).1 v u ∧ BeforeStore (effAddr m s).1 s u :=
  ⟨_, _, modifyMem_eq m f s, .inr ⟨_, rfl⟩⟩

/-- An instruction that stores makes one write, to the effective address of its operand. -/
theorem exec_stores {i : Instr} {m : Mem} {s t : State} (hm : (footprint i).stores = some m) (e : exec i s = .next t) :
    ∃ v u, t = memWrite (effAddr m s).1 v u ∧ BeforeStore (effAddr m s).1 s u := by
  cases i with
  | sta _ | stx _ | sty _ => cases e; cases hm; exact ⟨_, s, storeMem_eq m _ s, .inl rfl⟩
  | inc _ | dec _ => cases e; cases hm; exact modifyMem_stores m _ s
  | asl o | lsr o | rol o | ror o =>
    cases e
    cases o with
    | acc => exact nomatch hm
    | mem _ => cases hm; exact modifyMem_stores m _ s
  | _ => exact nomatch hm

/-! ## Instructions that push (R27) -/

/-- From `s` to `t` nothing changes but the CPU's registers and the `n` stack cells from S down. -/
def PushesOnly (n : Nat) (s t : State) : Prop :=
  ∃ (cpu : Cpu) (ram : Memory 8), t = { s with cpu := cpu, bus.ram := ram } ∧
    ∀ c, (∀ k < n, c ≠ 0x100 + (s.cpu.sp - BitVec.ofNat 8 k).toNat) → ram.read c = s.bus.ram.read c

theorem PushesOnly.setCpu {n : Nat} {s t : State} (h : PushesOnly n s t) (cpu : Cpu) :
    PushesOnly n s { t with cpu := cpu } := by
  obtain ⟨_, ram, rfl, keeps⟩ := h
  exact ⟨cpu, ram, rfl, keeps⟩

theorem ramPushWord_read_other {sp : Byte} {c : Nat} (h0 : c ≠ 0x100 + sp.toNat) (h1 : c ≠ 0x100 + (sp - 1).toNat)
    (w : Word) (ram : Memory 8) : (ramPushWord sp w ram).read c = ram.read c := by
  rw [ramPushWord, Memory.read_write_other _ h1, Memory.read_write_other _ h0]

theorem push_pushesOnly (v : Byte) (s : State) : PushesOnly 1 s (push v s) := by
  refine ⟨_, _, push_eq v s, fun c hc => Memory.read_write_other v ?_⟩
  simpa using hc 0 (by omega)

theorem pushWord_pushesOnly (w : Word) (s : State) : PushesOnly 2 s (pushWord w s) := by
  refine ⟨_, _, pushWord_eq w s, fun c hc => ramPushWord_read_other ?_ (hc 1 (by omega)) w _⟩
  simpa using hc 0 (by omega)

theorem takeTrap_pushesOnly (ret : Word) (status : Byte) {vector : Word} (h : 0x8000 ≤ vector.toNat)
    (h' : vector.toNat < 0xFFFF) (s : State) : PushesOnly 3 s (takeTrap ret status vector s) := by
  refine ⟨_, _, takeTrap_eq ret status h h' s, fun c hc => ?_⟩
  have h0 : c ≠ 0x100 + s.cpu.sp.toNat := by simpa using hc 0 (by omega)
  exact (Memory.read_write_other status (hc 2 (by omega))).trans (ramPushWord_read_other h0 (hc 1 (by omega)) ret _)

/-- An instruction that pushes changes the registers and its stack cells alone. -/
theorem exec_pushes {i : Instr} {s t : State} (hp : 0 < (footprint i).pushes) (e : exec i s = .next t) :
    PushesOnly (footprint i).pushes s t := by
  cases i with
  | pha | php => cases e; exact push_pushesOnly _ s
  | jsr _ => cases e; exact (pushWord_pushesOnly _ s).setCpu _
  | brk => cases e; exact takeTrap_pushesOnly _ _ (by decide) (by decide) s
  | asl o | lsr o | rol o | ror o => cases o <;> exact absurd hp (Nat.lt_irrefl 0)
  | _ => exact absurd hp (Nat.lt_irrefl 0)

/-- Different RAM cells, one of them a stack slot, have different indices. -/
theorem cell_ne_of_not_slot {a : Word} {sp : Byte} (ha : a.toNat ≤ 0x1FFF) (h : ¬ SameRamCell a (stackSlot sp)) :
    a.toNat % 0x0800 ≠ 0x100 + sp.toNat := by
  have hsp := sp.isLt
  intro e
  refine h ⟨ha, ?_, ?_⟩ <;> rw [stackSlot_toNat] <;> omega

/-- A RAM or ROM byte outside the stack slots survives the pushes. -/
theorem PushesOnly.cell {n : Nat} {s t : State} (h : PushesOnly n s t) {a : Word} (ha : isCell a = true)
    (hne : ∀ k < n, ¬ SameRamCell a (stackSlot (s.cpu.sp - BitVec.ofNat 8 k))) :
    (memRead a t).1 = (memRead a s).1 := by
  obtain ⟨cpu, ram, rfl, keeps⟩ := h
  rcases isCell_iff.mp ha with ha | ha
  · rw [memRead_of_ram ha, memRead_of_ram ha]
    exact keeps _ fun k hk => cell_ne_of_not_slot ha (hne k hk)
  · rw [memRead_of_rom ha, memRead_of_rom ha]

/-- Settles O56: a store is one write to the effective address (exec_stores), which changes its own cell alone
(memRead_memWrite_other); a push changes its slots alone (exec_pushes). -/
theorem storesChangeOneCell : Obligations.StoresChangeOneCell := by
  unfold Obligations.StoresChangeOneCell
  constructor
  · intro i m s t hm e
    obtain ⟨v, u, rfl, before⟩ := exec_stores hm e
    refine ⟨fun a ha hne => ?cells, fun hram => ?ram, fun hlo hdma hctl => ?ignored⟩
    case cells =>
      rw [memRead_memWrite_other ha hne]
      exact memRead_cell_congr ha before.ram before.prg
    case ram =>
      obtain ⟨hppu, hbus⟩ := before.idle (.inl hram)
      rw [memWrite_of_ram hram, hbus]
      exact ⟨hppu, rfl⟩
    case ignored =>
      rw [memWrite_ignored hlo hdma hctl]
      exact before.idle (.inr ⟨hlo, hctl⟩)
  · intro i s t hp e
    have pushes := exec_pushes hp e
    refine ⟨fun a ha hne => pushes.cell ha hne, ?_⟩
    obtain ⟨cpu, ram, rfl, -⟩ := pushes
    exact ⟨rfl, rfl⟩

end Sys2Proof.Machine
end

