-- ==== Sys2Proof/Proofs/Encoding.lean ====
section
/-! PROOFS. The encoding (30_encoding.md): decoding and encoding agree, the undefined opcodes, the fetch of an instruction's
bytes and the step that runs it, the effective addresses of the operand forms, and the branches. -/

namespace Sys2Proof.Machine

open Sys2Proof.Claim

/-! ## Decoding and encoding agree (R91, R92, R94, R109, R110) -/

open Laws in
/-- The round trip of every constructor of Instr. -/
theorem decode_encode : ∀ i : Instr, RoundTrip.Statement i
  | .lda o => RoundTrip.lda o
  | .ldx o => RoundTrip.ldx o
  | .ldy o => RoundTrip.ldy o
  | .sta m => RoundTrip.sta m
  | .stx m => RoundTrip.stx m
  | .sty m => RoundTrip.sty m
  | .tax => RoundTrip.tax
  | .tay => RoundTrip.tay
  | .txa => RoundTrip.txa
  | .tya => RoundTrip.tya
  | .tsx => RoundTrip.tsx
  | .txs => RoundTrip.txs
  | .adc o => RoundTrip.adc o
  | .sbc o => RoundTrip.sbc o
  | .and o => RoundTrip.and o
  | .ora o => RoundTrip.ora o
  | .eor o => RoundTrip.eor o
  | .cmp o => RoundTrip.cmp o
  | .cpx o => RoundTrip.cpx o
  | .cpy o => RoundTrip.cpy o
  | .bit m => RoundTrip.bit m
  | .inc m => RoundTrip.inc m
  | .dec m => RoundTrip.dec m
  | .inx => RoundTrip.inx
  | .iny => RoundTrip.iny
  | .dex => RoundTrip.dex
  | .dey => RoundTrip.dey
  | .asl o => RoundTrip.asl o
  | .lsr o => RoundTrip.lsr o
  | .rol o => RoundTrip.rol o
  | .ror o => RoundTrip.ror o
  | .jmp j => RoundTrip.jmp j
  | .jsr target => RoundTrip.jsr target
  | .rts => RoundTrip.rts
  | .bpl off => RoundTrip.bpl off
  | .bmi off => RoundTrip.bmi off
  | .bvc off => RoundTrip.bvc off
  | .bvs off => RoundTrip.bvs off
  | .bcc off => RoundTrip.bcc off
  | .bcs off => RoundTrip.bcs off
  | .bne off => RoundTrip.bne off
  | .beq off => RoundTrip.beq off
  | .pha => RoundTrip.pha
  | .pla => RoundTrip.pla
  | .php => RoundTrip.php
  | .plp => RoundTrip.plp
  | .clc => RoundTrip.clc
  | .sec => RoundTrip.sec
  | .cli => RoundTrip.cli
  | .sei => RoundTrip.sei
  | .clv => RoundTrip.clv
  | .cld => RoundTrip.cld
  | .sed => RoundTrip.sed
  | .nop => RoundTrip.nop
  | .brk => RoundTrip.brk
  | .rti => RoundTrip.rti
  | .undef opcode => RoundTrip.undef opcode

/-- Settles O1, by the round trip of each constructor (decode_encode). -/
theorem decodeOfEncode : Obligations.DecodeOfEncode := by
  unfold Obligations.DecodeOfEncode
  exact decode_encode

/-- What a list of bytes that begins with `op` decodes to, when the operand bytes are all there. -/
theorem decode_cons {op : Byte} {bytes : List Byte} (h : opLength op ≤ bytes.length + 1) :
    decode (op :: bytes) =
      .ok (decodeOp op (bytes.getD 0 0) (bytes.getD 1 0)) (bytes.drop (opLength op - 1)) :=
  if_neg (Nat.not_lt.mpr h)

/-- What has decoded began with an opcode whose operand bytes are all there. -/
theorem decode_inv {bytes rest : List Byte} {i : Instr} (h : decode bytes = .ok i rest) :
    ∃ op more, bytes = op :: more ∧ opLength op ≤ more.length + 1 ∧
      i = decodeOp op (more.getD 0 0) (more.getD 1 0) ∧ rest = more.drop (opLength op - 1) := by
  cases bytes with
  | nil => exact nomatch h
  | cons op more =>
    by_cases hlen : opLength op ≤ more.length + 1
    · rw [decode_cons hlen] at h
      cases h
      exact ⟨op, more, rfl, hlen, rfl, rfl⟩
    · rw [decode, if_pos (Nat.lt_of_not_le hlen)] at h
      exact nomatch h

/-- The first bytes of a list, at most two of them, are those the decoder picks out. -/
theorem take_getD_pair {bytes : List Byte} {n : Nat} (hn : n ≤ 2) (h : n ≤ bytes.length) :
    [bytes.getD 0 0, bytes.getD 1 0].take n = bytes.take n := by
  match n, bytes with
  | 0, _ => rfl
  | 1, _ :: _ => rfl
  | 2, _ :: _ :: _ => rfl

/-- The operand bytes do not matter to the length. -/
theorem decodeOp_length (op l h : Byte) : (decodeOp op l h).length = opLength op := by
  obtain ⟨-, -, length, -⟩ := decodeOp_ok op l h
  exact length

/-- Whatever decodes is well formed, and the bytes it was decoded from are its encoding. -/
theorem encode_decode {bytes rest : List Byte} {i : Instr} (h : decode bytes = .ok i rest) :
    i.wellFormed = true ∧ ∃ bs, encode i = some bs ∧ bytes = bs ++ rest := by
  obtain ⟨op, more, rfl, hlen, rfl, rfl⟩ := decode_inv h
  obtain ⟨wf, opcode, -, operands⟩ := decodeOp_ok op (more.getD 0 0) (more.getD 1 0)
  have short : opLength op ≤ 3 := by have := opLength_cases op; omega
  refine ⟨wf, op :: more.take (opLength op - 1), ?_, ?_⟩
  · rw [encode, opcode, operands, take_getD_pair (by omega) (by omega)]
    rfl
  · rw [List.cons_append, List.take_append_drop]

/-- Settles O2, by the inversion of the decoder (encode_decode); no opcode calls for more than three bytes
(opLength_cases). -/
theorem encodeOfDecode : Obligations.EncodeOfDecode := by
  unfold Obligations.EncodeOfDecode
  refine ⟨fun bytes i rest h => encode_decode h, fun a b c rest => ⟨_, _, decode_cons ?_⟩⟩
  have := opLength_cases a
  simp only [List.length_cons]
  omega

/-- Settles O3, by running the decoder on the words. -/
theorem documentedWordsDecode : Obligations.DocumentedWordsDecode := by
  unfold Obligations.DocumentedWordsDecode
  decide

/-! ## The undefined opcodes (R93, R109, R204) -/

theorem decodeOp_of_undefined {op : Byte} (h : op ∈ undefinedOpcodes) (l r : Byte) : decodeOp op l r = .undef op := by
  rw [decodeOp, Option.isNone_iff_eq_none.mp (Laws.RoundTrip.decodeOp_undefined op h)]

theorem opLength_of_undefined {op : Byte} (h : op ∈ undefinedOpcodes) : opLength op = 1 := by
  rw [opLength, decodeOp_of_undefined h]
  rfl

theorem cyclesOf_of_undefined {op : Byte} (h : op ∈ undefinedOpcodes) (prm : Params) : cyclesOf prm op = 2 :=
  if_pos (List.contains_iff_mem.mpr h)

/-- A documented byte has a row of the table, and no row makes an undefined opcode. -/
theorem decodeOp_ne_undef {op : Byte} (h : op ∉ undefinedOpcodes) (l r x : Byte) : decodeOp op l r ≠ .undef x := by
  obtain ⟨build, hb⟩ := Option.isSome_iff_exists.mp ((undefined_of_lookup op).resolve_left h)
  obtain ⟨-, -, -, -, documented⟩ := opcodeTable_ok _ (mem_of_lookup hb) l r
  rw [decodeOp, hb]
  exact documented x

theorem undefinedOpcodes_nodup : undefinedOpcodes.Nodup := by decide

/-- Settles O4, by what the decoder answers inside the list (decodeOp_of_undefined) and outside it
(decodeOp_ne_undef). -/
theorem undefinedOpcodesAreNops : Obligations.UndefinedOpcodesAreNops := by
  unfold Obligations.UndefinedOpcodesAreNops
  exact ⟨rfl, undefinedOpcodes_nodup,
    fun op h => ⟨opLength_of_undefined h, decodeOp_of_undefined h, cyclesOf_of_undefined h⟩,
    fun op h => decodeOp_ne_undef h, fun op s => rfl⟩

/-! ## The fetch and the step (R90, R113, R71, R23) -/

/-- A bus read neither uses nor changes PC. -/
theorem memRead_setPc (a q : Word) (s : State) :
    memRead a (s.setPc q) = ((memRead a s).1, (memRead a s).2.setPc q) := by
  unfold memRead State.setPc
  simp only
  repeat' split
  all_goals rfl

/-- The fetch of a byte with PC at `q`: a bus read of `q`, and PC one further. -/
theorem fetchByte_setPc (q : Word) (s : State) :
    fetchByte (s.setPc q) = ((memRead q s).1, (memRead q s).2.setPc (q + 1)) := by
  rw [fetchByte, State.setPc_pc, memRead_setPc]
  rfl

theorem fetchByte_eq (s : State) :
    fetchByte s = ((memRead s.cpu.pc s).1, (memRead s.cpu.pc s).2.setPc (s.cpu.pc + 1)) :=
  fetchByte_setPc s.cpu.pc s

section
variable {s : State} {o l h : Byte × State}

/-- The fetch of a one-byte instruction: one read. -/
theorem fetchInstr_of_one (ho : memRead s.cpu.pc s = o) (hn : opLength o.1 = 1) :
    fetchInstr s = ⟨o.1, decodeOp o.1 0 0, o.2.setPc (s.cpu.pc + 1)⟩ := by
  simp only [fetchInstr, fetchByte_eq, ho, hn]

/-- The fetch of a two-byte instruction: two reads. -/
theorem fetchInstr_of_two (ho : memRead s.cpu.pc s = o) (hl : memRead (s.cpu.pc + 1) o.2 = l)
    (hn : opLength o.1 = 2) : fetchInstr s = ⟨o.1, decodeOp o.1 l.1 0, l.2.setPc (s.cpu.pc + 2)⟩ := by
  have pc2 : s.cpu.pc + 1 + 1 = s.cpu.pc + 2 := BitVec.add_assoc _ _ _
  simp only [fetchInstr, fetchByte_eq s, fetchByte_setPc, ho, hl, hn, pc2]

/-- The fetch of a three-byte instruction: three reads. -/
theorem fetchInstr_of_three (ho : memRead s.cpu.pc s = o) (hl : memRead (s.cpu.pc + 1) o.2 = l)
    (hh : memRead (s.cpu.pc + 2) l.2 = h) (hn : opLength o.1 = 3) :
    fetchInstr s = ⟨o.1, decodeOp o.1 l.1 h.1, h.2.setPc (s.cpu.pc + 3)⟩ := by
  have pc2 : s.cpu.pc + 1 + 1 = s.cpu.pc + 2 := BitVec.add_assoc _ _ _
  have pc3 : s.cpu.pc + 2 + 1 = s.cpu.pc + 3 := BitVec.add_assoc _ _ _
  simp only [fetchInstr, fetchByte_eq s, fetchByte_setPc, ho, hl, hh, hn, pc2, pc3]

end

/-- Settles O6, by the three lengths of an instruction (fetchInstr_of_one, fetchInstr_of_two, fetchInstr_of_three); the
reads leave the registers, so what is set at the end is PC alone. -/
theorem fetchReadsBytesInOrder : Obligations.FetchReadsBytesInOrder := by
  unfold Obligations.FetchReadsBytesInOrder
  intro s o l h at'
  have setPc_eq (k : Word) {u : State} (hu : u.cpu = s.cpu) : u.setPc (s.cpu.pc + k) = at' k u := by
    rw [State.setPc, hu]
  have ocpu : o.2.cpu = s.cpu := memRead_cpu _ s
  have lcpu : l.2.cpu = s.cpu := (memRead_cpu _ o.2).trans ocpu
  have hcpu : h.2.cpu = s.cpu := (memRead_cpu _ l.2).trans lcpu
  refine ⟨fun n => ?one, fun n => ?two, fun n => ?three, opLength_cases o.1, fun hp hn t ht => ?step⟩
  case one => rw [fetchInstr_of_one (o := o) rfl n, setPc_eq 1 ocpu]
  case two => rw [fetchInstr_of_two (o := o) (l := l) rfl rfl n, setPc_eq 2 lcpu]
  case three => rw [fetchInstr_of_three (o := o) (l := l) (h := h) rfl rfl rfl n, setPc_eq 3 hcpu]
  case step =>
    obtain ⟨-, -, -, hop⟩ := fetchInstr_frame s
    rw [step_of_exec hp hn ht, hop]

/-- The encoding of a well-formed instruction, as the decoder takes it apart. -/
theorem encode_inv {i : Instr} {bs : List Byte} (wf : i.wellFormed = true) (h : encode i = some bs) :
    ∃ op more, bs = op :: more ∧ more.length + 1 = opLength op ∧ i = decodeOp op (more.getD 0 0) (more.getD 1 0) := by
  obtain ⟨bs', h', hlen, hdec⟩ := decode_encode i wf
  cases h.symm.trans h'
  have hd := hdec []
  rw [List.append_nil] at hd
  obtain ⟨op, more, rfl, -, hi, -⟩ := decode_inv hd
  exact ⟨op, more, rfl, by rw [← decodeOp_length op (more.getD 0 0) (more.getD 1 0), ← hi]; exact hlen, hi⟩

/-- The fetch of a well-formed instruction whose bytes stand in RAM or ROM cells: no side effect, and PC past the bytes. -/
theorem fetchInstr_of_encoding {i : Instr} {bs : List Byte} {s : State} (wf : i.wellFormed = true)
    (henc : encode i = some bs)
    (hbs : ∀ k < bs.length, memRead (s.cpu.pc + BitVec.ofNat 16 k) s = (bs.getD k 0, s)) :
    fetchInstr s = ⟨bs.getD 0 0, i, s.setPc (s.cpu.pc + BitVec.ofNat 16 i.length)⟩ := by
  obtain ⟨op, more, rfl, hn, hi⟩ := encode_inv wf henc
  have hlen : i.length = opLength op := by rw [hi, decodeOp_length]
  have h0 : memRead s.cpu.pc s = (op, s) := by simpa using hbs 0 (Nat.succ_pos _)
  match more with
  | [] => rw [fetchInstr_of_one h0 hn.symm, hlen, ← hn, hi]; rfl
  | [l] => rw [fetchInstr_of_two h0 (hbs 1 (by simp)) hn.symm, hlen, ← hn, hi]; rfl
  | [l, h] => rw [fetchInstr_of_three h0 (hbs 1 (by simp)) (hbs 2 (by simp)) hn.symm, hlen, ← hn, hi]; rfl
  | _ :: _ :: _ :: more =>
    have := opLength_cases op
    simp only [List.length_cons] at hn
    omega

/-- Settles O5: cells are read without a side effect (memRead_of_cell), so the fetch gives the instruction
(fetchInstr_of_encoding) and the step is its meaning, accounted (step_of_exec). -/
theorem stepRunsTheDecodedInstruction : Obligations.StepRunsTheDecodedInstruction := by
  unfold Obligations.StepRunsTheDecodedInstruction
  intro s t i bs hphase hnmi wf henc hbs hexec
  have fetch := fetchInstr_of_encoding wf henc fun k hk =>
    Prod.ext (hbs k hk).2 (memRead_of_cell (hbs k hk).1 s).1
  rw [step_of_exec (u := t) hphase hnmi (by rw [fetch]; exact hexec), fetch]
  rfl

/-! ## The effective address of each operand form (R98 to R106) -/

theorem wordOf_zero_toNat (b : Byte) : (wordOf b 0).toNat = b.toNat := by
  simp [wordOf_toNat]

/-- An index added to a 16-bit address. -/
theorem add_index_toNat (a : Word) (b : Byte) : (a + wordOf b 0).toNat = (a.toNat + b.toNat) % 65536 := by
  rw [BitVec.toNat_add, wordOf_zero_toNat]

/-- The number a pointer in page zero holds; the place of its second byte wraps inside the page. -/
def zeroPagePointer (ram : Memory 8) (k : Nat) : Nat :=
  (ram.read (k % 256)).toNat + 256 * (ram.read ((k + 1) % 256)).toNat

theorem wordOf_zeroPagePointer (ram : Memory 8) {z : Byte} {k : Nat} (h : z.toNat = k % 256) :
    (wordOf (ram.read z.toNat) (ram.read (z + 1).toNat)).toNat = zeroPagePointer ram k := by
  have next : (z + 1).toNat = (k + 1) % 256 := by
    rw [BitVec.toNat_add, h]
    exact Nat.mod_add_mod k 256 1
  rw [wordOf_toNat, next, h, zeroPagePointer, Nat.add_comm, Nat.mul_comm]

/-- Settles O53: no form's address has a side effect to find (effAddr_state), and each is its sum or its pointer
(effAddr_eq, add_index_toNat, wordOf_zeroPagePointer). -/
theorem operandFormsGiveTheirAddress : Obligations.OperandFormsGiveTheirAddress := by
  unfold Obligations.OperandFormsGiveTheirAddress
  refine ⟨fun v s => rfl, fun m s => ⟨readMem_eq m s, readMem_eq m s, effAddr_state m s⟩, fun nn a s => ?_⟩
  simp only [effAddr_eq]
  refine ⟨?zp, ?zpx, ?zpy, trivial, ?abx, ?aby, ?izx, ?izy⟩
  case zp => exact wordOf_zero_toNat nn
  case zpx => exact (wordOf_zero_toNat _).trans (BitVec.toNat_add _ _)
  case zpy => exact (wordOf_zero_toNat _).trans (BitVec.toNat_add _ _)
  case abx => exact add_index_toNat a s.cpu.x
  case aby => exact add_index_toNat a s.cpu.y
  case izx => exact wordOf_zeroPagePointer s.bus.ram (BitVec.toNat_add nn s.cpu.x)
  case izy =>
    rw [add_index_toNat, wordOf_zeroPagePointer s.bus.ram (Nat.mod_eq_of_lt nn.isLt).symm]
    rfl

/-! ## The branches (R108, R174 to R182) -/

/-- A signed offset added to a 16-bit address. -/
theorem add_signExtend_toNat (pc : Word) (off : Byte) :
    ((pc + off.signExtend 16).toNat : Int) = ((pc.toNat : Int) + off.toInt) % 65536 := by
  rw [BitVec.signExtend, BitVec.toNat_add, BitVec.toNat_ofInt]
  omega

/-- A branch that tests whether `f` holds `b`. -/
theorem branchRule {op : Byte} {mk : Byte → Instr} {f : Flag} {b : Bool} (encodes : Encodes op 2 2 fun l _ => mk l)
    (meaning : ∀ off s, exec (mk off) s =
      .next (branchIf (bif b then getFlag f s.cpu.p else !getFlag f s.cpu.p) off s)) :
    BranchRule op mk f b := by
  refine ⟨encodes, fun off s => ⟨s.cpu.pc + off.signExtend 16, add_signExtend_toNat s.cpu.pc off, ?_⟩⟩
  rw [meaning]
  cases b <;> cases getFlag f s.cpu.p <;> rfl

/-- Settles O39, one rule for the eight (branchRule): each has its row in the table and is the branch on its flag. -/
theorem branchesTestTheirFlags : Obligations.BranchesTestTheirFlags := by
  unfold Obligations.BranchesTestTheirFlags
  refine ⟨?bpl, ?bmi, ?bvc, ?bvs, ?bcc, ?bcs, ?bne, ?beq⟩
  all_goals exact branchRule ⟨by decide, by decide, fun _ _ => rfl⟩ fun _ _ => rfl

end Sys2Proof.Machine
end

