-- ==== Sys2Proof/Proofs/LoadStoreTransfer.lean ====
section
/-! PROOFS. Loads, stores and register transfers (40_load_store_transfer.md R120 to R130). -/

namespace Sys2Proof.Machine

open Sys2Proof.Claim

/-! ## Z and N (R25) -/

/-- Z and N of setZN(v) are those of `v`. -/
theorem znOf_setZN (v p : Byte) : ZNOf v (setZN v p) := by
  constructor
  · simp [getFlag_setZN, BitVec.toNat_eq]
  · simp [getFlag_setZN, BitVec.msb_eq_decide]

/-- setZN writes no flag but Z and N. -/
theorem setZN_keepsFlags (v p : Byte) : KeepsFlagsBut [.Z, .N] p (setZN v p) := by
  intro f hf
  obtain ⟨hz, hn⟩ : f ≠ .Z ∧ f ≠ .N := by simpa using hf
  rw [getFlag_setZN, if_neg hn, if_neg hz]

/-! ## The instructions -/

/-- The eight rows of LDA in the opcode table (R120). -/
theorem encodesAlu_lda : EncodesAlu 0xA9 0xA5 0xB5 0xAD 0xBD 0xB9 0xA1 0xB1 .lda := by
  refine ⟨?imm, ?zp, ?zpx, ?abs, ?abx, ?aby, ?izx, ?izy⟩
  all_goals exact ⟨rfl, rfl, fun _ _ => rfl⟩

/-- Settles O40: reading the operand leaves the registers (readSrc_cpu), so P is setZN of the operand and the old P. -/
theorem loadsWriteRegisterZN : Obligations.LoadsWriteRegisterZN := by
  unfold Obligations.LoadsWriteRegisterZN
  refine ⟨⟨encodesAlu_lda, ?ldxImm, ?ldxZp, ?ldxZpy, ?ldxAbs, ?ldxAby, ?ldyImm, ?ldyZp, ?ldyZpx, ?ldyAbs, ?ldyAbx⟩,
    fun o s => ?meaning⟩
  case meaning =>
    rw [← readSrc_cpu o s]
    exact ⟨setZN (readSrc o s).1 (readSrc o s).2.cpu.p, znOf_setZN _ _, setZN_keepsFlags _ _, rfl, rfl, rfl⟩
  all_goals exact ⟨rfl, rfl, fun _ _ => rfl⟩

/-- Settles O41: a store is one MemWrite to the effective address (storeMem_eq), and a MemWrite leaves the registers and
the frame driver (memWrite_cpu, memWrite_drv). -/
theorem storesWriteTheirRegister : Obligations.StoresWriteTheirRegister := by
  unfold Obligations.StoresWriteTheirRegister
  refine ⟨⟨?staZp, ?staZpx, ?staAbs, ?staAbx, ?staAby, ?staIzx, ?staIzy, ?stxZp, ?stxZpy, ?stxAbs, ?styZp, ?styZpx,
    ?styAbs⟩, fun m s => ⟨?meaning, fun v => ⟨memWrite_cpu _ v s, memWrite_drv _ v s⟩⟩⟩
  case meaning =>
    simp only [← storeMem_eq]
    exact ⟨rfl, rfl, rfl⟩
  all_goals exact ⟨rfl, rfl, fun _ _ => rfl⟩

/-- Settles O42: each of the five sets P to setZN of its source register. -/
theorem transfersCopyAndSetZN : Obligations.TransfersCopyAndSetZN := by
  unfold Obligations.TransfersCopyAndSetZN
  refine ⟨⟨?tax, ?tay, ?txa, ?tya, ?tsx⟩, fun s => ⟨?fromA, ?fromX, ?fromY, ?fromS⟩⟩
  case fromA => exact ⟨_, znOf_setZN _ s.cpu.p, setZN_keepsFlags _ _, rfl, rfl⟩
  case fromX => exact ⟨_, znOf_setZN _ s.cpu.p, setZN_keepsFlags _ _, rfl⟩
  case fromY => exact ⟨_, znOf_setZN _ s.cpu.p, setZN_keepsFlags _ _, rfl⟩
  case fromS => exact ⟨_, znOf_setZN _ s.cpu.p, setZN_keepsFlags _ _, rfl⟩
  all_goals exact ⟨rfl, rfl, fun _ _ => rfl⟩

end Sys2Proof.Machine
end

/-! PROOFS. Arithmetic, logic, compare, bit test and counting (41_arithmetic_logic_compare.md R140 to R156), and TXS
(40_load_store_transfer.md R131). -/

namespace Sys2Proof.Machine

open Sys2Proof.Claim

/-! ## The rows of the opcode table -/

/-- Eight bytes are the rows of an instruction with the operand forms of ADC when the table gives them its lengths, its
cycles and its forms, in the order of R94. -/
theorem encodesAlu_of_rows {imm zp zpx abs abx aby izx izy : Byte} {mk : Src → Instr}
    (lengths : [imm, zp, zpx, abs, abx, aby, izx, izy].map opLength = [2, 2, 2, 3, 3, 3, 2, 2])
    (cycles : [imm, zp, zpx, abs, abx, aby, izx, izy].map (cyclesOf defaultParams) = [2, 3, 4, 4, 4, 4, 6, 5])
    (forms : ∀ l h, [imm, zp, zpx, abs, abx, aby, izx, izy].map (decodeOp · l h) =
      [mk (.imm l), mk (.mem (.zp l)), mk (.mem (.zpx l)), mk (.mem (.abs (wordOf l h))), mk (.mem (.abx (wordOf l h))),
        mk (.mem (.aby (wordOf l h))), mk (.mem (.izx l)), mk (.mem (.izy l))]) :
    EncodesAlu imm zp zpx abs abx aby izx izy mk := by
  simp only [List.map_cons, List.map_nil, List.cons.injEq, and_true, forall_and] at lengths cycles forms
  obtain ⟨lImm, lZp, lZpx, lAbs, lAbx, lAby, lIzx, lIzy⟩ := lengths
  obtain ⟨cImm, cZp, cZpx, cAbs, cAbx, cAby, cIzx, cIzy⟩ := cycles
  obtain ⟨fImm, fZp, fZpx, fAbs, fAbx, fAby, fIzx, fIzy⟩ := forms
  exact ⟨⟨lImm, cImm, fImm⟩, ⟨lZp, cZp, fZp⟩, ⟨lZpx, cZpx, fZpx⟩, ⟨lAbs, cAbs, fAbs⟩, ⟨lAbx, cAbx, fAbx⟩,
    ⟨lAby, cAby, fAby⟩, ⟨lIzx, cIzx, fIzx⟩, ⟨lIzy, cIzy, fIzy⟩⟩

/-! ## Addition and subtraction (R140, R141) -/

/-- V as a formula of the addends' and the result's bit 7. -/
theorem addOverflow_eq (a m : Byte) (c : Bool) :
    addOverflow a m c = (~~~(a ^^^ m) &&& (a ^^^ addResult a m c)).getLsbD 7 := rfl

/-- V says that the signed sum does not fit in a byte. -/
theorem addOverflow_iff (a m : Byte) (c : Bool) :
    addOverflow a m c = true ↔ a.toInt + m.toInt + c.toNat < -128 ∨ 127 < a.toInt + m.toInt + c.toNat := by
  have ha := a.isLt
  have hm := m.isLt
  have hc := c.toNat_le
  have signs : addOverflow a m c = true ↔ a.msb = m.msb ∧ a.msb ≠ (addResult a m c).msb := by
    rw [addOverflow, BitVec.msb_and, BitVec.msb_not, BitVec.msb_xor, BitVec.msb_xor]
    cases a.msb <;> cases m.msb <;> simp
  rw [signs, BitVec.toInt_eq_toNat_cond, BitVec.toInt_eq_toNat_cond]
  simp only [BitVec.msb_eq_decide, addResult_toNat, ne_eq, decide_eq_decide]
  omega

/-- ADC and SBC write no flag but C, V, Z and N. -/
theorem addFlags_keepsFlags (a m p : Byte) : KeepsFlagsBut [.C, .V, .Z, .N] p (addFlags a m p) := by
  intro f hf
  obtain ⟨hc, hv, hz, hn⟩ : f ≠ .C ∧ f ≠ .V ∧ f ≠ .Z ∧ f ≠ .N := by simpa using hf
  rw [getFlag_addFlags, if_neg hn, if_neg hz, if_neg hv, if_neg hc]

/-- C after an addition is its carry out. -/
theorem addFlags_carry (a m p : Byte) :
    getFlag .C (addFlags a m p) = true ↔ 256 ≤ a.toNat + m.toNat + carry p := by
  simp [getFlag_addFlags, sum9_msb, carry]

/-- V after an addition. -/
theorem addFlags_overflow (a m p : Byte) :
    getFlag .V (addFlags a m p) = addOverflow a m (getFlag .C p) := by
  simp [getFlag_addFlags]

/-- The state with the byte `m` and the carry added to A: what ADC and SBC do with their operand. -/
def addToA (m : Byte) (s : State) : State :=
  (s.setA (addResult s.cpu.a m (getFlag .C s.cpu.p))).setP (addFlags s.cpu.a m s.cpu.p)

theorem exec_adc (o : Src) (s : State) : exec (.adc o) s = .next (addToA (readSrc o s).1 (readSrc o s).2) := rfl

theorem exec_sbc (o : Src) (s : State) :
    exec (.sbc o) s = .next (addToA ((readSrc o s).1 ^^^ 0xFF) (readSrc o s).2) := rfl

/-- An addition to A after the operand is read, which leaves the registers as they were. -/
theorem addToA_readSrc (m : Byte) (o : Src) (s : State) :
    addToA m (readSrc o s).2 =
      { (readSrc o s).2 with cpu := { s.cpu with
          a := addResult s.cpu.a m (getFlag .C s.cpu.p), p := addFlags s.cpu.a m s.cpu.p } } := by
  rw [← readSrc_cpu o s]
  rfl

/-- Settles O43: the operand is added to A (exec_adc), and the result and the flags as numbers are addResult_toNat,
addFlags_carry and addOverflow_iff. -/
theorem adcAddsWithCarry : Obligations.AdcAddsWithCarry := by
  unfold Obligations.AdcAddsWithCarry
  refine ⟨encodesAlu_of_rows rfl rfl fun _ _ => rfl, ?_⟩
  intro o s m
  refine ⟨addResult s.cpu.a m (getFlag .C s.cpu.p), addFlags s.cpu.a m s.cpu.p, addResult_toNat _ _ _, znOf_setZN _ _,
    addFlags_carry _ _ _, ?bits, ?signed, addFlags_keepsFlags _ _ _, ?meaning⟩
  case bits => rw [addFlags_overflow, addOverflow_eq]
  case signed => rw [addFlags_overflow, addOverflow_iff, carry]
  case meaning => rw [exec_adc, addToA_readSrc]

theorem complement_toNat (m : Byte) : (m ^^^ 0xFF).toNat = 255 - m.toNat := by
  change (m ^^^ BitVec.allOnes 8).toNat = _
  rw [BitVec.xor_allOnes, BitVec.toNat_not]

/-- The complement of a byte is its negation less one, signed. -/
theorem complement_toInt (m : Byte) : (m ^^^ 0xFF).toInt = -m.toInt - 1 := by
  have hm := m.isLt
  rw [BitVec.toInt_eq_toNat_cond, BitVec.toInt_eq_toNat_cond, complement_toNat]
  omega

/-- Settles O44: adding the complement, which is 255 less the operand and signed its negation less one, subtracts
(exec_sbc, complement_toNat, complement_toInt). -/
theorem sbcSubtractsWithBorrow : Obligations.SbcSubtractsWithBorrow := by
  unfold Obligations.SbcSubtractsWithBorrow
  refine ⟨encodesAlu_of_rows rfl rfl fun _ _ => rfl, fun v s => rfl, ?_⟩
  intro o s m
  have hm := m.isLt
  have hc : carry s.cpu.p ≤ 1 := (getFlag .C s.cpu.p).toNat_le
  have result := addResult_toNat s.cpu.a (m ^^^ 0xFF) (getFlag .C s.cpu.p)
  have carryOut := addFlags_carry s.cpu.a (m ^^^ 0xFF) s.cpu.p
  have overflow := addOverflow_iff s.cpu.a (m ^^^ 0xFF) (getFlag .C s.cpu.p)
  rw [← carry, complement_toNat] at result
  rw [complement_toNat] at carryOut
  rw [← carry, complement_toInt] at overflow
  refine ⟨addResult s.cpu.a (m ^^^ 0xFF) (getFlag .C s.cpu.p), addFlags s.cpu.a (m ^^^ 0xFF) s.cpu.p, ?difference,
    znOf_setZN _ _, ?noBorrow, ?signed, addFlags_keepsFlags _ _ _, ?meaning⟩
  case difference => omega
  case noBorrow => rw [carryOut]; omega
  case signed => rw [addFlags_overflow, overflow]; omega
  case meaning => rw [exec_sbc, addToA_readSrc]

/-! ## The Decimal flag (R155) -/

/-- A bus read neither uses nor changes P. -/
theorem memRead_setP (a : Word) (q : Byte) (s : State) :
    memRead a (s.setP q) = ((memRead a s).1, (memRead a s).2.setP q) := by
  unfold memRead State.setP
  simp only
  repeat' split
  all_goals rfl

/-- Reading an operand neither uses nor changes P. -/
theorem readSrc_setP (o : Src) (q : Byte) (s : State) :
    readSrc o (s.setP q) = ((readSrc o s).1, (readSrc o s).2.setP q) := by
  cases o with
  | imm v => rfl
  | mem m =>
    have address : (effAddr m (s.setP q)).1 = (effAddr m s).1 := by rw [effAddr_eq, effAddr_eq]; rfl
    simp only [readSrc, readMem_eq, address, memRead_setP]

theorem readSrc_withFlag (o : Src) (f : Flag) (b : Bool) (s : State) :
    readSrc o (s.withFlag f b) = ((readSrc o s).1, (readSrc o s).2.withFlag f b) := by
  rw [State.withFlag, readSrc_setP, State.withFlag, readSrc_cpu]

theorem addFlags_setFlag_decimal (a m : Byte) (b : Bool) (p : Byte) :
    addFlags a m (setFlag .D b p) = setFlag .D b (addFlags a m p) := by
  refine flags_ext fun f => ?_
  simp only [getFlag_setFlag, getFlag_addFlags]
  cases f <;> simp

/-- An addition to A does not read the Decimal flag and keeps it. -/
theorem addToA_withFlag_decimal (m : Byte) (b : Bool) (s : State) :
    addToA m (s.withFlag .D b) = (addToA m s).withFlag .D b := by
  have sameCarry : getFlag .C (setFlag .D b s.cpu.p) = getFlag .C s.cpu.p := getFlag_setFlag_other (by decide) b _
  simp only [addToA, State.withFlag_a, State.withFlag_p, sameCarry, addFlags_setFlag_decimal]
  rfl

/-- Settles O45: neither reading the operand nor adding it looks at D (readSrc_withFlag, addToA_withFlag_decimal). -/
theorem decimalFlagIsIgnored : Obligations.DecimalFlagIsIgnored := by
  unfold Obligations.DecimalFlagIsIgnored
  intro o s b
  refine ⟨_, _, exec_adc o s, ?adc, exec_sbc o s, ?sbc⟩
  case adc => rw [exec_adc, readSrc_withFlag, addToA_withFlag_decimal]
  case sbc => rw [exec_sbc, readSrc_withFlag, addToA_withFlag_decimal]

/-! ## Logic (R142 to R144) -/

/-- Settles O46: reading the operand leaves the registers (readSrc_cpu), so P is setZN of the result and the old P. -/
theorem logicCombinesBits : Obligations.LogicCombinesBits := by
  unfold Obligations.LogicCombinesBits
  refine ⟨⟨?andRows, ?oraRows, ?eorRows⟩, fun o s => ?meaning⟩
  case meaning =>
    rw [← readSrc_cpu o s]
    refine ⟨?and, ?ora, ?eor⟩
    all_goals exact ⟨_, znOf_setZN _ _, setZN_keepsFlags _ _, rfl⟩
  all_goals exact encodesAlu_of_rows rfl rfl fun _ _ => rfl

/-! ## Compares (R145 to R147, R156) -/

/-- A compare writes no flag but C, Z and N. -/
theorem cmpFlags_keepsFlags (r m p : Byte) : KeepsFlagsBut [.C, .Z, .N] p (cmpFlags r m p) := by
  intro f hf
  obtain ⟨hc, hz, hn⟩ : f ≠ .C ∧ f ≠ .Z ∧ f ≠ .N := by simpa using hf
  rw [getFlag_cmpFlags, if_neg hn, if_neg hz, if_neg hc]

/-- C after a compare is the unsigned order. -/
theorem cmpFlags_carry (r m p : Byte) : getFlag .C (cmpFlags r m p) = true ↔ m.toNat ≤ r.toNat := by
  simp [getFlag_cmpFlags, BitVec.ule]

theorem sub_toNat (r m : Byte) : (r - m).toNat = (r.toNat + 256 - m.toNat) % 256 := by
  have hm := m.isLt
  rw [BitVec.toNat_sub]
  omega

/-- An instruction that writes P with cmpFlags of a register value follows the compare law for it. -/
theorem compareRule {i : Instr} {o : Src} {r : Byte} {s : State}
    (meaning : exec i s = .next ((readSrc o s).2.setP (cmpFlags r (readSrc o s).1 (readSrc o s).2.cpu.p))) :
    CompareRule i o r s := by
  rw [CompareRule, meaning, ← readSrc_cpu o s]
  exact ⟨_, _, sub_toNat r _, znOf_setZN _ _, cmpFlags_carry _ _ _, cmpFlags_keepsFlags _ _ _, rfl⟩

/-- Settles O47, one rule for the three (compareRule), each with its register as the operand's read leaves it
(readSrc_cpu). -/
theorem comparesSetCarryZN : Obligations.ComparesSetCarryZN := by
  unfold Obligations.ComparesSetCarryZN
  refine ⟨⟨encodesAlu_of_rows rfl rfl fun _ _ => rfl, ⟨?cpxImm, ?cpxZp, ?cpxAbs⟩, ?cpyImm, ?cpyZp, ?cpyAbs⟩,
    fun o s => ?meaning⟩
  case meaning =>
    rw [← readSrc_cpu o s]
    exact ⟨compareRule rfl, compareRule rfl, compareRule rfl⟩
  all_goals exact ⟨rfl, rfl, fun _ _ => rfl⟩

/-! ## Bit test and counting (R148 to R154, R131) -/

/-- BIT writes no flag but Z, N and V. -/
theorem bitFlags_keepsFlags (a m p : Byte) : KeepsFlagsBut [.Z, .N, .V] p (bitFlags a m p) := by
  intro f hf
  obtain ⟨hz, hn, hv⟩ : f ≠ .Z ∧ f ≠ .N ∧ f ≠ .V := by simpa using hf
  rw [getFlag_bitFlags, if_neg hv, if_neg hn, if_neg hz]

/-- BIT reads its cell once and writes P alone. -/
theorem exec_bit (m : Mem) (s : State) :
    exec (.bit m) s = .next { (memRead (effAddr m s).1 s).2 with
      cpu := { s.cpu with p := bitFlags s.cpu.a (memRead (effAddr m s).1 s).1 s.cpu.p } } := by
  rw [← readMem_eq, ← readMem_cpu m s]
  rfl

/-- A read-modify-write that sets Z and N from its result. -/
theorem modifyMem_setZN (m : Mem) (g : Byte → Byte) (s : State) :
    modifyMem m (fun v p => (g v, setZN (g v) p)) s =
      modified (effAddr m s).1 (g (memRead (effAddr m s).1 s).1) (setZN (g (memRead (effAddr m s).1 s).1) s.cpu.p) s := by
  rw [modifyMem_eq, modified, State.setP, memRead_cpu]

/-- One less, as 255 more modulo 256. -/
theorem sub_one_toNat (v : Byte) : (v - 1).toNat = (v.toNat + 255) % 256 := sub_toNat v 1

/-- Settles O48: BIT's flags are getFlag_bitFlags; INC and DEC are read-modify-writes that set Z and N (modifyMem_setZN). -/
theorem bitAndMemoryCounting : Obligations.BitAndMemoryCounting := by
  unfold Obligations.BitAndMemoryCounting
  refine ⟨⟨?bitZp, ?bitAbs, ⟨?incZp, ?incZpx, ?incAbs, ?incAbx⟩, ?decZp, ?decZpx, ?decAbs, ?decAbx⟩,
    fun m s => ⟨?bit, ?inc, ?dec⟩⟩
  case bit =>
    refine ⟨_, ?zero, ?negative, ?overflow, bitFlags_keepsFlags _ _ _, exec_bit m s⟩
    all_goals simp [getFlag_bitFlags]
  case inc =>
    exact ⟨_, _, BitVec.toNat_add _ 1, znOf_setZN _ _, setZN_keepsFlags _ _, congrArg _ (modifyMem_setZN m (· + 1) s)⟩
  case dec =>
    exact ⟨_, _, sub_one_toNat _, znOf_setZN _ _, setZN_keepsFlags _ _, congrArg _ (modifyMem_setZN m (· - 1) s)⟩
  all_goals exact ⟨rfl, rfl, fun _ _ => rfl⟩

/-- Settles O49: each counter sets P to setZN of its register's new value; TXS only copies. -/
theorem registerCountingAndTxs : Obligations.RegisterCountingAndTxs := by
  unfold Obligations.RegisterCountingAndTxs
  refine ⟨⟨?inxRow, ?inyRow, ?dexRow, ?deyRow, ?txsRow⟩, fun s => ⟨?inx, ?iny, ?dex, ?dey, rfl⟩⟩
  case inx => exact ⟨_, _, BitVec.toNat_add s.cpu.x 1, znOf_setZN _ _, setZN_keepsFlags _ _, rfl⟩
  case iny => exact ⟨_, _, BitVec.toNat_add s.cpu.y 1, znOf_setZN _ _, setZN_keepsFlags _ _, rfl⟩
  case dex => exact ⟨_, _, sub_one_toNat s.cpu.x, znOf_setZN _ _, setZN_keepsFlags _ _, rfl⟩
  case dey => exact ⟨_, _, sub_one_toNat s.cpu.y, znOf_setZN _ _, setZN_keepsFlags _ _, rfl⟩
  all_goals exact ⟨rfl, rfl, fun _ _ => rfl⟩

end Sys2Proof.Machine

/-! PROOFS. Shifts and rotates of the accumulator and of memory cells (42_shift_rotate.md R160 to R164). -/

namespace Sys2Proof.Machine

open Sys2Proof.Claim

/-! ## The flags after a shift -/

/-- C after a shift is the bit shifted out. -/
theorem carry_shiftFlags (r : Byte) (c : Bool) (p : Byte) : carry (shiftFlags r c p) = c.toNat := by
  simp [carry, getFlag_shiftFlags]

/-- A shift writes no flag but C, Z and N. -/
theorem shiftFlags_keepsFlags (r : Byte) (c : Bool) (p : Byte) : KeepsFlagsBut [.C, .Z, .N] p (shiftFlags r c p) := by
  intro f hf
  obtain ⟨hc, hz, hn⟩ : f ≠ .C ∧ f ≠ .Z ∧ f ≠ .N := by simpa using hf
  rw [getFlag_shiftFlags, if_neg hn, if_neg hz, if_neg hc]

/-! ## The results as numbers -/

/-- The bit a left shift drops, as a number. -/
theorem bit7_toNat (m : Byte) : (m.getLsbD 7).toNat = m.toNat / 128 := by
  have hm := m.isLt
  rw [BitVec.getLsbD, Nat.toNat_testBit]
  omega

/-- The bit a right shift drops, as a number. -/
theorem bit0_toNat (m : Byte) : (m.getLsbD 0).toNat = m.toNat % 2 := by
  rw [BitVec.getLsbD, Nat.toNat_testBit, Nat.pow_zero, Nat.div_one]

theorem shiftLeft_one_toNat (m : Byte) : (m <<< 1).toNat = 2 * m.toNat % 256 := by
  rw [BitVec.toNat_shiftLeft, Nat.shiftLeft_eq, Nat.pow_one, Nat.mul_comm]

theorem shiftRight_one_toNat (m : Byte) : (m >>> 1).toNat = m.toNat / 2 := by
  rw [BitVec.toNat_ushiftRight, Nat.shiftRight_eq_div_pow, Nat.pow_one]

/-- A carry that enters bit 0 of a left shift, which the shift leaves free, adds 1 to it. -/
theorem shiftLeft_or_carry_toNat (m : Byte) (c : Bool) :
    ((m <<< 1) ||| (BitVec.ofBool c).setWidth 8).toNat = (2 * m.toNat + c.toNat) % 256 := by
  have hc : c.toNat < 2 ^ 1 := c.toNat_lt
  have shifted : (m <<< 1).toNat = 2 ^ 1 * (m.toNat % 128) := by
    rw [shiftLeft_one_toNat]
    omega
  have carryBit : ((BitVec.ofBool c).setWidth 8).toNat = c.toNat := by cases c <;> rfl
  rw [BitVec.toNat_or, shifted, carryBit, ← Nat.two_pow_add_eq_or_of_lt hc]
  omega

/-- A carry that enters bit 7 of a right shift, which the shift leaves free, adds 128 to it. -/
theorem shiftRight_or_carry_toNat (m : Byte) (c : Bool) :
    ((m >>> 1) ||| ((BitVec.ofBool c).setWidth 8 <<< 7)).toNat = m.toNat / 2 + 128 * c.toNat := by
  have hm : m.toNat / 2 < 2 ^ 7 := by
    have := m.isLt
    omega
  have carryBit : ((BitVec.ofBool c).setWidth 8 <<< 7).toNat = 2 ^ 7 * c.toNat := by cases c <;> rfl
  rw [BitVec.toNat_or, shiftRight_one_toNat, carryBit, Nat.or_comm, ← Nat.two_pow_add_eq_or_of_lt hm, Nat.add_comm]

/-! ## The instructions -/

/-- An instruction that is a read-modify-write by `op` follows `rule` when `op` writes the flags of a shift that drops
`out`, and its result and `out` are related to the operand and the old carry by `rule`. -/
theorem shiftRule_of_op {mk : Rmw → Instr} {rule : (m c r c' : Nat) → Prop} {op : Byte → Byte → Byte × Byte}
    {out : Byte → Bool} (meaning : ∀ o s, exec (mk o) s = .next (modifyRmw o op s))
    (flags : ∀ m p, (op m p).2 = shiftFlags (op m p).1 (out m) p)
    (result : ∀ m p, rule m.toNat (carry p) (op m p).1.toNat (out m).toNat) : ShiftRule mk rule := by
  have status (m p : Byte) : rule m.toNat (carry p) (op m p).1.toNat (carry (op m p).2) ∧ ZNOf (op m p).1 (op m p).2 ∧
      KeepsFlagsBut [.C, .Z, .N] p (op m p).2 := by
    rw [flags, carry_shiftFlags]
    exact ⟨result m p, znOf_setZN _ _, shiftFlags_keepsFlags _ _ _⟩
  constructor
  case left =>
    intro s
    obtain ⟨hrule, hzn, hkeeps⟩ := status s.cpu.a s.cpu.p
    exact ⟨_, _, hrule, hzn, hkeeps, meaning .acc s⟩
  case right =>
    intro m s
    obtain ⟨hrule, hzn, hkeeps⟩ := status (memRead (effAddr m s).1 s).1 s.cpu.p
    refine ⟨_, _, hrule, hzn, hkeeps, ?_⟩
    rw [meaning, modifyRmw, modifyMem_eq, modified, State.setP, memRead_cpu]

/-- Settles O50, one rule for the four (shiftRule_of_op), each with its result as a number and the bit it drops
(bit7_toNat, bit0_toNat). -/
theorem shiftsMoveOneBit : Obligations.ShiftsMoveOneBit := by
  unfold Obligations.ShiftsMoveOneBit
  refine ⟨⟨?aslRows, ?lsrRows, ?rolRows, ?rorRows⟩, ?asl, ?lsr, ?rol, ?ror⟩
  case asl =>
    exact shiftRule_of_op (op := aslOp) (fun _ _ => rfl) (fun _ _ => rfl)
      fun m _ => ⟨bit7_toNat m, shiftLeft_one_toNat m⟩
  case lsr =>
    exact shiftRule_of_op (op := lsrOp) (fun _ _ => rfl) (fun _ _ => rfl)
      fun m _ => ⟨bit0_toNat m, shiftRight_one_toNat m⟩
  case rol =>
    exact shiftRule_of_op (op := rolOp) (fun _ _ => rfl) (fun _ _ => rfl)
      fun m p => ⟨bit7_toNat m, shiftLeft_or_carry_toNat m (getFlag .C p)⟩
  case ror =>
    exact shiftRule_of_op (op := rorOp) (fun _ _ => rfl) (fun _ _ => rfl)
      fun m p => ⟨bit0_toNat m, shiftRight_or_carry_toNat m (getFlag .C p)⟩
  all_goals
    refine ⟨?_, ?_, ?_, ?_, ?_⟩
    all_goals exact ⟨rfl, rfl, fun _ _ => rfl⟩

end Sys2Proof.Machine

/-! PROOFS. Jumps, subroutine call and return (43_control_flow.md R170 to R173). -/

namespace Sys2Proof.Machine

open Sys2Proof.Claim

/-! ## The word on the stack (R22, R172, R173) -/

/-- The word two pulls give, as the number the claims read. -/
theorem ramTopWord_toNat (sp : Byte) (ram : Memory 8) : (ramTopWord sp ram).toNat = stackWord ram sp := by
  rw [ramTopWord, wordOf_toNat, stackWord, Nat.add_comm, Nat.mul_comm]
  rfl

/-- Two pulls give back the word two pushes stored, wherever the pushes wrapped in the stack page. -/
theorem ramTopWord_ramPushWord {ram : Memory 8} (h : ram.wf 0x0800) (sp : Byte) (w : Word) :
    ramTopWord (sp - 2) (ramPushWord sp w ram) = w := by
  have low : sp - 2 + 1 = sp - 1 := by bv_omega
  have high : sp - 2 + 2 = sp := BitVec.sub_add_cancel sp 2
  have apart : 0x100 + sp.toNat ≠ 0x100 + (sp - 1).toNat := by bv_omega
  have inPage : 0x100 + sp.toNat < 0x0800 := by have := sp.isLt; omega
  rw [ramTopWord, low, high, ramPushWord, Memory.read_write_same (Memory.write_wf h inPage _),
    Memory.read_write_other _ apart, Memory.read_write_same h, wordOf_bytes]

/-! ## What each instruction does -/

/-- JSR pushes the address before PC, its own last byte's (R172). -/
theorem exec_jsr (target : Word) (s : State) :
    exec (.jsr target) s =
      .next { s with
        bus.ram := ramPushWord s.cpu.sp (s.cpu.pc - 1) s.bus.ram
        cpu.sp := s.cpu.sp - 2
        cpu.pc := target } := by
  simp only [exec, execJsr, pushWord_eq]
  rfl

/-- RTS goes one past the word on top of the stack (R173). -/
theorem exec_rts (s : State) :
    exec .rts s = .next { s with cpu.pc := ramTopWord s.cpu.sp s.bus.ram + 1, cpu.sp := s.cpu.sp + 2 } := by
  simp only [exec, execRts, pullWord_eq]
  rfl

/-- Where the high byte of an indirect jump is read (R107): the byte after the pointer, wrapping inside its page. -/
def nextInPage (ptr : Word) : Word := wordOf (lowByte ptr + 1) (highByte ptr)

theorem nextInPage_toNat (ptr : Word) :
    (nextInPage ptr).toNat = ptr.toNat / 256 * 256 + (ptr.toNat + 1) % 256 := by
  have low : (lowByte ptr + 1).toNat = (ptr.toNat + 1) % 256 := by
    rw [BitVec.toNat_add, lowByte, BitVec.toNat_setWidth]
    exact Nat.mod_add_mod _ 256 1
  have high : (highByte ptr).toNat = ptr.toNat / 256 := by
    have := ptr.isLt
    rw [highByte, BitVec.extractLsb'_toNat, Nat.shiftRight_eq_div_pow]
    omega
  rw [nextInPage, wordOf_toNat, low, high]

/-- An indirect jump reads its two target bytes, the low one first, and writes PC alone beside what the reads change. -/
theorem exec_jmp_ind (ptr : Word) (s : State) :
    exec (.jmp (.ind ptr)) s =
      .next { (memRead (nextInPage ptr) (memRead ptr s).2).2 with
        cpu := { s.cpu with
          pc := wordOf (memRead ptr s).1 (memRead (nextInPage ptr) (memRead ptr s).2).1 } } := by
  have regs : (memRead (nextInPage ptr) (memRead ptr s).2).2.cpu = s.cpu := by rw [memRead_cpu, memRead_cpu]
  rw [← regs]
  rfl

/-! ## The claims -/

/-- Settles O36: JSR pushes PC - 1 (exec_jsr), the pulls of RTS give that word back (ramTopWord_ramPushWord), and RTS
adds the 1 again (exec_rts). -/
theorem jsrSavesTheReturnForRts : Obligations.JsrSavesTheReturnForRts := by
  unfold Obligations.JsrSavesTheReturnForRts
  refine ⟨⟨rfl, rfl, fun _ _ => rfl⟩, fun target s => ⟨s.cpu.pc - 1, ?lastByte, exec_jsr target s⟩, ?returns⟩
  case lastByte =>
    rw [BitVec.toNat_sub, Nat.add_comm]
    rfl
  case returns =>
    intro target s t u w hs call hram hsp ret
    obtain rfl := Host.Outcome.next.inj ((exec_jsr target s).symm.trans call)
    obtain rfl := Host.Outcome.next.inj ((exec_rts u).symm.trans ret)
    rw [hram, hsp, ramTopWord_ramPushWord hs]
    exact ⟨BitVec.sub_add_cancel s.cpu.pc 1, BitVec.sub_add_cancel s.cpu.sp 2⟩

/-- Settles O37: the word RTS pulls is the one the stack holds (ramTopWord_toNat). -/
theorem rtsPullsAndIncrements : Obligations.RtsPullsAndIncrements := by
  unfold Obligations.RtsPullsAndIncrements
  refine ⟨⟨rfl, rfl, fun _ _ => rfl⟩, fun s => ⟨_, s.cpu.sp + 2, ?pc, BitVec.toNat_add s.cpu.sp 2, exec_rts s⟩⟩
  case pc =>
    rw [BitVec.toNat_add, ramTopWord_toNat]
    rfl

/-- Settles O38: the second pointer byte is read at nextInPage (exec_jmp_ind, nextInPage_toNat). -/
theorem jumpsReachTheirTargets : Obligations.JumpsReachTheirTargets := by
  unfold Obligations.JumpsReachTheirTargets
  refine ⟨⟨rfl, rfl, fun _ _ => rfl⟩, ⟨rfl, rfl, fun _ _ => rfl⟩, wordOf_toNat, fun _ _ => rfl, fun ptr s => ?_⟩
  exact ⟨nextInPage ptr, _, nextInPage_toNat ptr, wordOf_toNat _ _, exec_jmp_ind ptr s⟩

end Sys2Proof.Machine

/-! PROOFS. Stack, flag, no-operation and system instructions: pushes and pulls, the flags, BRK and RTI
(44_stack_flags_system.md R190 to R203; 60_exceptions.md R275, R276, R278). -/

namespace Sys2Proof.Machine

open Sys2Proof.Claim

/-! ## Pushes and pulls (R27, R28) -/

/-- A pull undoes a push, also where S wraps: the byte and the registers are as before, and the written cell remains. -/
theorem pull_push {s : State} (h : s.bus.ram.wf 0x0800) (v : Byte) :
    pull (push v s) = (v, { s with bus.ram := s.bus.ram.write (stackCell s.cpu.sp) v }) := by
  have back : s.cpu.sp - 1 + 1 = s.cpu.sp := BitVec.sub_add_cancel s.cpu.sp 1
  rw [push_eq, pull_eq]
  simp only [back, Memory.read_write_same h, State.setSp]
  rfl

/-- Settles O51: each is one push or one pull (push_eq, pull_eq), PLA with Z and N of its byte, and a pull undoes a push
(pull_push). -/
theorem stackInstructions : Obligations.StackInstructions := by
  unfold Obligations.StackInstructions
  refine ⟨⟨?phaRow, ?plaRow, ?phpRow, ?plpRow⟩, fun s => ⟨pull_eq s, ?pha, ?php, ?pla, ?plp⟩, fun v s h => ?undone⟩
  case pha => exact congrArg _ (push_eq s.cpu.a s)
  case php => exact congrArg _ (push_eq (s.cpu.p ||| 0x30) s)
  case pla =>
    refine ⟨_, znOf_setZN _ _, setZN_keepsFlags _ _, ?_⟩
    simp only [exec, execPla, pull_eq]
    rfl
  case plp =>
    simp only [exec, execPlp, pull_eq]
    rfl
  case undone =>
    rw [pull_push h]
    exact ⟨rfl, rfl⟩
  all_goals exact ⟨rfl, rfl, fun _ _ => rfl⟩

/-! ## The flag instructions (R194 to R200) -/

/-- Writing a flag keeps every other. -/
theorem setFlag_keepsFlags (f : Flag) (b : Bool) (p : Byte) : KeepsFlagsBut [f] p (setFlag f b p) :=
  fun _ hg => getFlag_setFlag_other (List.ne_of_not_mem_cons hg) b p

/-- An instruction whose meaning is to write one flag follows the flag rule. -/
theorem flagRule {op : Byte} {i : Instr} {f : Flag} {b : Bool} (encodes : Encodes op 1 2 fun _ _ => i)
    (meaning : ∀ s, exec i s = .next (s.withFlag f b)) : FlagRule op i f b :=
  ⟨encodes, fun s => ⟨_, getFlag_setFlag_same f b s.cpu.p, setFlag_keepsFlags f b s.cpu.p, meaning s⟩⟩

/-- Settles O52, one rule for the seven (flagRule): each has its row in the table and writes its flag. -/
theorem flagInstructionsAndNop : Obligations.FlagInstructionsAndNop := by
  unfold Obligations.FlagInstructionsAndNop
  refine ⟨?clc, ?sec, ?cli, ?sei, ?clv, ?cld, ?sed, ⟨rfl, rfl, fun _ _ => rfl⟩, fun _ => rfl⟩
  all_goals exact flagRule ⟨rfl, rfl, fun _ _ => rfl⟩ fun _ => rfl

/-! ## Trap entry and return (R202, R203, R275, R276, R278) -/

/-- BRK is a trap entry: the address after the padding byte, and P with Break and Unused set, go on the stack. -/
theorem exec_brk (s : State) :
    exec .brk s =
      .next { s with
        bus.ram := ramTrap s.cpu.sp (s.cpu.pc + 1) (s.cpu.p ||| 0x30) s.bus.ram
        cpu.sp := s.cpu.sp - 3
        cpu.p := setFlag .I true s.cpu.p
        cpu.pc := romWord s 0x7FFE } :=
  congrArg _ (takeTrap_eq (s.cpu.pc + 1) (s.cpu.p ||| 0x30) (by decide) (by decide) s)

/-- Settles O34: BRK is the trap entry through 0xFFFE (exec_brk). -/
theorem brkEntersTheHandler : Obligations.BrkEntersTheHandler := by
  unfold Obligations.BrkEntersTheHandler
  exact ⟨⟨rfl, rfl, fun _ _ => rfl⟩, fun s => ⟨s.cpu.pc + 1, setFlag .I true s.cpu.p, BitVec.toNat_add s.cpu.pc 1,
    getFlag_setFlag_same .I true s.cpu.p, setFlag_keepsFlags .I true s.cpu.p, exec_brk s⟩⟩

/-- RTI pulls P, with Unused forced to 1, and the word PC goes to. -/
theorem exec_rti (s : State) :
    exec .rti s =
      .next { s with
        cpu.p := s.bus.ram.read (stackCell (s.cpu.sp + 1)) ||| 0x20
        cpu.pc := ramTopWord (s.cpu.sp + 1) s.bus.ram
        cpu.sp := s.cpu.sp + 3 } :=
  congrArg _ (returnFromTrap_eq s)

section
variable {ram : Memory 8} (h : ram.wf 0x0800) (sp : Byte) (ret : Word) (status : Byte)
include h

/-- The status byte of a trap entry is on top of the stack. -/
theorem read_ramTrap_top : (ramTrap sp ret status ram).read (stackCell (sp - 2)) = status :=
  Memory.read_write_same (ramPushWord_wf h) _ status

/-- The return address of a trap entry is below the status byte, wherever the pushes wrapped in the stack page. -/
theorem ramTopWord_ramTrap : ramTopWord (sp - 2) (ramTrap sp ret status ram) = ret := by
  have low : 0x100 + (sp - 2 + 1).toNat ≠ 0x100 + (sp - 2).toNat := by bv_omega
  have high : 0x100 + (sp - 2 + 2).toNat ≠ 0x100 + (sp - 2).toNat := by bv_omega
  calc ramTopWord (sp - 2) (ramTrap sp ret status ram)
      = ramTopWord (sp - 2) (ramPushWord sp ret ram) := by
        rw [ramTopWord, ramTrap, Memory.read_write_other _ low, Memory.read_write_other _ high, ramTopWord]
    _ = ret := ramTopWord_ramPushWord h sp ret

end

/-- A return from the stack a trap entry left restores S, the return address, and the status byte with Unused set. -/
theorem exec_rti_of_ramTrap {ram : Memory 8} (h : ram.wf 0x0800) {sp : Byte} {ret : Word} {status : Byte}
    {u : State} (hram : u.bus.ram = ramTrap sp ret status ram) (hsp : u.cpu.sp = sp - 3) :
    exec .rti u = .next { u with cpu.p := status ||| 0x20, cpu.pc := ret, cpu.sp := sp } := by
  have top : sp - 3 + 1 = sp - 2 := by bv_omega
  have back : sp - 3 + 3 = sp := BitVec.sub_add_cancel sp 3
  rw [exec_rti, hram, hsp, top, back, read_ramTrap_top h, ramTopWord_ramTrap h]

@[simp] theorem account_cpu (n : Nat) (s : State) : (account n s).cpu = s.cpu := rfl

/-- Forcing Unused to 1 sets it. -/
theorem getFlag_unused_or (v : Byte) : getFlag .U (v ||| 0x20) = true := by
  simp [getFlag, Flag.pos]

/-- Forcing Unused to 1 changes nothing where it is 1 already. -/
theorem or_unused_of_set {p : Byte} (h : getFlag .U p = true) : p ||| 0x20 = p := by
  apply flags_ext
  intro f
  cases f with
  | U => rw [getFlag_unused_or, h]
  | _ => simp [getFlag, Flag.pos]

/-- Settles O35: RTI pulls P and PC (exec_rti), which undoes the entry by BRK and by the NMI service
(exec_rti_of_ramTrap); what the NMI pushed has Unused set, by the invariant of the machine. -/
theorem rtiReturnsFromTraps : Obligations.RtiReturnsFromTraps := by
  unfold Obligations.RtiReturnsFromTraps
  refine ⟨⟨rfl, rfl, fun _ _ => rfl⟩, fun s => ⟨_, ramTopWord (s.cpu.sp + 1) s.bus.ram, rfl, getFlag_unused_or _,
    ramTopWord_toNat _ _, exec_rti s⟩, ?brk, ?nmi⟩
  case brk =>
    intro s t u w hs trap hram hsp ret
    obtain rfl := Host.Outcome.next.inj ((exec_brk s).symm.trans trap)
    obtain rfl := Host.Outcome.next.inj ((exec_rti_of_ramTrap hs hram hsp).symm.trans ret)
    exact ⟨rfl, BitVec.or_assoc s.cpu.p 0x30 0x20, rfl⟩
  case nmi =>
    intro s t u w inv hphase hnmi trap hram hsp ret
    obtain rfl := Host.Outcome.next.inj ((step_of_nmi hphase hnmi).symm.trans trap)
    rw [account_bus, nmiService_eq] at hram
    rw [account_cpu, nmiService_eq] at hsp
    obtain rfl := Host.Outcome.next.inj ((exec_rti_of_ramTrap inv.memories.ram hram hsp).symm.trans ret)
    exact ⟨rfl, or_unused_of_set inv.unused, rfl⟩

end Sys2Proof.Machine

/-! PROOFS. The register window (45_ppu_register_window.md R210 to R223). -/

namespace Sys2Proof.Machine

open Sys2Proof.Claim

/-! ## An access of the window is one of its register (R210) -/

theorem memRead_of_register {n : Nat} {a : Word} (h : IsWindow n a) (s : State) :
    memRead a s = ((ppuRegRead n s.ppu).1, { s with ppu := (ppuRegRead n s.ppu).2 }) := by
  obtain ⟨hlo, hhi, reg⟩ := h
  rw [memRead_of_window hlo hhi, reg]

theorem memWrite_of_register {n : Nat} {a : Word} (h : IsWindow n a) (d : Byte) (s : State) :
    memWrite a d s = { s with ppu := ppuRegWrite n d s.ppu } := by
  obtain ⟨hlo, hhi, reg⟩ := h
  rw [memWrite_of_window hlo hhi, reg]

theorem memWrite_of_regWrite {n : Nat} {a : Word} (h : IsWindow n a) {d : Byte} {s : State} {p : Ppu}
    (hp : ppuRegWrite n d s.ppu = p) : memWrite a d s = { s with ppu := p } := by
  rw [memWrite_of_register h, hp]

theorem isWindow_data : IsWindow 7 0x2007 := by unfold IsWindow; decide

/-! ## The registers that write t (R212, R219, R220)

A write masks t and puts a field in: `kept` says which bits the mask keeps, `field` which bits of the byte it takes. -/

/-- The bits of a field placed from bit `n` of t up. -/
theorem getLsbD_fieldAt (f : Byte) (n : Nat) {k : Nat} (hk : k < 15) :
    (f.setWidth 15 <<< n).getLsbD k = (decide (n ≤ k) && f.getLsbD (k - n)) := by
  rw [BitVec.getLsbD_shiftLeft, BitVec.getLsbD_setWidth, decide_eq_true hk, decide_eq_true (show k - n < 15 by omega),
    Bool.true_and, Bool.true_and]
  by_cases h : n ≤ k <;> simp [h]

/-- A control write copies bits 1:0 into bits 11:10 of t. -/
theorem writeCtrl_bits (d : Byte) (p : Ppu) : ∃ t : BitVec 15,
    (∀ k < 15, t.getLsbD k = if k = 10 then d.getLsbD 0 else if k = 11 then d.getLsbD 1 else p.t.getLsbD k) ∧
    writeCtrl d p = { p with ctrl := d, t := t } := by
  refine ⟨(p.t &&& (0x73FF : BitVec 15)) ||| ((d &&& 3).setWidth 15 <<< 10), fun k hk => ?_, rfl⟩
  have kept : ∀ k < 15, (0x73FF : BitVec 15).getLsbD k = decide (k ≠ 10 ∧ k ≠ 11) := by decide
  have field : ∀ i < 8, (3 : Byte).getLsbD i = decide (i < 2) := by decide
  rw [BitVec.getLsbD_or, BitVec.getLsbD_and, kept k hk, getLsbD_fieldAt _ _ hk, BitVec.getLsbD_and]
  grind

/-- A first scroll write sets coarse X, bits 4:0 of t, and fine X. -/
theorem writeScroll_first {p : Ppu} (hw : p.w = false) (d : Byte) : ∃ (t : BitVec 15) (x : BitVec 3),
    (∀ k < 15, t.getLsbD k = if k < 5 then d.getLsbD (k + 3) else p.t.getLsbD k) ∧ x.toNat = d.toNat % 8 ∧
    writeScroll d p = { p with t := t, x := x, w := true } := by
  refine ⟨(p.t &&& (0x7FE0 : BitVec 15)) ||| (d >>> 3).setWidth 15, d.setWidth 3, fun k hk => ?_,
    BitVec.toNat_setWidth 3 d, by rw [writeScroll, hw]; rfl⟩
  have kept : ∀ k < 15, (0x7FE0 : BitVec 15).getLsbD k = decide (5 ≤ k) := by decide
  rw [BitVec.getLsbD_or, BitVec.getLsbD_and, kept k hk, BitVec.getLsbD_setWidth, BitVec.getLsbD_ushiftRight]
  grind

/-- A second scroll write sets fine Y, bits 14:12 of t, and coarse Y, bits 9:5. -/
theorem writeScroll_second {p : Ppu} (hw : p.w = true) (d : Byte) : ∃ t : BitVec 15,
    (∀ k < 15, t.getLsbD k =
      if 12 ≤ k then d.getLsbD (k - 12) else if 5 ≤ k ∧ k < 10 then d.getLsbD (k - 2) else p.t.getLsbD k) ∧
    writeScroll d p = { p with t := t, w := false } := by
  refine ⟨(p.t &&& (0x0C1F : BitVec 15)) ||| ((d &&& 7).setWidth 15 <<< 12) ||| ((d >>> 3).setWidth 15 <<< 5),
    fun k hk => ?_, by rw [writeScroll, hw]; rfl⟩
  have kept : ∀ k < 15, (0x0C1F : BitVec 15).getLsbD k = decide (k < 5 ∨ k = 10 ∨ k = 11) := by decide
  have field : ∀ i < 8, (7 : Byte).getLsbD i = decide (i < 3) := by decide
  rw [BitVec.getLsbD_or, BitVec.getLsbD_or, BitVec.getLsbD_and, kept k hk, getLsbD_fieldAt _ _ hk,
    getLsbD_fieldAt _ _ hk, BitVec.getLsbD_and, BitVec.getLsbD_ushiftRight]
  grind

/-- A first address write sets bits 13:8 of t and clears bit 14. -/
theorem writeAddr_first {p : Ppu} (hw : p.w = false) (d : Byte) : ∃ t : BitVec 15,
    (∀ k < 15, t.getLsbD k = if k = 14 then false else if 8 ≤ k then d.getLsbD (k - 8) else p.t.getLsbD k) ∧
    writeAddr d p = { p with t := t, w := true } := by
  refine ⟨(p.t &&& (0x00FF : BitVec 15)) ||| ((d &&& 0x3F).setWidth 15 <<< 8), fun k hk => ?_,
    by rw [writeAddr, hw]; rfl⟩
  have kept : ∀ k < 15, (0x00FF : BitVec 15).getLsbD k = decide (k < 8) := by decide
  have field : ∀ i < 8, (0x3F : Byte).getLsbD i = decide (i < 6) := by decide
  rw [BitVec.getLsbD_or, BitVec.getLsbD_and, kept k hk, getLsbD_fieldAt _ _ hk, BitVec.getLsbD_and]
  grind

/-- A second address write sets bits 7:0 of t and copies t into v. -/
theorem writeAddr_second {p : Ppu} (hw : p.w = true) (d : Byte) : ∃ t : BitVec 15,
    (∀ k < 15, t.getLsbD k = if k < 8 then d.getLsbD k else p.t.getLsbD k) ∧
    writeAddr d p = { p with t := t, v := t, w := false } := by
  refine ⟨(p.t &&& (0x7F00 : BitVec 15)) ||| d.setWidth 15, fun k hk => ?_, by rw [writeAddr, hw]; rfl⟩
  have kept : ∀ k < 15, (0x7F00 : BitVec 15).getLsbD k = decide (8 ≤ k) := by decide
  rw [BitVec.getLsbD_or, BitVec.getLsbD_and, kept k hk, BitVec.getLsbD_setWidth]
  grind

/-- The VRAM address an address pair selects: bits 13:0 of its two bytes (R220). -/
def pairAddress (hi lo : Byte) : BitVec 15 := ((wordOf lo hi).setWidth 14).setWidth 15

theorem pairAddress_toNat (hi lo : Byte) : (pairAddress hi lo).toNat = hi.toNat % 0x40 * 0x100 + lo.toNat := by
  have hlo := lo.isLt
  rw [pairAddress, BitVec.toNat_setWidth, BitVec.toNat_setWidth, wordOf_toNat]
  omega

/-- An address pair from a clear toggle sets t and v to its address, whatever t held, and clears the toggle. -/
theorem writeAddr_pair {p : Ppu} (hw : p.w = false) (hi lo : Byte) :
    writeAddr lo (writeAddr hi p) = { p with t := pairAddress hi lo, v := pairAddress hi lo, w := false } := by
  obtain ⟨t, bits, first⟩ := writeAddr_first hw hi
  obtain ⟨t', bits', second⟩ := writeAddr_second (p := { p with t := t, w := true }) rfl lo
  have whole : t' = pairAddress hi lo := by
    apply BitVec.eq_of_getLsbD_eq
    intro k hk
    rw [bits' k hk, bits k hk, pairAddress, wordOf, BitVec.getLsbD_setWidth, BitVec.getLsbD_setWidth,
      BitVec.getLsbD_append]
    grind
  rw [first, second, whole]

theorem memWrite_addressPair {s : State} (hw : s.ppu.w = false) (hi lo : Byte) :
    memWrite 0x2006 lo (memWrite 0x2006 hi s) =
      { s with ppu := { s.ppu with t := pairAddress hi lo, v := pairAddress hi lo, w := false } } := by
  have reg : IsWindow 6 0x2006 := by unfold IsWindow; decide
  rw [memWrite_of_register reg, memWrite_of_register reg, ← writeAddr_pair hw]
  rfl

/-! ## The data port (R221 to R223) -/

@[simp] theorem vramWrite_v (p : Ppu) (a : Nat) (d : Byte) : (vramWrite p a d).v = p.v := by
  obtain ⟨_, _, _, h⟩ := vramWrite_frame p a d
  rw [h]

@[simp] theorem vramWrite_rdbuf (p : Ppu) (a : Nat) (d : Byte) : (vramWrite p a d).rdbuf = p.rdbuf := by
  obtain ⟨_, _, _, h⟩ := vramWrite_frame p a d
  rw [h]

/-- VRAM reads reduce the address first (R65). -/
theorem vramRead_mod (p : Ppu) (a : Nat) : vramRead p (a % 0x4000) = vramRead p a := by
  rw [vramRead, Nat.mod_mod, ← vramRead]

/-- Below the unmapped hole VRAM holds the byte written. -/
theorem vramRead_vramWrite_same {p : Ppu} (hp : PpuMemoriesOk p) {a : Nat} (h : a % 0x4000 ≤ 0x2FFF) (d : Byte) :
    vramRead (vramWrite p a d) a = d := by
  by_cases chr : a % 0x4000 < 0x2000
  · rw [vramRead_vramWrite_chr hp chr, if_pos rfl]
  · rw [vramRead_vramWrite_nt hp (by omega) (by omega), if_pos ⟨by omega, by omega, rfl⟩]

theorem advance_v_toNat (p : Ppu) :
    p.advance.v.toNat = (p.v.toNat + if p.ctrl.getLsbD 2 = true then 32 else 1) % 0x8000 := by
  rw [Ppu.advance_v, BitVec.toNat_add, apply_ite BitVec.toNat]
  rfl

/-- A data write stores at v and advances it. -/
theorem writeData_eq (d : Byte) (p : Ppu) :
    writeData d p = { vramWrite p p.v.toNat d with v := p.advance.v } := by
  obtain ⟨_, _, _, h⟩ := vramWrite_frame p p.v.toNat d
  rw [writeData, h]
  rfl

/-- After a data write, selecting the same address again undoes the advance of v. -/
theorem writeData_repoint (d : Byte) (p : Ppu) :
    { writeData d p with t := p.t, v := p.v, w := p.w } = vramWrite p p.v.toNat d := by
  obtain ⟨_, _, _, h⟩ := vramWrite_frame p p.v.toNat d
  rw [writeData, h]
  rfl

theorem writeData_w (d : Byte) (p : Ppu) : (writeData d p).w = p.w := by
  obtain ⟨_, _, _, h⟩ := writeData_frame d p
  rw [h]
  rfl

/-- In palette space a data read gives the entry and fills the buffer from the nametable byte 0x1000 lower. -/
theorem readData_palette {p : Ppu} (h : 0x3F00 ≤ p.v.toNat % 0x4000) :
    readData p = ((p.pal.read (p.v.toNat % 32)).setWidth 8,
      { p with rdbuf := p.nt.read ((p.v.toNat % 0x4000 - 0x1000) % 0x0800), v := p.advance.v }) := by
  have entry : p.v.toNat % 0x4000 % 0x20 = p.v.toNat % 32 := Nat.mod_mod_of_dvd _ (by decide)
  have lower : (p.v.toNat % 0x4000 - 0x1000) % 0x4000 = p.v.toNat % 0x4000 - 0x1000 := by omega
  rw [readData_high h, vramRead_mod, vramRead_pal h, entry, vramRead_nt (by omega) (by omega), lower]
  rfl

/-- Two data reads in a row below palette space: the second gives the byte the first left in the buffer. -/
theorem readData_twice {p : Ppu} (h : p.v.toNat ≤ 0x2FFF) :
    (readData (readData p).2).1 = vramRead p p.v.toNat := by
  have below : (readData p).2.v.toNat % 0x4000 ≤ 0x3EFF := by
    obtain ⟨b, next⟩ := readData_frame p
    rw [next, advance_v_toNat]
    simp only
    split <;> omega
  rw [readData_low below, readData_low (by omega), vramRead_mod]
  rfl

/-- The picture unit once a status read and an address pair have selected the address `a` (R215, R220). -/
def pointedAt (a : BitVec 15) (p : Ppu) : Ppu := { (readStatus p).2 with t := a, v := a, w := false }

/-- Selecting the address of a data write again, by a second address pair, leaves exactly its effect on VRAM. -/
theorem pointed_after_store (s : State) (hi lo d : Byte) :
    let point (u : State) : State := memWrite 0x2006 lo (memWrite 0x2006 hi u)
    let p := pointedAt (pairAddress hi lo) s.ppu
    point (memWrite 0x2007 d (point (memRead 0x2002 s).2)) = { s with ppu := vramWrite p p.v.toNat d } := by
  intro point p
  have pointed : point (memRead 0x2002 s).2 = { s with ppu := p } := by
    rw [memRead_of_register (n := 2) (by unfold IsWindow; decide)]
    exact memWrite_addressPair rfl hi lo
  rw [pointed, memWrite_of_register isWindow_data, ← writeData_repoint]
  exact memWrite_addressPair (writeData_w d p) hi lo

/-- Settles O31: the reads are data reads at the address of the write (pointed_after_store), where VRAM holds the byte, or
its low six bits, or nothing. -/
theorem dataPortReadsBack : Obligations.DataPortReadsBack := by
  unfold Obligations.DataPortReadsBack
  intro s hi lo d hs point stored first second a
  let p : Ppu := pointedAt (pairAddress hi lo) s.ppu
  let q : Ppu := vramWrite p p.v.toNat d
  have ok : PpuMemoriesOk p := ⟨hs.ppu.oam, hs.ppu.nt, hs.ppu.pal, hs.ppu.chr, hs.ppu.fb⟩
  have firstRead : first = ((readData q).1, { s with ppu := (readData q).2 }) :=
    calc memRead 0x2007 (point stored)
        = memRead 0x2007 { s with ppu := q } := congrArg _ (pointed_after_store s hi lo d)
      _ = _ := memRead_of_register isWindow_data _
  have secondRead : second.1 = (readData (readData q).2).1 :=
    calc (memRead 0x2007 first.2).1
        = (memRead 0x2007 { s with ppu := (readData q).2 }).1 := by rw [firstRead]
      _ = _ := congrArg Prod.fst (memRead_of_register isWindow_data _)
  have stale : q.rdbuf = s.ppu.rdbuf := vramWrite_rdbuf p _ d
  have hv : q.v.toNat = p.v.toNat := congrArg BitVec.toNat (vramWrite_v p _ d)
  have ha : p.v.toNat = a := pairAddress_toNat hi lo
  have inVram : a < 0x4000 := by
    have := lo.isLt
    omega
  rw [secondRead, firstRead]
  refine ⟨fun low => ?stored, fun holeLo holeHi => ?hole, fun high => ?palette⟩
  case stored =>
    rw [readData_twice (by omega), readData_low (by omega), hv]
    exact ⟨stale, vramRead_vramWrite_same ok (by omega) d⟩
  case hole =>
    rw [readData_low (by omega), vramRead_mod, hv]
    exact ⟨stale, vramRead_hole (by omega) (by omega)⟩
  case palette =>
    have palette : 0x3F00 ≤ p.v.toNat % 0x4000 := by omega
    rw [readData_high (by omega), vramRead_mod, hv, vramRead_vramWrite_pal ok palette]
    exact if_pos ⟨palette, rfl⟩

/-- Settles O26: what registers 2, 0, 1, 3, 5 and 6 do with a read (readStatus, ppuRegRead_zero). -/
theorem statusAndWriteOnlyReads : Obligations.StatusAndWriteOnlyReads := by
  unfold Obligations.StatusAndWriteOnlyReads
  refine ⟨fun a s ha => ⟨memRead_of_register ha s, ?second, fun d => memWrite_of_register ha d s⟩, ?writeOnly⟩
  case second =>
    rw [memRead_of_register ha, memRead_of_register ha]
    rfl
  case writeOnly =>
    intro a s n ha hn
    rw [memRead_of_register ha, ppuRegRead_zero (by omega) (by omega) (by omega)]

/-- Settles O27: OAM is a memory, so the byte stored reads back at its address only (Memory.read_write). -/
theorem oamDataPort : Obligations.OamDataPort := by
  unfold Obligations.OamDataPort
  intro a d s ha oam
  exact ⟨memRead_of_register ha s, _, _, memWrite_of_register ha d s, BitVec.toNat_add s.ppu.oamaddr 1,
    fun k => Memory.read_write oam _ k d⟩

/-- Settles O28, by the bits a control write gives t (writeCtrl_bits). -/
theorem controlMaskAndOamAddressWrites : Obligations.ControlMaskAndOamAddressWrites := by
  unfold Obligations.ControlMaskAndOamAddressWrites
  intro a d s
  refine ⟨fun ha => ?control, fun ha => memWrite_of_register ha d s, fun ha => memWrite_of_register ha d s⟩
  case control =>
    obtain ⟨t, bits, write⟩ := writeCtrl_bits d s.ppu
    exact ⟨t, bits, memWrite_of_regWrite ha write⟩

/-- Settles O29, by the register and the toggle, which say which half of a pair a write is. -/
theorem scrollAndAddressWrites : Obligations.ScrollAndAddressWrites := by
  unfold Obligations.ScrollAndAddressWrites
  intro a d s
  refine ⟨fun ha hw => ?scroll1, fun ha hw => ?scroll2, fun ha hw => ?addr1, fun ha hw => ?addr2⟩
  case scroll1 =>
    obtain ⟨t, x, bits, fine, write⟩ := writeScroll_first hw d
    exact ⟨t, x, bits, fine, memWrite_of_regWrite ha write⟩
  case scroll2 =>
    obtain ⟨t, bits, write⟩ := writeScroll_second hw d
    exact ⟨t, bits, memWrite_of_regWrite ha write⟩
  case addr1 =>
    obtain ⟨t, bits, write⟩ := writeAddr_first hw d
    exact ⟨t, bits, memWrite_of_regWrite ha write⟩
  case addr2 =>
    obtain ⟨t, bits, write⟩ := writeAddr_second hw d
    exact ⟨t, bits, memWrite_of_regWrite ha write⟩

/-- Settles O30, by the place of v, below palette space (readData_low) or in it (readData_palette). -/
theorem dataPortBuffersReads : Obligations.DataPortBuffersReads := by
  unfold Obligations.DataPortBuffersReads
  intro a d s ha
  refine ⟨s.ppu.advance.v, advance_v_toNat s.ppu, fun low => ?buffered, fun high => ?immediate,
    memWrite_of_regWrite ha (writeData_eq d s.ppu)⟩
  case buffered =>
    rw [memRead_of_register ha, ppuRegRead_7, readData_low (by omega), vramRead_mod]
    rfl
  case immediate =>
    rw [memRead_of_register ha, ppuRegRead_7, readData_palette high]

end Sys2Proof.Machine

/-! PROOFS. The rasterizer (46_ppu_rasterizer.md R240 to R252). The painter's loops are followed at one pixel: each column,
row and sprite overwrites it with what spritePixel gives there, if anything, so the loops compute framePixel. -/

namespace Sys2Proof.Machine

open Sys2Proof.Claim

/-! ## The render as a step (R240, R251, R252) -/

/-- Settles O13: a render step is finishFrame (step_of_render), whose frame buffer is the composite (composite_wf). -/
theorem renderSetsVblankAndNmi : Obligations.RenderSetsVblankAndNmi := by
  unfold Obligations.RenderSetsVblankAndNmi
  exact fun s hphase => ⟨composite s.ppu, composite_wf s.ppu, step_of_render hphase⟩

/-! ## Which sprite a pixel shows (R247, R248) -/

/-- A sprite draws nothing outside its rectangle. -/
theorem spritePixel_outside {p : Ppu} {i px py : Nat}
    (h : ¬((p.oam.read (4 * i)).toNat + 1 ≤ py ∧ py < (p.oam.read (4 * i)).toNat + 1 + spriteHeight p ∧
      (p.oam.read (4 * i + 3)).toNat ≤ px ∧ px < (p.oam.read (4 * i + 3)).toNat + 8)) :
    spritePixel p i px py = none := by
  rw [spritePixel]
  exact if_neg h

/-- Painting from the last sprite to the first shows the first sprite, in OAM order, that draws the pixel. -/
theorem framePixel_eq_findSome (p : Ppu) (px py : Nat) :
    framePixel p px py =
      ((List.range 64).findSome? fun i => spritePixel p i px py).getD (backgroundPixel p px py) := by
  rw [framePixel]
  generalize List.range 64 = sprites
  induction sprites with
  | nil => rfl
  | cons i rest ih =>
    rw [List.foldr_cons, List.findSome?_cons, ih]
    cases spritePixel p i px py <;> rfl

theorem framePixel_of_none {p : Ppu} {px py : Nat} (h : ∀ i < 64, spritePixel p i px py = none) :
    framePixel p px py = backgroundPixel p px py := by
  have noneDraws : ((List.range 64).findSome? fun i => spritePixel p i px py) = none :=
    List.findSome?_eq_none_iff.mpr fun i hi => h i (List.mem_range.mp hi)
  rw [framePixel_eq_findSome, noneDraws, Option.getD_none]

theorem framePixel_of_lowest {p : Ppu} {i px py : Nat} {c : BitVec 6} (hi : i < 64)
    (draws : spritePixel p i px py = some c) (lower : ∀ j < i, spritePixel p j px py = none) :
    framePixel p px py = c := by
  obtain ⟨k, hk⟩ : ∃ k, 64 = i + 1 + k := Nat.exists_eq_add_of_le hi
  have found : ((List.range 64).findSome? fun i => spritePixel p i px py) = some c := by
    refine List.findSome?_eq_some_iff.mpr ⟨List.range i, i, (List.range k).map (i + 1 + ·), ?_, draws,
      fun j hj => lower j (List.mem_range.mp hj)⟩
    rw [hk, List.range_add, List.range_succ, List.append_assoc, List.singleton_append]
  rw [framePixel_eq_findSome, found, Option.getD_some]

/-- Settles O59: a pixel shows the first sprite that draws it (framePixel_of_lowest), or the background
(framePixel_of_none); a sprite reaches from the row below its Y down (spritePixel_outside). -/
theorem lowestSpriteWins : Obligations.LowestSpriteWins := by
  unfold Obligations.LowestSpriteWins
  intro p px py
  refine ⟨framePixel_of_none, fun i hi c => framePixel_of_lowest hi, ?row0, ?offScreen, ?universal⟩
  case row0 => exact framePixel_of_none fun i _ => spritePixel_outside fun ⟨top, _⟩ => Nat.not_succ_le_zero _ top
  case offScreen => exact fun i hY hpy => spritePixel_outside (by omega)
  case universal =>
    intro index
    rw [backgroundPixel]
    exact if_pos index

/-! ## The painter's numbers are the model's (R242, R244, R245, R249) -/

/-- A bit shifted down to a number is the bit of the byte. -/
theorem bit_eq (v : Byte) (b : Nat) : bit v b = (v.getLsbD b).toNat := by
  rw [bit, BitVec.getLsbD, Nat.toNat_testBit, Nat.shiftRight_eq_div_pow]

theorem bit_eq_one (v : Byte) (b : Nat) : bit v b = 1 ↔ v.getLsbD b = true := by
  rw [bit_eq, Bool.toNat_eq_one]

theorem bit_planes_eq (lo hi : Byte) (b : Nat) : (bit hi b <<< 1) + bit lo b = colourIndex lo hi b := by
  rw [bit_eq, bit_eq, Nat.shiftLeft_eq, Nat.pow_one, colourIndex]

theorem scrollOrigin_eq (p : Ppu) : scrollOrigin p = (scrollX p, scrollY p) := by
  simp only [scrollOrigin, scrollX, scrollY, bits15, BitVec.extractLsb'_toNat, Nat.shiftLeft_eq, Nat.shiftRight_zero]

/-- The bit of a tile's column or row that says which half of its 4 by 4 tile square it is in (R245). -/
theorem and_two_eq (n : Nat) : n &&& 2 = n / 2 % 2 * 2 := by
  rw [← Nat.pow_one 2, Nat.and_two_pow, Nat.toNat_testBit]

theorem and_two_shiftLeft_eq (n : Nat) : (n &&& 2) <<< 1 = n / 2 % 2 * 4 := by
  rw [and_two_eq, Nat.shiftLeft_eq, Nat.mul_assoc]

/-- The painter's background is the model's, with its shifts and masks written as divisions and remainders. -/
theorem background_eq (p : Ppu) (px py : Nat) : background p py px = backgroundPixel p px py := by
  simp only [background, scrollOrigin_eq, bit_planes_eq, bit_eq_one, and_two_shiftLeft_eq]
  simp only [and_two_eq, Nat.shiftRight_eq_div_pow, Nat.reducePow, backgroundPixel, backgroundIndex, attributeSelector,
    tilePos]
  rfl

theorem spriteHeight_eq (p : Ppu) : (if bit p.ctrl 5 = 1 then 16 else 8) = spriteHeight p := by
  simp only [bit_eq_one, spriteHeight]

/-- The even tile number of a tall sprite. -/
theorem and_FE_toNat (v : Byte) : (v &&& 0xFE).toNat = v.toNat / 2 * 2 := by
  revert v
  decide

/-- The painter's address of a sprite's pattern row is the model's, for small and for tall sprites. -/
theorem spriteRowAddr_eq (p : Ppu) (tile : Byte) (r : Nat) :
    (if (if spriteHeight p = 8 then bit p.ctrl 3 else tile.toNat % 2) = 1 then 0x1000 else 0x0000) +
      (if spriteHeight p = 8 then tile.toNat else tile.toNat / 2 * 2 + (r >>> 3)) * 16 + r % 8 =
    spriteRowAddr p tile r := by
  cases size : p.ctrl.getLsbD 5 with
  | false =>
    simp only [spriteRowAddr, spriteHeight, size, bit_eq_one, Bool.false_eq_true, if_false, if_true]
  | true =>
    have tall : spriteHeight p ≠ 8 := by simp [spriteHeight, size]
    simp only [spriteRowAddr, size, tall, ← bit0_toNat, Bool.toNat_eq_one, and_FE_toNat, Nat.shiftRight_eq_div_pow,
      Nat.reducePow, if_false, if_true]

/-! ## The loops, seen at one pixel (R240, R247, R248) -/

@[simp] theorem put_same (fb : Screen) (py px : Nat) (c : BitVec 6) : fb.put py px c py px = c :=
  if_pos ⟨rfl, rfl⟩

theorem put_other {py px y x : Nat} (h : ¬(y = py ∧ x = px)) (fb : Screen) (c : BitVec 6) :
    fb.put py px c y x = fb y x :=
  if_neg h

/-- A loop whose turn `k` paints a pixel where `a + k = z`, and leaves it elsewhere, paints it when its range meets `z`. -/
theorem foldl_range_paints {turn : Screen → Nat → Screen} {y x a z : Nat} {colour : Option (BitVec 6)} {n : Nat}
    (h : ∀ k < n, ∀ fb, turn fb k y x = if a + k = z then colour.getD (fb y x) else fb y x) (fb : Screen) :
    (List.range n).foldl turn fb y x = if a ≤ z ∧ z < a + n then colour.getD (fb y x) else fb y x := by
  induction n with
  | zero => rw [if_neg (by omega)]; rfl
  | succ n ih =>
    rw [List.range_succ, List.foldl_append, List.foldl_cons, List.foldl_nil, h n n.lt_succ_self,
      ih fun k hk => h k (Nat.lt_succ_of_lt hk)]
    by_cases last : a + n = z
    · rw [if_pos last, if_neg (by omega), if_pos (by omega)]
    · rw [if_neg last]
      exact if_congr (by omega) rfl rfl

section
variable {p : Ppu} {i row col y x : Nat}

theorem drawColumn_offScreen
    (h : 240 ≤ (p.oam.read (4 * i)).toNat + 1 + row ∨ 256 ≤ (p.oam.read (4 * i + 3)).toNat + col) (fb : Screen) : drawColumn p i row fb col = fb := by
  rw [drawColumn]
  exact if_pos h

/-- On the screen, a column of a row overwrites its pixel with what the model's sprite draws there, if anything. -/
theorem drawColumn_onScreen (hrow : row < spriteHeight p) (hcol : col < 8)
    (atRow : (p.oam.read (4 * i)).toNat + 1 + row = y) (atCol : (p.oam.read (4 * i + 3)).toNat + col = x)
    (hy : y < 240) (hx : x < 256) (fb : Screen) :
    drawColumn p i row fb col = (spritePixel p i x y).elim fb (fb.put y x) := by
  subst atRow atCol
  simp only [drawColumn, spriteHeight_eq, spriteRowAddr_eq, bit_planes_eq]
  rw [if_neg (by omega), spritePixel]
  simp only [bit_eq_one, Nat.add_sub_cancel_left]
  rw [if_pos (c := _ ∧ _) (by omega), apply_ite (Option.elim · fb _), Option.elim_none, Option.elim_some]

/-- What one column of a row does to a pixel. -/
theorem drawColumn_apply (hrow : row < spriteHeight p) (hcol : col < 8) (hy : y < 240) (hx : x < 256) (fb : Screen) :
    drawColumn p i row fb col y x =
      if (p.oam.read (4 * i + 3)).toNat + col = x then
        (if (p.oam.read (4 * i)).toNat + 1 + row = y then spritePixel p i x y else none).getD (fb y x)
      else fb y x := by
  by_cases here : (p.oam.read (4 * i)).toNat + 1 + row = y ∧ (p.oam.read (4 * i + 3)).toNat + col = x
  case pos =>
    obtain ⟨atRow, atCol⟩ := here
    rw [drawColumn_onScreen hrow hcol atRow atCol hy hx, if_pos atCol, if_pos atRow]
    cases spritePixel p i x y with
    | none => rfl
    | some c => exact put_same fb y x c
  case neg =>
    have untouched : drawColumn p i row fb col y x = fb y x := by
      by_cases off : 240 ≤ (p.oam.read (4 * i)).toNat + 1 + row ∨ 256 ≤ (p.oam.read (4 * i + 3)).toNat + col
      · rw [drawColumn_offScreen off]
      · rw [drawColumn_onScreen hrow hcol rfl rfl (by omega) (by omega)]
        cases spritePixel p i _ _ with
        | none => rfl
        | some c => exact put_other (by omega) fb c
    rw [untouched]
    split_ifs with atCol atRow
    · exact absurd ⟨atRow, atCol⟩ here
    · rfl
    · rfl

/-- What one row of a sprite does to a pixel: the columns that reach it lie in the sprite's rectangle. -/
theorem drawRow_apply (hrow : row < spriteHeight p) (hy : y < 240) (hx : x < 256) (fb : Screen) :
    (List.range 8).foldl (drawColumn p i row) fb y x =
      if (p.oam.read (4 * i)).toNat + 1 + row = y then (spritePixel p i x y).getD (fb y x) else fb y x := by
  rw [foldl_range_paints fun col hcol fb => drawColumn_apply hrow hcol hy hx fb]
  by_cases atRow : (p.oam.read (4 * i)).toNat + 1 + row = y
  · rw [if_pos atRow, if_pos atRow]
    refine ite_eq_left_iff.mpr fun outside => ?_
    rw [spritePixel_outside (by omega), Option.getD_none]
  · rw [if_neg atRow, if_neg atRow, Option.getD_none, ite_self]

/-- DrawSprite overwrites a pixel with what the model's sprite draws there, if anything. -/
theorem drawSprite_apply (hy : y < 240) (hx : x < 256) (fb : Screen) :
    drawSprite p fb i y x = (spritePixel p i x y).getD (fb y x) := by
  simp only [drawSprite, spriteHeight_eq]
  rw [foldl_range_paints fun row hrow fb => drawRow_apply hrow hy hx fb]
  refine ite_eq_left_iff.mpr fun outside => ?_
  rw [spritePixel_outside (by omega), Option.getD_none]

end

/-- What the painter leaves at a pixel of the screen is the model's pixel. -/
theorem painted_apply (p : Ppu) {px py : Nat} (hx : px < 256) (hy : py < 240) :
    painted p py px = framePixel p px py := by
  rw [painted, List.foldl_reverse, framePixel, ← background_eq]
  exact (List.foldr_hom (fun fb : Screen => fb py px) fun i fb => (drawSprite_apply hy hx fb).symm).symm

/-- Settles O58: each cell of the composite is the model's pixel (read_composite), which is what the painter leaves
(painted_apply). -/
theorem renderPaintsTheFrame : Obligations.RenderPaintsTheFrame := by
  unfold Obligations.RenderPaintsTheFrame
  intro s t hphase hstep py hy px hx
  obtain rfl := Host.Outcome.next.inj ((step_of_render hphase).symm.trans hstep)
  exact (read_composite hx hy).trans (painted_apply s.ppu hx hy).symm

end Sys2Proof.Machine

/-! PROOFS. The NMI service, the frame schedule and the resets (60_exceptions.md R274, R276; 70_reset_and_hazards.md R300
to R308, R316). A CPU step adds its cycles to the count and makes the loop's test (step_of_cpu); the CPU steps of one
frame, taken together, are CpuRun. -/

namespace Sys2Proof.Machine

open Sys2Proof.Claim

/-! ## The NMI service as a step (R276) -/

/-- Settles O7: the step is the service, accounted (step_of_nmi), which is the trap entry through 0xFFFA
(nmiService_eq). -/
theorem nmiServiceStep : Obligations.NmiServiceStep := by
  unfold Obligations.NmiServiceStep
  intro s hphase hnmi
  refine ⟨setFlag .I true s.cpu.p, getFlag_setFlag_same _ _ _, setFlag_keepsFlags _ _ _, ?_⟩
  rw [step_of_nmi hphase hnmi, nmiService_eq]
  rfl

/-- Settles O14: the render raises the pending bit, the input delivery leaves the CPU, and a CPU step with the bit set is
the service (nmiServiceStep). -/
theorem renderedNmiIsServicedFirst : Obligations.RenderedNmiIsServicedFirst := by
  unfold Obligations.RenderedNmiIsServicedFirst
  intro s hphase henabled hbudget
  have cpuNext : (deliverInput (finishFrame s)).drv.phase = .cpu := if_pos hbudget
  have pending : (deliverInput (finishFrame s)).cpu.nmiPending = true := by
    change (s.cpu.nmiPending || s.ppu.ctrl.getLsbD 7) = true
    rw [henabled, Bool.or_true]
  obtain ⟨q, -, -, service⟩ := nmiServiceStep _ cpuNext pending
  exact ⟨_, _, _, step_of_render hphase, rfl, step_of_input rfl, cpuNext, rfl, service, rfl, rfl, rfl, rfl, rfl⟩

/-! ## What a CPU step counts (R93, R307) -/

/-- The cycles a CPU step from `s` reports: those of the service, or of the opcode at PC. -/
def stepCycles (s : State) : Nat :=
  if s.cpu.nmiPending then nmiCycles else cyclesOf s.drv.params (memRead s.cpu.pc s).1

/-- The driver after a CPU step: its cycles are counted and the loop's test is made. The snapshot stays. -/
theorem step_of_cpu {s t : State} (hphase : s.drv.phase = .cpu) (e : step s = .next t) :
    t.drv = { s.drv with
      acc := s.drv.acc + stepCycles s
      phase := budgetPhase s.drv.params (s.drv.acc + stepCycles s) } ∧
    t.bus.ctlSnapshot = s.bus.ctlSnapshot := by
  obtain ⟨hp, -⟩ | ⟨-, hnmi, rfl⟩ | ⟨-, hnmi, u, hu, rfl⟩ | ⟨hp, -⟩ := step_cases e
  case inl => exact nomatch hphase.symm.trans hp
  case inr.inl =>
    rw [stepCycles, if_pos hnmi, nmiService_eq]
    exact ⟨rfl, rfl⟩
  case inr.inr.inl =>
    obtain ⟨-, -, -, hop⟩ := fetchInstr_frame s
    have frame := fetch_exec_busFrame hu
    rw [stepCycles, hnmi, hop, account, frame.drv]
    exact ⟨rfl, frame.snapshot⟩
  case inr.inr.inr => exact nomatch hphase.symm.trans hp

theorem step_acc_of_cpu {s t : State} (hphase : s.drv.phase = .cpu) (e : step s = .next t) :
    t.drv.acc = s.drv.acc + stepCycles s :=
  congrArg Driver.acc (step_of_cpu hphase e).1

theorem step_params {s t : State} (e : step s = .next t) : t.drv.params = s.drv.params :=
  (programAndParametersAreFixed s t e).2

theorem cyclesOf_eq (prm : Params) (op : Byte) :
    cyclesOf prm op = if op ∈ undefinedOpcodes then 2 else prm.cyc[op.toNat] := by
  simp only [cyclesOf, List.contains_iff_mem, undefinedCycles]

/-- Settles O12: the head of a frame is the input delivery (step_of_input), and what a CPU step counts is step_of_cpu. -/
theorem frameScheduleCounts : Obligations.FrameScheduleCounts := by
  unfold Obligations.FrameScheduleCounts
  refine ⟨fun s hphase => step_of_input hphase, fun s t hphase e => ?_⟩
  obtain ⟨drv, snapshot⟩ := step_of_cpu hphase e
  rw [drv]
  refine ⟨rfl, snapshot, ?_, rfl⟩
  rw [← cyclesOf_eq]
  rfl

/-- A bound of at most 2 on every entry of the table bounds what any CPU step reports. -/
theorem stepCycles_ge {lo : Nat} (s : State) (hlo : lo ≤ 2) (entries : ∀ op : Byte, lo ≤ s.drv.params.cyc[op.toNat]) :
    lo ≤ stepCycles s := by
  rw [stepCycles, cyclesOf_eq]
  split
  · exact Nat.le_trans hlo (by decide)
  · split
    · exact hlo
    · exact entries _

theorem stepCycles_le (s : State) (entries : ∀ op : Byte, s.drv.params.cyc[op.toNat] ≤ 7) : stepCycles s ≤ 7 := by
  rw [stepCycles, cyclesOf_eq]
  split
  · exact Nat.le_refl 7
  · split
    · decide
    · exact entries _

/-! ## The schedule's invariant (R307) -/

/-- The loop's test chooses between a CPU step and the render. -/
theorem budgetPhase_ne_input (prm : Params) (acc : Nat) : budgetPhase prm acc ≠ .input := by
  rw [budgetPhase]
  split <;> exact nofun

/-- Wherever the loop's test has just been made, the invariant holds. -/
theorem scheduleInv_of_tested {s : State} (h : s.drv.phase = budgetPhase s.drv.params s.drv.acc) : ScheduleInv s := by
  unfold ScheduleInv
  rw [h, budgetPhase]
  split
  · exact ⟨fun _ => ‹_›, nofun⟩
  · exact ⟨nofun, fun _ => Nat.le_of_not_lt ‹_›⟩

/-- The first two transitions end with the loop's test, and the render ends before the head of a frame. -/
theorem step_tests {s t : State} (e : step s = .next t) :
    (s.drv.phase ≠ .render ∧ t.drv.phase = budgetPhase t.drv.params t.drv.acc) ∨ t.drv.phase = .input := by
  cases hphase : s.drv.phase with
  | input =>
    obtain rfl := Host.Outcome.next.inj ((step_of_input hphase).symm.trans e)
    exact .inl ⟨nofun, rfl⟩
  | cpu =>
    rw [(step_of_cpu hphase e).1]
    exact .inl ⟨nofun, rfl⟩
  | render =>
    obtain rfl := Host.Outcome.next.inj ((step_of_render hphase).symm.trans e)
    exact .inr rfl

/-- Every step leaves the invariant, also from a state that does not meet it. -/
theorem step_scheduleInv {s t : State} (e : step s = .next t) : ScheduleInv t := by
  obtain ⟨-, tested⟩ | hin := step_tests e
  · exact scheduleInv_of_tested tested
  · unfold ScheduleInv
    rw [hin]
    exact ⟨nofun, nofun⟩

/-- Settles O11: a step leaves the invariant (step_scheduleInv), the middle clause is the invariant itself, and a render
is followed by the head of a frame (step_tests). -/
theorem stepKeepsScheduleInvariant : Obligations.StepKeepsScheduleInvariant := by
  unfold Obligations.StepKeepsScheduleInvariant
  intro s t inv e
  refine ⟨step_scheduleInv e, inv.1, fun hrender => ?_⟩
  obtain ⟨hne, -⟩ | hin := step_tests e
  · exact hne
  · exact nomatch hin.symm.trans hrender

/-! ## The CPU steps of one frame (R307, R316) -/

/-- From `s` the schedule performs `k` CPU steps and then, in `t`, has a render next. -/
inductive CpuRun : Nat → State → State → Prop where
  | done {s : State} (hphase : s.drv.phase = .render) : CpuRun 0 s s
  | step {k : Nat} {s u t : State} (hphase : s.drv.phase = .cpu) (e : step s = .next u) (rest : CpuRun k u t) :
      CpuRun (k + 1) s t

namespace CpuRun

/-- The steps are a run of the machine that ends before a render, in the same frame, with the parameters it began with. -/
theorem run_eq {k : Nat} {s t : State} (r : CpuRun k s t) :
    Host.Core.run core k s = .next t ∧ t.drv.phase = .render ∧ t.drv.frame = s.drv.frame ∧
      t.drv.params = s.drv.params := by
  induction r with
  | done hphase => exact ⟨rfl, hphase, rfl, rfl⟩
  | step hphase e _ ih =>
    obtain ⟨run, render, frame, params⟩ := ih
    rw [(step_of_cpu hphase e).1] at frame
    exact ⟨(run_next _ e).trans run, render, frame, params.trans (step_params e)⟩

/-- Every step of it is a CPU step. -/
theorem phase_cpu {k : Nat} {s t : State} (r : CpuRun k s t) :
    ∀ j < k, ∃ u : State, Host.Core.run core j s = .next u ∧ u.drv.phase = .cpu := by
  induction r with
  | done => exact nofun
  | step hphase e _ ih =>
    intro j hj
    match j with
    | 0 => exact ⟨_, rfl, hphase⟩
    | j + 1 =>
      obtain ⟨u, run, hcpu⟩ := ih j (Nat.lt_of_succ_lt_succ hj)
      exact ⟨u, (run_next j e).trans run, hcpu⟩

/-- When a step reports at least `lo` cycles, the budget outlasts `lo` cycles for each of fewer than `k` steps: every CPU
step begins inside it. -/
theorem count_lt {lo k : Nat} {s t : State} (r : CpuRun k s t) (inv : ScheduleInv s) (hlo : lo ≤ 2)
    (entries : ∀ op : Byte, lo ≤ s.drv.params.cyc[op.toNat]) {j : Nat} (hj : j < k) :
    s.drv.acc + lo * j < s.drv.params.frameCycles := by
  induction r generalizing j with
  | done => exact nomatch hj
  | @step _ s u _ hphase e _ ih =>
    match j with
    | 0 => exact inv.1 hphase
    | j + 1 =>
      have reported := stepCycles_ge s hlo entries
      rw [step_params e, step_acc_of_cpu hphase e] at ih
      have later := ih (step_scheduleInv e) entries (Nat.lt_of_succ_lt_succ hj)
      rw [Nat.mul_succ]
      omega

/-- The count at the end is at most 7 cycles a step above what it was, when no entry is above 7. -/
theorem count_le {k : Nat} {s t : State} (r : CpuRun k s t)
    (entries : ∀ op : Byte, s.drv.params.cyc[op.toNat] ≤ 7) : t.drv.acc ≤ s.drv.acc + 7 * k := by
  induction r with
  | done => exact Nat.le_refl _
  | @step _ s u _ hphase e _ ih =>
    have reported := stepCycles_le s entries
    rw [step_params e, step_acc_of_cpu hphase e] at ih
    have rest := ih entries
    omega

/-- The render at the end finds the budget spent. -/
theorem budget_spent {k : Nat} {s t : State} (r : CpuRun k s t) (inv : ScheduleInv s) :
    t.drv.params.frameCycles ≤ t.drv.acc := by
  induction r with
  | done hphase => exact inv.2 hphase
  | step _ e _ ih => exact ih (step_scheduleInv e)

end CpuRun

/-- Where every opcode reports a cycle the CPU steps of a frame end: each leaves less of the budget. -/
theorem exists_cpuRun {s : State} (inv : ScheduleInv s) (hphase : s.drv.phase ≠ .input)
    (positive : CyclesPositive s.drv.params) : ∃ k t, CpuRun k s t := by
  cases hp : s.drv.phase with
  | input => exact absurd hp hphase
  | render => exact ⟨0, s, .done hp⟩
  | cpu =>
    obtain ⟨u, e⟩ := step_safe s
    have params := step_params e
    have less : u.drv.params.frameCycles - u.drv.acc < s.drv.params.frameCycles - s.drv.acc := by
      have inside := inv.1 hp
      have reported := stepCycles_ge s (Nat.le_succ 1) positive
      rw [params, step_acc_of_cpu hp e]
      omega
    have goesOn : u.drv.phase ≠ .input := by
      rw [(step_of_cpu hp e).1]
      exact budgetPhase_ne_input _ _
    obtain ⟨k, t, rest⟩ := exists_cpuRun (step_scheduleInv e) goesOn (by rw [params]; exact positive)
    exact ⟨k + 1, t, .step hp e rest⟩
termination_by s.drv.params.frameCycles - s.drv.acc

/-- Settles O15: the CPU steps end in a state with a render next (exists_cpuRun), and the last of them begins inside the
budget, by when each step before it has counted a cycle (CpuRun.count_lt). -/
theorem frameBudgetEnds : Obligations.FrameBudgetEnds := by
  unfold Obligations.FrameBudgetEnds
  intro s hphase hacc positive
  have inv : ScheduleInv s := ⟨fun _ => hacc, fun h => nomatch hphase.symm.trans h⟩
  obtain ⟨k, t, r⟩ := exists_cpuRun inv (by rw [hphase]; exact nofun) positive
  obtain ⟨run, render, frame, -⟩ := r.run_eq
  refine ⟨k, t, ?_, run, render, frame, r.budget_spent inv⟩
  by_contra hk
  have := r.count_lt inv (Nat.le_succ 1) positive (Nat.lt_of_not_le hk)
  omega

/-- Settles O16: after the input delivery the CPU steps end (exists_cpuRun); at most 7 cycles each have spent the budget
(CpuRun.count_le), and at least 2 for each but the last have not (CpuRun.count_lt). -/
theorem stepsPerFrameAreBounded : Obligations.StepsPerFrameAreBounded := by
  unfold Obligations.StepsPerFrameAreBounded
  intro s hphase entries
  have deliver := step_of_input hphase
  have inv := step_scheduleInv deliver
  obtain ⟨k, t, r⟩ := exists_cpuRun inv (budgetPhase_ne_input _ _) fun op => Nat.le_of_succ_le (entries op).1
  obtain ⟨run, render, frame, params⟩ := r.run_eq
  refine ⟨k, t, (run_next k deliver).trans run, render, frame, fun j hj => ?cpu, ?least, ?most⟩
  case cpu =>
    obtain ⟨u, hu, hcpu⟩ := r.phase_cpu j hj
    exact ⟨u, (run_next j deliver).trans hu, hcpu⟩
  case least =>
    have spent : s.drv.params.frameCycles ≤ 0 + 7 * k :=
      calc s.drv.params.frameCycles = t.drv.params.frameCycles := by rw [params]; rfl
        _ ≤ t.drv.acc := r.budget_spent inv
        _ ≤ 0 + 7 * k := r.count_le fun op => (entries op).2
    omega
  case most =>
    cases k with
    | zero => exact Nat.zero_le _
    | succ k =>
      have inside : 0 + 2 * k < s.drv.params.frameCycles :=
        r.count_lt inv (Nat.le_refl 2) (fun op => (entries op).1) (Nat.lt_succ_self k)
      omega

/-! ## The resets and the boot (R300, R302, R303, R305) -/

theorem cpuReset_eq (s : State) :
    cpuReset s =
      { s with cpu := { a := 0, x := 0, y := 0, sp := 0xFD, p := 0x24, pc := romWord s 0x7FFC, nmiPending := false } } := by
  rw [cpuReset, read16_rom (by decide) (by decide)]
  rfl

/-- Of the flags of P after a reset, I and U alone are set. -/
theorem getFlag_reset (f : Flag) : getFlag f 0x24 = true ↔ f = .I ∨ f = .U := by
  cases f <;> decide

theorem reset_eq_boot : State.reset = boot [] [] [] defaultParams := by
  rw [boot_eq, Memory.ofImage_nil, Memory.ofImage_nil, Memory.ofImage_nil]
  rfl

/-- Settles O57: the CPU reset reads its vector from ROM (cpuReset_eq), and a boot leaves its images
(boot_eq, Memory.read_ofImage). -/
theorem resetAndBootValues : Obligations.ResetAndBootValues := by
  unfold Obligations.ResetAndBootValues
  refine ⟨cpuReset_eq, getFlag_reset, fun _ => rfl, fun prg chr ram prm => ?_, reset_eq_boot⟩
  exact ⟨_, boot_eq prg chr ram prm, rfl, Memory.read_ofImage _ ram, Memory.read_ofImage _ prg,
    Memory.read_ofImage _ chr, rfl, rfl, rfl, rfl, rfl⟩

end Sys2Proof.Machine
